-- ==== Sys2Proof/Word.lean ====
section
/-! DEFINITION. The word types of the LEGv8tron core: 64-bit values (00_scope.md R8), 32-bit instruction words
(30_encoding.md R80), bytes, and 5-bit register numbers (10_state.md R20, R21). -/

namespace Sys2Proof

/-- `bits64`: registers, pc, addresses, ALU operands and results (00_scope.md R8). -/
abbrev Word := BitVec 64

/-- An instruction word (30_encoding.md R80). -/
abbrev InstrWord := BitVec 32

/-- One byte of data memory (20_memory.md R50). -/
abbrev Byte := BitVec 8

/-- A register number as the hardware sees it (10_state.md R21). -/
abbrev RegIdx := BitVec 5

end Sys2Proof
end

