-- ==== Sys2Proof/Config.lean ====
section
/-! DEFINITION. What is fixed for the machine (00_scope.md R6). MEM_SIZE is OPEN there (decision D8), so it is no
constant here: each state carries its own, and only its allowed range is fixed. -/

namespace Sys2Proof.Config

/-- The zero register, X31 (10_state.md R21, R22). -/
def xzr : RegIdx := 31

/-- The register the assembler's `SP` names, X28 (10_state.md R21, decision D13). -/
def sp : RegIdx := 28

/-- The size of the data space that the 64-bit addresses reach, the largest MEM_SIZE (20_memory.md R50). -/
def maxMemSize : Nat := 2 ^ 64

/-- 1 <= MEM_SIZE <= 2^64 (00_scope.md R6). -/
abbrev memSizeOk (n : Nat) : Prop := 1 ≤ n ∧ n ≤ maxMemSize

end Sys2Proof.Config
end

