-- ==== Sys2Proof/Syntax.lean ====
section
/-! DEFINITION. The instructions: one constructor of `Instr` per row of spec/opcode_table.json, with the fields that
carry meaning for it (30_encoding.md R82 to R88, R115). A field the decoder ignores (R93) is no operand. -/

namespace Sys2Proof

/-- The six formats (30_encoding.md R81). -/
inductive Format
  | R | I | D | B | CB | IM
  deriving DecidableEq, Repr

/-- The kinds the decoder tells apart: the 23 mnemonics of 30_encoding.md R88, B.cond counted once (R92). -/
inductive Kind
  | add | adds | sub | subs | and | orr | eor | lsl | lsr
  | addi | subi | movz
  | ldur | stur | ldursw | sturw | ldurb | sturb
  | b | bcond | cbz | cbnz
  | halt
  deriving DecidableEq, Repr

/-- The 14 conditions of B.cond (43_branch.md R250). -/
inductive Cond
  | eq | ne | hs | lo | mi | pl | vs | vc | hi | ls | ge | lt | gt | le
  deriving DecidableEq, Repr

/-- The instructions. Operands are the fields of the word, as bits: `rd`, `rn`, `rm`, `rt` register numbers, `shamt`,
`imm12`, `imm16`, `hw`, `dt9`, `br26`, `cbr19` as 30_encoding.md R92 names them.
`cmp` is the table's alias row: SUBS with Rd = 31 (R116); its words are SUBS words (log entry 3). -/
inductive Instr
  | add (rd rn rm : RegIdx)
  | adds (rd rn rm : RegIdx)
  | sub (rd rn rm : RegIdx)
  | subs (rd rn rm : RegIdx)
  | and (rd rn rm : RegIdx)
  | orr (rd rn rm : RegIdx)
  | eor (rd rn rm : RegIdx)
  | lsl (rd rn : RegIdx) (shamt : BitVec 6)
  | lsr (rd rn : RegIdx) (shamt : BitVec 6)
  | addi (rd rn : RegIdx) (imm12 : BitVec 12)
  | subi (rd rn : RegIdx) (imm12 : BitVec 12)
  | movz (rd : RegIdx) (imm16 : BitVec 16) (hw : BitVec 2)
  | ldur (rt rn : RegIdx) (dt9 : BitVec 9)
  | stur (rt rn : RegIdx) (dt9 : BitVec 9)
  | ldursw (rt rn : RegIdx) (dt9 : BitVec 9)
  | sturw (rt rn : RegIdx) (dt9 : BitVec 9)
  | ldurb (rt rn : RegIdx) (dt9 : BitVec 9)
  | sturb (rt rn : RegIdx) (dt9 : BitVec 9)
  | b (br26 : BitVec 26)
  | bEq (cbr19 : BitVec 19)
  | bNe (cbr19 : BitVec 19)
  | bHs (cbr19 : BitVec 19)
  | bLo (cbr19 : BitVec 19)
  | bMi (cbr19 : BitVec 19)
  | bPl (cbr19 : BitVec 19)
  | bVs (cbr19 : BitVec 19)
  | bVc (cbr19 : BitVec 19)
  | bHi (cbr19 : BitVec 19)
  | bLs (cbr19 : BitVec 19)
  | bGe (cbr19 : BitVec 19)
  | bLt (cbr19 : BitVec 19)
  | bGt (cbr19 : BitVec 19)
  | bLe (cbr19 : BitVec 19)
  | cbz (rt : RegIdx) (cbr19 : BitVec 19)
  | cbnz (rt : RegIdx) (cbr19 : BitVec 19)
  | halt
  | cmp (rn rm : RegIdx)
  deriving DecidableEq, Repr

/-- The decoder's kind of an instruction (30_encoding.md R88, R92): CMP's is SUBS (R116), every B.<cc>'s is B.cond. -/
def Instr.kind : Instr → Kind
  | .add _ _ _ => .add
  | .adds _ _ _ => .adds
  | .sub _ _ _ => .sub
  | .subs _ _ _ => .subs
  | .and _ _ _ => .and
  | .orr _ _ _ => .orr
  | .eor _ _ _ => .eor
  | .lsl _ _ _ => .lsl
  | .lsr _ _ _ => .lsr
  | .addi _ _ _ => .addi
  | .subi _ _ _ => .subi
  | .movz _ _ _ => .movz
  | .ldur _ _ _ => .ldur
  | .stur _ _ _ => .stur
  | .ldursw _ _ _ => .ldursw
  | .sturw _ _ _ => .sturw
  | .ldurb _ _ _ => .ldurb
  | .sturb _ _ _ => .sturb
  | .b _ => .b
  | .bEq _ => .bcond
  | .bNe _ => .bcond
  | .bHs _ => .bcond
  | .bLo _ => .bcond
  | .bMi _ => .bcond
  | .bPl _ => .bcond
  | .bVs _ => .bcond
  | .bVc _ => .bcond
  | .bHi _ => .bcond
  | .bLs _ => .bcond
  | .bGe _ => .bcond
  | .bLt _ => .bcond
  | .bGt _ => .bcond
  | .bLe _ => .bcond
  | .cbz _ _ => .cbz
  | .cbnz _ _ => .cbnz
  | .halt => .halt
  | .cmp _ _ => .subs

/-- The conditional branch on a condition (30_encoding.md R115, `B.<cc> L`). -/
def Instr.bCond : Cond → BitVec 19 → Instr
  | .eq, o => .bEq o
  | .ne, o => .bNe o
  | .hs, o => .bHs o
  | .lo, o => .bLo o
  | .mi, o => .bMi o
  | .pl, o => .bPl o
  | .vs, o => .bVs o
  | .vc, o => .bVc o
  | .hi, o => .bHi o
  | .ls, o => .bLs o
  | .ge, o => .bGe o
  | .lt, o => .bLt o
  | .gt, o => .bGt o
  | .le, o => .bLe o

end Sys2Proof
end

