-- ==== Sys2Proof/WellFormed.lean ====
section
/-! DEFINITION. Which terms of `Instr` are the name of a word. Every operand is a bit vector of its field's width, so
the range checks of 30_encoding.md R118 cannot fail on a term (they are the assembler's, Machine/Assembler.lean). One
check is left: a SUBS whose destination is register 31 is CMP (R116, R192) and is written with `cmp` (log entry 3). -/

namespace Sys2Proof

/-- The term is the name its word decodes to. -/
def Instr.wellFormed : Instr → Bool
  | .add _ _ _ => true
  | .adds _ _ _ => true
  | .sub _ _ _ => true
  | .subs rd _ _ => rd != Config.xzr
  | .and _ _ _ => true
  | .orr _ _ _ => true
  | .eor _ _ _ => true
  | .lsl _ _ _ => true
  | .lsr _ _ _ => true
  | .addi _ _ _ => true
  | .subi _ _ _ => true
  | .movz _ _ _ => true
  | .ldur _ _ _ => true
  | .stur _ _ _ => true
  | .ldursw _ _ _ => true
  | .sturw _ _ _ => true
  | .ldurb _ _ _ => true
  | .sturb _ _ _ => true
  | .b _ => true
  | .bEq _ => true
  | .bNe _ => true
  | .bHs _ => true
  | .bLo _ => true
  | .bMi _ => true
  | .bPl _ => true
  | .bVs _ => true
  | .bVc _ => true
  | .bHi _ => true
  | .bLs _ => true
  | .bGe _ => true
  | .bLt _ => true
  | .bGt _ => true
  | .bLe _ => true
  | .cbz _ _ => true
  | .cbnz _ _ => true
  | .halt => true
  | .cmp _ _ => true

end Sys2Proof
end

