-- ==== Sys2Proof/Decode.lean ====
section
/-! DEFINITION. The decoder and the encoder. The opcode map is data (30_encoding.md R88, decision D1); the decoder finds
the row a word matches and slices the word (R90, R92); the encoder places each field at its bits (R82 to R87, R119). -/

namespace Sys2Proof

/-! ## The opcode map -/

/-- One row of the opcode map: it selects the words `w` with `w &&& mask = pattern` (30_encoding.md R88). -/
structure OpRow where
  kind : Kind
  format : Format
  pattern : InstrWord
  mask : InstrWord
  deriving DecidableEq, Repr

/-- The word is one of the row's (30_encoding.md R88: `(word & mask) == match`). -/
def OpRow.matches (r : OpRow) (w : InstrWord) : Bool := w &&& r.mask == r.pattern

/-- The R-format rows (30_encoding.md R88), HALT's with decision D2. -/
def rowsR : List OpRow :=
  [ ⟨.add, .R, 0x8B000000, 0xFFE00000⟩,
    ⟨.adds, .R, 0xAB000000, 0xFFE00000⟩,
    ⟨.sub, .R, 0xCB000000, 0xFFE00000⟩,
    ⟨.subs, .R, 0xEB000000, 0xFFE00000⟩,
    ⟨.and, .R, 0x8A000000, 0xFFE00000⟩,
    ⟨.orr, .R, 0xAA000000, 0xFFE00000⟩,
    ⟨.eor, .R, 0xCA000000, 0xFFE00000⟩,
    ⟨.lsl, .R, 0xD3600000, 0xFFE00000⟩,
    ⟨.lsr, .R, 0xD3400000, 0xFFE00000⟩,
    ⟨.halt, .R, 0xFFE00000, 0xFFE00000⟩ ]

/-- The I- and IM-format rows (30_encoding.md R88). -/
def rowsI : List OpRow :=
  [ ⟨.addi, .I, 0x91000000, 0xFFC00000⟩,
    ⟨.subi, .I, 0xD1000000, 0xFFC00000⟩,
    ⟨.movz, .IM, 0xD2800000, 0xFF800000⟩ ]

/-- The D-format rows (30_encoding.md R88). -/
def rowsD : List OpRow :=
  [ ⟨.ldur, .D, 0xF8400000, 0xFFE00000⟩,
    ⟨.stur, .D, 0xF8000000, 0xFFE00000⟩,
    ⟨.ldursw, .D, 0xB8800000, 0xFFE00000⟩,
    ⟨.sturw, .D, 0xB8000000, 0xFFE00000⟩,
    ⟨.ldurb, .D, 0x38400000, 0xFFE00000⟩,
    ⟨.sturb, .D, 0x38000000, 0xFFE00000⟩ ]

/-- The B-format row and the CBZ and CBNZ rows (30_encoding.md R88). -/
def rowsB : List OpRow :=
  [ ⟨.b, .B, 0x14000000, 0xFC000000⟩,
    ⟨.cbz, .CB, 0xB4000000, 0xFF000000⟩,
    ⟨.cbnz, .CB, 0xB5000000, 0xFF000000⟩ ]

/-- The fourteen B.cond rows, one per condition 0..13 (30_encoding.md R88, R96). -/
def rowsBcond : List OpRow :=
  [ ⟨.bcond, .CB, 0x54000000, 0xFF00001F⟩,
    ⟨.bcond, .CB, 0x54000001, 0xFF00001F⟩,
    ⟨.bcond, .CB, 0x54000002, 0xFF00001F⟩,
    ⟨.bcond, .CB, 0x54000003, 0xFF00001F⟩,
    ⟨.bcond, .CB, 0x54000004, 0xFF00001F⟩,
    ⟨.bcond, .CB, 0x54000005, 0xFF00001F⟩,
    ⟨.bcond, .CB, 0x54000006, 0xFF00001F⟩,
    ⟨.bcond, .CB, 0x54000007, 0xFF00001F⟩,
    ⟨.bcond, .CB, 0x54000008, 0xFF00001F⟩,
    ⟨.bcond, .CB, 0x54000009, 0xFF00001F⟩,
    ⟨.bcond, .CB, 0x5400000A, 0xFF00001F⟩,
    ⟨.bcond, .CB, 0x5400000B, 0xFF00001F⟩,
    ⟨.bcond, .CB, 0x5400000C, 0xFF00001F⟩,
    ⟨.bcond, .CB, 0x5400000D, 0xFF00001F⟩ ]

/-- The opcode map, 36 rows (30_encoding.md R88). CMP is no row of it: its words are SUBS words (R116). -/
def opcodeMap : List OpRow := rowsR ++ rowsI ++ rowsD ++ rowsB ++ rowsBcond

/-- Two rows that no word matches both of: they differ in a bit both masks cover (30_encoding.md R89). -/
def OpRow.apart (r r' : OpRow) : Bool := r.mask &&& r'.mask &&& (r.pattern ^^^ r'.pattern) != 0

/-- The rows of the opcode map are pairwise apart (30_encoding.md R89); so a word has at most one row, and their order does
not matter. -/
theorem opcodeMap_apart : opcodeMap.Pairwise fun r r' => r.apart r' = true := by decide

/-! ## The decoder -/

/-- The decoder's one error (30_encoding.md R90, R95). Safe: the spec gives the word no instruction, and the step
takes the fault of the same name (60_exceptions.md R282). -/
inductive DecodeError
  | unknownOpcode
  deriving DecidableEq, Repr

/-- The decoder's output record (30_encoding.md R92). Every field is a slice of the word. -/
structure DecodedFields where
  kind : Kind
  format : Format
  opcode : BitVec 11
  rd : RegIdx
  rt : RegIdx
  cond : BitVec 5
  rn : RegIdx
  rm : RegIdx
  shamt : BitVec 6
  imm12 : BitVec 12
  dt9 : BitVec 9
  op2 : BitVec 2
  br26 : BitVec 26
  cbr19 : BitVec 19
  imm16 : BitVec 16
  hw : BitVec 2
  deriving DecidableEq, Repr

/-- `word[lo+n-1 : lo]` (00_scope.md R7). -/
def slice (w : InstrWord) (lo n : Nat) : BitVec n := w.extractLsb' lo n

/-- The slices of 30_encoding.md R92. -/
def DecodedFields.ofWord (kind : Kind) (format : Format) (w : InstrWord) : DecodedFields where
  kind := kind
  format := format
  opcode := slice w 21 11
  rd := slice w 0 5
  rt := slice w 0 5
  cond := slice w 0 5
  rn := slice w 5 5
  rm := slice w 16 5
  shamt := slice w 10 6
  imm12 := slice w 10 12
  dt9 := slice w 12 9
  op2 := slice w 10 2
  br26 := slice w 0 26
  cbr19 := slice w 5 19
  imm16 := slice w 5 16
  hw := slice w 21 2

/-- The decoder of 30_encoding.md R90, total on all words (R97, decision D34). -/
def decodeFields (w : InstrWord) : Except DecodeError DecodedFields :=
  match opcodeMap.find? (·.matches w) with
  | some r => .ok (.ofWord r.kind r.format w)
  | none => .error .unknownOpcode

/-- The number of a condition (43_branch.md R250). -/
def Cond.code : Cond → BitVec 5
  | .eq => 0
  | .ne => 1
  | .hs => 2
  | .lo => 3
  | .mi => 4
  | .pl => 5
  | .vs => 6
  | .vc => 7
  | .hi => 8
  | .ls => 9
  | .ge => 10
  | .lt => 11
  | .gt => 12
  | .le => 13

/-- The condition a `cond` field selects; 14 to 31 select none (30_encoding.md R96). -/
def Cond.ofCode (c : BitVec 5) : Option Cond :=
  match c.toNat with
  | 0 => some .eq
  | 1 => some .ne
  | 2 => some .hs
  | 3 => some .lo
  | 4 => some .mi
  | 5 => some .pl
  | 6 => some .vs
  | 7 => some .vc
  | 8 => some .hi
  | 9 => some .ls
  | 10 => some .ge
  | 11 => some .lt
  | 12 => some .gt
  | 13 => some .le
  | _ => none

/-- The instruction a decoded record names: the fields that carry meaning for its kind (30_encoding.md R92, R93). A
SUBS with Rd = 31 is named CMP (R116). -/
def Instr.ofFields (d : DecodedFields) : Except DecodeError Instr :=
  match d.kind with
  | .add => .ok (.add d.rd d.rn d.rm)
  | .adds => .ok (.adds d.rd d.rn d.rm)
  | .sub => .ok (.sub d.rd d.rn d.rm)
  | .subs => .ok (if d.rd = Config.xzr then .cmp d.rn d.rm else .subs d.rd d.rn d.rm)
  | .and => .ok (.and d.rd d.rn d.rm)
  | .orr => .ok (.orr d.rd d.rn d.rm)
  | .eor => .ok (.eor d.rd d.rn d.rm)
  | .lsl => .ok (.lsl d.rd d.rn d.shamt)
  | .lsr => .ok (.lsr d.rd d.rn d.shamt)
  | .addi => .ok (.addi d.rd d.rn d.imm12)
  | .subi => .ok (.subi d.rd d.rn d.imm12)
  | .movz => .ok (.movz d.rd d.imm16 d.hw)
  | .ldur => .ok (.ldur d.rt d.rn d.dt9)
  | .stur => .ok (.stur d.rt d.rn d.dt9)
  | .ldursw => .ok (.ldursw d.rt d.rn d.dt9)
  | .sturw => .ok (.sturw d.rt d.rn d.dt9)
  | .ldurb => .ok (.ldurb d.rt d.rn d.dt9)
  | .sturb => .ok (.sturb d.rt d.rn d.dt9)
  | .b => .ok (.b d.br26)
  | .bcond =>
    match Cond.ofCode d.cond with
    | some c => .ok (.bCond c d.cbr19)
    | none => .error .unknownOpcode
  | .cbz => .ok (.cbz d.rt d.cbr19)
  | .cbnz => .ok (.cbnz d.rt d.cbr19)
  | .halt => .ok .halt

/-- The instruction a word is, or `unknownOpcode` (30_encoding.md R90, R95). -/
def decode (w : InstrWord) : Except DecodeError Instr :=
  match decodeFields w with
  | .ok d => Instr.ofFields d
  | .error e => .error e

/-! ## The encoder -/

/-- A field's value at its bits, zeros elsewhere. -/
def place {n : Nat} (v : BitVec n) (lo : Nat) : InstrWord := v.setWidth 32 <<< lo

/-- R-format (30_encoding.md R82). -/
def encodeR (opcode : BitVec 11) (rm : RegIdx) (shamt : BitVec 6) (rn rd : RegIdx) : InstrWord :=
  place opcode 21 ||| place rm 16 ||| place shamt 10 ||| place rn 5 ||| place rd 0

/-- I-format (30_encoding.md R83). -/
def encodeI (opcode : BitVec 10) (imm12 : BitVec 12) (rn rd : RegIdx) : InstrWord :=
  place opcode 22 ||| place imm12 10 ||| place rn 5 ||| place rd 0

/-- D-format (30_encoding.md R84); op2 is written 0 (R119). -/
def encodeD (opcode : BitVec 11) (dt9 : BitVec 9) (rn rt : RegIdx) : InstrWord :=
  place opcode 21 ||| place dt9 12 ||| place rn 5 ||| place rt 0

/-- B-format (30_encoding.md R85). -/
def encodeB (opcode : BitVec 6) (br26 : BitVec 26) : InstrWord :=
  place opcode 26 ||| place br26 0

/-- CB-format (30_encoding.md R86). -/
def encodeCB (opcode : BitVec 8) (cbr19 : BitVec 19) (rt : BitVec 5) : InstrWord :=
  place opcode 24 ||| place cbr19 5 ||| place rt 0

/-- IM-format (30_encoding.md R87). -/
def encodeIM (opcode : BitVec 9) (hw : BitVec 2) (imm16 : BitVec 16) (rd : RegIdx) : InstrWord :=
  place opcode 23 ||| place hw 21 ||| place imm16 5 ||| place rd 0

/-- The B.cond word of a condition (30_encoding.md R88, 43_branch.md R252). -/
def encodeBcond (c : Cond) (cbr19 : BitVec 19) : InstrWord := encodeCB 0x54 cbr19 c.code

/-- The word of an instruction, ignored fields 0 (30_encoding.md R88, R115, R119). -/
def encode : Instr → InstrWord
  | .add rd rn rm => encodeR 0x458 rm 0 rn rd
  | .adds rd rn rm => encodeR 0x558 rm 0 rn rd
  | .sub rd rn rm => encodeR 0x658 rm 0 rn rd
  | .subs rd rn rm => encodeR 0x758 rm 0 rn rd
  | .and rd rn rm => encodeR 0x450 rm 0 rn rd
  | .orr rd rn rm => encodeR 0x550 rm 0 rn rd
  | .eor rd rn rm => encodeR 0x650 rm 0 rn rd
  | .lsl rd rn shamt => encodeR 0x69B 0 shamt rn rd
  | .lsr rd rn shamt => encodeR 0x69A 0 shamt rn rd
  | .addi rd rn imm12 => encodeI 0x244 imm12 rn rd
  | .subi rd rn imm12 => encodeI 0x344 imm12 rn rd
  | .movz rd imm16 hw => encodeIM 0x1A5 hw imm16 rd
  | .ldur rt rn dt9 => encodeD 0x7C2 dt9 rn rt
  | .stur rt rn dt9 => encodeD 0x7C0 dt9 rn rt
  | .ldursw rt rn dt9 => encodeD 0x5C4 dt9 rn rt
  | .sturw rt rn dt9 => encodeD 0x5C0 dt9 rn rt
  | .ldurb rt rn dt9 => encodeD 0x1C2 dt9 rn rt
  | .sturb rt rn dt9 => encodeD 0x1C0 dt9 rn rt
  | .b br26 => encodeB 0x05 br26
  | .bEq cbr19 => encodeBcond .eq cbr19
  | .bNe cbr19 => encodeBcond .ne cbr19
  | .bHs cbr19 => encodeBcond .hs cbr19
  | .bLo cbr19 => encodeBcond .lo cbr19
  | .bMi cbr19 => encodeBcond .mi cbr19
  | .bPl cbr19 => encodeBcond .pl cbr19
  | .bVs cbr19 => encodeBcond .vs cbr19
  | .bVc cbr19 => encodeBcond .vc cbr19
  | .bHi cbr19 => encodeBcond .hi cbr19
  | .bLs cbr19 => encodeBcond .ls cbr19
  | .bGe cbr19 => encodeBcond .ge cbr19
  | .bLt cbr19 => encodeBcond .lt cbr19
  | .bGt cbr19 => encodeBcond .gt cbr19
  | .bLe cbr19 => encodeBcond .le cbr19
  | .cbz rt cbr19 => encodeCB 0xB4 cbr19 rt
  | .cbnz rt cbr19 => encodeCB 0xB5 cbr19 rt
  | .halt => encodeR 0x7FF 0 0 0 0
  | .cmp rn rm => encodeR 0x758 rm 0 rn Config.xzr

/-- The bits of a word the decoder examines for a kind: all but the ignored fields (30_encoding.md R93). -/
def examinedBits : Kind → InstrWord
  | .add | .adds | .sub | .subs | .and | .orr | .eor => 0xFFFF03FF
  | .lsl | .lsr => 0xFFE0FFFF
  | .ldur | .stur | .ldursw | .sturw | .ldurb | .sturb => 0xFFFFF3FF
  | .halt => 0xFFE00000
  | .addi | .subi | .movz | .b | .bcond | .cbz | .cbnz => 0xFFFFFFFF

/-! ## The host's entry point -/

/-- The word the opcode table numbers `w` in `nbits` bits: the bits above `nbits` are 0. -/
def tableWord (nbits w : Nat) : InstrWord := BitVec.ofNat 32 (w % 2 ^ nbits)

/-- The instruction the decoder reads from the table's word `w` of `nbits` bits; every instruction has 32 bits
(30_encoding.md R80), so a longer word is no instruction. -/
def decodeTableWord (nbits w : Nat) : Option Instr :=
  if 32 < nbits then none
  else
    match decode (tableWord nbits w) with
    | .ok i => some i
    | .error _ => none

end Sys2Proof
end

