-- ==== Sys2Proof/Machine/Params.lean ====
section
/-! DEFINITION. The value of the OPEN parameter MEM_SIZE in the state after reset (log entry 1). It stands apart from
State.lean so that it can be changed alone; no statement rests on it. -/

namespace Sys2Proof.Machine

/-- MEM_SIZE of `State.reset`. DESIGN CHOICE (log entry 1), unsafe: 00_scope.md R6 leaves MEM_SIZE open (decision D8);
2^64 is the value at which the source's unbounded sparse memory is recovered (20_memory.md R58). -/
def resetMemSize : Nat := Config.maxMemSize

end Sys2Proof.Machine
end

