-- ==== Sys2Proof/Machine/State.lean ====
section
/-! DEFINITION. The state of one core (10_state.md R38), the observation it keeps (40_datapath.md R154), and the ways a
step of the model could stop. -/

namespace Sys2Proof.Machine

/-- N, Z, C, V (10_state.md R28). -/
structure Flags where
  n : Bool
  z : Bool
  c : Bool
  v : Bool
  deriving DecidableEq, Repr

/-- The value of the `fault` register (10_state.md R31, 60_exceptions.md R281). These are the core's own fatal faults,
which a step TAKES as a next state (60_exceptions.md R287). Their codes 0 to 4 are `FaultKind.code`
(Machine/Ops.lean). -/
inductive FaultKind
  /-- No fault. -/
  | none
  /-- Raised at decode by a word that is no instruction (60_exceptions.md R282). -/
  | unknownOpcode
  /-- Raised at fetch when pc has no instruction in the program (60_exceptions.md R283). -/
  | invalidPC
  /-- Raised by a misaligned 8- or 4-byte access (60_exceptions.md R284). -/
  | alignmentFault
  /-- Raised by an aligned access past MEM_SIZE (60_exceptions.md R285). -/
  | memoryBoundsFault
  deriving DecidableEq, Repr

/-- `ALUOp`, the class of ALU operation (40_datapath.md R131). -/
inductive AluClass
  | add | sub | pass | rType | none
  deriving DecidableEq, Repr

/-- `ControlSignals` (40_datapath.md R130), in the order of the table of R132. -/
structure ControlSignals where
  regWrite : Bool
  aluSrc : Bool
  memRead : Bool
  memWrite : Bool
  memToReg : Bool
  branch : Bool
  uncondBranch : Bool
  flagWrite : Bool
  aluOp : AluClass
  halt : Bool
  deriving DecidableEq, Repr

/-- `StepObservation` (40_datapath.md R154). -/
structure StepObservation where
  pcBefore : Word
  nextPc : Word
  raw : Option InstrWord
  signals : Option ControlSignals
  aluResult : Option Word
  memAddr : Option Word
  memRead : Bool
  memWrite : Bool
  regWritten : Option RegIdx
  regValue : Option Word
  flagsAfter : Flags
  halted : Bool
  fault : FaultKind
  deriving DecidableEq, Repr

/-- Instruction memory (10_state.md R34): the words at `base`, `base + 4`, and so on. The source line and mnemonic
text of R34 are read by no rule and are left out. -/
structure Program where
  base : Word
  words : List InstrWord
  deriving DecidableEq, Repr

/-- Data memory (20_memory.md R50), as the bytes that differ from what an unlisted address reads as, by rising
address (`Memory.wf`, Machine/Ops.lean). -/
abbrev Memory := List Host.Cell

/-- The complete state of one core (10_state.md R38). -/
structure State where
  /-- The address of the instruction the next step executes (10_state.md R26). -/
  pc : Word
  /-- X0 to X30; X31 is not stored (10_state.md R22, R23). -/
  x : Vector Word 31
  /-- N, Z, C, V (10_state.md R28). -/
  flags : Flags
  /-- Set by HALT and by every fault, cleared by `load` and `reset` (10_state.md R30). -/
  halted : Bool
  /-- Why the core halted (10_state.md R31). -/
  fault : FaultKind
  /-- The observation of the most recent step (10_state.md R32). -/
  lastObs : Option StepObservation
  /-- MEM_SIZE, the number of bytes of data memory: a parameter of the core (00_scope.md R6), kept by every step. -/
  memSize : Nat
  /-- The data memory's bytes (10_state.md R33). -/
  dmem : Memory
  /-- The loaded program (10_state.md R34). -/
  program : Program
  deriving DecidableEq, Repr

/-- The ways a step could stop with a fault of the MODEL. There is none: every fault of the core is fatal but
described, and the step takes it as a next state (60_exceptions.md R287), so nothing raises one. -/
inductive Fault
  deriving DecidableEq, Repr

/-- The ways a step could be refused. -/
inductive Refusal
  /-- Raised by an arm of `exec` for an instruction that has no meaning yet; no arm raises it now. Safe: nothing can
  be proved of a run past it. -/
  | notModelled (mnemonic : String)
  deriving DecidableEq, Repr

/-- N = Z = C = V = 0 (70_reset_and_hazards.md R319). -/
def Flags.clear : Flags := ⟨false, false, false, false⟩

/-- The program with no word; its load address is 0 (70_reset_and_hazards.md R311, decision D21). -/
def Program.empty : Program := ⟨0, []⟩

/-- The machine right after reset (70_reset_and_hazards.md R319), with no program in it and nothing listed in memory
(log entry 2); MEM_SIZE is `resetMemSize` (log entry 1). -/
def State.reset : State where
  pc := 0
  x := Vector.replicate 31 0
  flags := .clear
  halted := false
  fault := .none
  lastObs := .none
  memSize := resetMemSize
  dmem := []
  program := .empty

end Sys2Proof.Machine
end

