-- ==== Sys2Proof/Machine/Flags.lean ====
section
/-! DEFINITION. Every flag computation: the ALU's flag outputs (40_datapath.md R138 to R142) and the conditions that
read the flags (43_branch.md R250). -/

namespace Sys2Proof.Machine

/-- The flags of ALU ADD (40_datapath.md R138). -/
def addFlags (a b : Word) : Flags where
  n := (a + b).msb
  z := a + b == 0
  c := decide (2 ^ 64 ≤ a.toNat + b.toNat)
  v := a.msb == b.msb && (a + b).msb != a.msb

/-- The flags of ALU SUB, with C the carry out of a + NOT(b) + 1 (40_datapath.md R139, decision D14). -/
def subFlags (a b : Word) : Flags where
  n := (a + ~~~b + 1).msb
  z := a + ~~~b + 1 == 0
  c := decide (2 ^ 64 ≤ a.toNat + (~~~b).toNat + 1)
  v := a.msb != b.msb && (a + ~~~b + 1).msb != a.msb

/-- The flags of ALU AND, ORR and EOR with result `r` (40_datapath.md R140). -/
def logicFlags (r : Word) : Flags where
  n := r.msb
  z := r == 0
  c := false
  v := false

/-- The flag outputs of LSL, LSR and PASS, never written back (40_datapath.md R141, R142, decision D15). -/
def noFlags : Flags := ⟨false, false, false, false⟩

/-- `CondHolds(cond, flags)` (43_branch.md R250). -/
def condHolds : Cond → Flags → Bool
  | .eq, f => f.z
  | .ne, f => !f.z
  | .hs, f => f.c
  | .lo, f => !f.c
  | .mi, f => f.n
  | .pl, f => !f.n
  | .vs, f => f.v
  | .vc, f => !f.v
  | .hi, f => f.c && !f.z
  | .ls, f => !(f.c && !f.z)
  | .ge, f => f.n == f.v
  | .lt, f => f.n != f.v
  | .gt, f => !f.z && f.n == f.v
  | .le, f => !(!f.z && f.n == f.v)

end Sys2Proof.Machine
end

