-- ==== Sys2Proof/Machine/Ops.lean ====
section
/-! DEFINITION. The operations every meaning is made of: registers, data memory, the program, the access check, the
commit of a completed instruction, HALT's stop, and taking a fault. -/

namespace Sys2Proof.Machine

/-! ## Registers -/

/-- `x[i]`; register 31 reads 0 (10_state.md R22). -/
def State.reg (s : State) (r : RegIdx) : Word :=
  if h : r.toNat < 31 then s.x[r.toNat] else 0

/-- `x[i] <- v` on the register file; a write to register 31 is discarded (10_state.md R23). -/
def writeReg (x : Vector Word 31) (r : RegIdx) (v : Word) : Vector Word 31 :=
  if h : r.toNat < 31 then x.set r.toNat v else x

/-! ## Data memory -/

/-- What an address that is not listed reads as: a byte never written holds 0 (20_memory.md R50). -/
def Memory.unlisted : Byte := 0

/-- One byte of data memory (20_memory.md R50). -/
def Memory.get : Memory → Nat → Byte
  | [], _ => Memory.unlisted
  | (b, u) :: m, a => if b = a then u else Memory.get m a

/-- The bytes at every address but `a`. -/
def Memory.drop (m : Memory) (a : Nat) : Memory := m.filter fun c => c.1 != a

/-- Put an entry in front of the first higher address. -/
def Memory.insert (a : Nat) (v : Byte) : Memory → Memory
  | [] => [(a, v)]
  | (b, u) :: m => if a < b then (a, v) :: (b, u) :: m else (b, u) :: Memory.insert a v m

/-- Write one byte, keeping the canonical form (20_memory.md R54). -/
def Memory.set (m : Memory) (a : Nat) (v : Byte) : Memory :=
  if v = Memory.unlisted then m.drop a else Memory.insert a v (m.drop a)

/-- The canonical form from address `lo` on: addresses strictly rising from `lo`, no byte equal to `unlisted`. -/
def Memory.wfFrom : Nat → Memory → Bool
  | _, [] => true
  | lo, (a, v) :: m => decide (lo ≤ a) && v != Memory.unlisted && Memory.wfFrom (a + 1) m

/-- The canonical form: addresses strictly rising, no byte equal to `unlisted`; equal memories are then equal data. -/
def Memory.wf (m : Memory) : Bool := Memory.wfFrom 0 m

/-- Every listed byte lies in 0..size-1 (20_memory.md R50, R51). -/
def Memory.below (size : Nat) (m : Memory) : Bool := m.all fun c => decide (c.1 < size)

/-- `MemRead(addr, n)`, the n bytes at addr little-endian, zero-extended to 64 bits (20_memory.md R53). -/
def memRead (m : Memory) (addr : Nat) : Nat → Word
  | 0 => 0
  | n + 1 => (memRead m (addr + 1) n <<< 8) ||| (m.get addr).setWidth 64

/-- `MemWrite(addr, n, v)`, the low n bytes of v little-endian (20_memory.md R54). -/
def memWrite (m : Memory) (addr : Nat) : Nat → Word → Memory
  | 0, _ => m
  | n + 1, v => memWrite (m.set addr (v.setWidth 8)) (addr + 1) n (v >>> 8)

/-- One byte of the state's data memory, as the host's `get_memory` reads it (70_reset_and_hazards.md R316). -/
def State.byte (s : State) (a : Nat) : Byte := s.dmem.get a

/-- `AccessCheck(addr, n)`: the fault it raises, or none where the access proceeds; alignment first, and the sum
taken without wrap (20_memory.md R56 to R58). -/
def State.accessFault (s : State) (addr : Word) (n : Nat) : Option FaultKind :=
  if addr.toNat % n ≠ 0 then some .alignmentFault
  else if s.memSize < addr.toNat + n then some .memoryBoundsFault
  else none

/-! ## The program -/

/-- The place in the program of the word at address `a`, if it has one: `a = base + 4 k` (10_state.md R34). An address
that is no multiple of 4 has none (20_memory.md R62). -/
def Program.slot (p : Program) (a : Word) : Option Nat :=
  if a.toNat % 4 = 0 ∧ p.base.toNat ≤ a.toNat ∧ (a.toNat - p.base.toNat) % 4 = 0
      ∧ (a.toNat - p.base.toNat) / 4 < p.words.length then
    some ((a.toNat - p.base.toNat) / 4)
  else none

/-- `Program[a]`, none where `a` is not in the program (10_state.md R34, 20_memory.md R62). -/
def Program.fetch (p : Program) (a : Word) : Option InstrWord :=
  match p.slot a with
  | some k => p.words[k]?
  | none => none

/-- LOAD_ADDR: the minimum address, 0 for an empty program (70_reset_and_hazards.md R311, decision D21). -/
def Program.loadAddr (p : Program) : Word := if p.words = [] then 0 else p.base

/-- The addresses are multiples of 4 and do not wrap (10_state.md R34). -/
def Program.wf (p : Program) : Bool :=
  p.base.toNat % 4 == 0 && decide (p.base.toNat + 4 * p.words.length ≤ 2 ^ 64)

/-- The program with word `w` at address `a`: in its place if `a` is in the program, else alone. For `withFetchWord`. -/
def Program.putWord (p : Program) (a : Word) (w : InstrWord) : Program :=
  match p.slot a with
  | some k => { p with words := p.words.set k w }
  | none => ⟨a, [w]⟩

/-- The word the next step fetches (20_memory.md R62). -/
def State.fetched (s : State) : Option InstrWord := s.program.fetch s.pc

/-! ## The commit of a completed instruction -/

/-- What a completed instruction commits (40_datapath.md R147 to R151, R155). -/
structure Completion where
  /-- Its row of the control table. -/
  signals : ControlSignals
  /-- The ALU's result. -/
  aluResult : Word
  /-- The data address, if it accessed data memory. -/
  access : Option Word
  /-- The register written and its value, if `RegWrite`. -/
  dest : Option (RegIdx × Word)
  /-- The flags written, if `FlagWrite`. -/
  flags : Option Flags
  /-- The data memory after a store. -/
  dmem : Option Memory
  /-- The committed pc. -/
  nextPc : Word
  deriving DecidableEq, Repr

/-- A completion that changes only the pc, to the next instruction; a meaning adds its effect (10_state.md R27). -/
def State.goOn (s : State) (sig : ControlSignals) (res : Word) : Completion where
  signals := sig
  aluResult := res
  access := none
  dest := none
  flags := none
  dmem := none
  nextPc := s.pc + 4

/-- The register the observation reports as written: none for register 31 (40_datapath.md R155). -/
def Completion.regWritten (c : Completion) : Option RegIdx :=
  match c.dest with
  | some (rd, _) => if rd = Config.xzr then none else some rd
  | none => none

/-- Its new value (40_datapath.md R155). -/
def Completion.regValue (c : Completion) : Option Word :=
  match c.dest with
  | some (rd, v) => if rd = Config.xzr then none else some v
  | none => none

/-- The observation of a completed step, the row "normal" of 40_datapath.md R155. -/
def State.completeObs (s : State) (c : Completion) : StepObservation where
  pcBefore := s.pc
  nextPc := c.nextPc
  raw := s.fetched
  signals := some c.signals
  aluResult := some c.aluResult
  memAddr := c.access
  memRead := c.access.isSome && c.signals.memRead
  memWrite := c.access.isSome && c.signals.memWrite
  regWritten := c.regWritten
  regValue := c.regValue
  flagsAfter := c.flags.getD s.flags
  halted := false
  fault := .none

/-- The commit: pc, one register, flags, memory and last_obs together (40_datapath.md R156). -/
def State.complete (s : State) (c : Completion) : State :=
  { s with
    pc := c.nextPc
    x := match c.dest with
      | some (rd, v) => writeReg s.x rd v
      | none => s.x
    flags := c.flags.getD s.flags
    dmem := c.dmem.getD s.dmem
    lastObs := some (s.completeObs c) }

/-! ## The fault register's codes -/

/-- The numeric code of a fault kind (60_exceptions.md R281, decision D33). -/
def FaultKind.code : FaultKind → Nat
  | .none => 0
  | .unknownOpcode => 1
  | .invalidPC => 2
  | .alignmentFault => 3
  | .memoryBoundsFault => 4

/-- The fault kind of a code; no other number is a code (60_exceptions.md R281). -/
def FaultKind.ofCode : Nat → Option FaultKind
  | 0 => some .none
  | 1 => some .unknownOpcode
  | 2 => some .invalidPC
  | 3 => some .alignmentFault
  | 4 => some .memoryBoundsFault
  | _ => Option.none

/-- The `fault` register's contents, as its code (10_state.md R31). -/
def State.faultCode (s : State) : Nat := s.fault.code

/-- The observation's error tag, as its code (40_datapath.md R154, 60_exceptions.md R281). -/
def StepObservation.faultCode (o : StepObservation) : Nat := o.fault.code

/-! ## Stopping: HALT and the fatal faults -/

/-- The observation of HALT (40_datapath.md R155). -/
def State.haltObs (s : State) (sig : ControlSignals) : StepObservation where
  pcBefore := s.pc
  nextPc := s.pc
  raw := s.fetched
  signals := some sig
  aluResult := none
  memAddr := none
  memRead := false
  memWrite := false
  regWritten := none
  regValue := none
  flagsAfter := s.flags
  halted := true
  fault := .none

/-- `HALT_STOP`: halted and last_obs, nothing else (40_datapath.md R152, 44_halt.md R270). -/
def State.haltStop (s : State) (sig : ControlSignals) : State :=
  { s with halted := true, lastObs := some (s.haltObs sig) }

/-- The observation of a fault (40_datapath.md R155). `attempt` is the signals and address of the attempted access,
for the two memory faults; `raw` is None exactly where the fetch found no word. -/
def State.faultObs (s : State) (k : FaultKind) (attempt : Option (ControlSignals × Word)) : StepObservation where
  pcBefore := s.pc
  nextPc := s.pc
  raw := s.fetched
  signals := attempt.map (·.1)
  aluResult := attempt.map (·.2)
  memAddr := attempt.map (·.2)
  memRead := (attempt.map (·.1.memRead)).getD false
  memWrite := (attempt.map (·.1.memWrite)).getD false
  regWritten := none
  regValue := none
  flagsAfter := s.flags
  halted := true
  fault := k

/-- TAKING A FAULT: halted, fault and last_obs are written; pc, registers, flags and memory keep their values
(60_exceptions.md R287). There is no return from it inside the core (R290): the host's `load` and `reset`
(Machine/HostOps.lean) leave the halted state. -/
def State.takeFault (s : State) (k : FaultKind) (attempt : Option (ControlSignals × Word)) : State :=
  { s with halted := true, fault := k, lastObs := some (s.faultObs k attempt) }

/-! ## Loads, stores and branches -/

/-- A load of `n` bytes at `addr` into register `rt`, extended by `ext` (40_datapath.md R148, R149). -/
def State.load (s : State) (sig : ControlSignals) (n : Nat) (ext : Word → Word) (addr : Word) (rt : RegIdx) : State :=
  match s.accessFault addr n with
  | some k => s.takeFault k (some (sig, addr))
  | none =>
    s.complete { s.goOn sig addr with
      access := some addr
      dest := some (rt, ext (memRead s.dmem addr.toNat n)) }

/-- A store of the low `n` bytes of `v` at `addr` (40_datapath.md R148). -/
def State.store (s : State) (sig : ControlSignals) (n : Nat) (addr v : Word) : State :=
  match s.accessFault addr n with
  | some k => s.takeFault k (some (sig, addr))
  | none =>
    s.complete { s.goOn sig addr with
      access := some addr
      dmem := some (memWrite s.dmem addr.toNat n v) }

/-- A branch by `off` bytes from its own address, or to the next instruction (40_datapath.md R151, decision D35). -/
def State.branch (s : State) (sig : ControlSignals) (res : Word) (taken : Bool) (off : Word) : State :=
  s.complete { s.goOn sig res with nextPc := if taken then s.pc + off else s.pc + 4 }

end Sys2Proof.Machine
end

