-- ==== Sys2Proof/Machine/Operands.lean ====
section
/-! DEFINITION. The operand forms: the immediates and offsets of 30_encoding.md R91, and the one addressing mode of
42_load_store.md R219. -/

namespace Sys2Proof.Machine

/-- `ALUImm`: `sext_64(imm12)` (30_encoding.md R91, conflict C6). -/
def aluImm (imm12 : BitVec 12) : Word := imm12.signExtend 64

/-- `DTAddr`: `sext_64(dt9)`, a byte offset (30_encoding.md R91). -/
def dtAddr (dt9 : BitVec 9) : Word := dt9.signExtend 64

/-- `ShAmt`: `zext_64(shamt)` (30_encoding.md R91). -/
def shAmt (shamt : BitVec 6) : Word := shamt.setWidth 64

/-- `MovImm`: `zext_64(imm16) << (16 * hw)` (30_encoding.md R91). -/
def movImm (imm16 : BitVec 16) (hw : BitVec 2) : Word := imm16.setWidth 64 <<< (16 * hw.toNat)

/-- `BranchOff`: `sext_64(br26) << 2`, a byte offset (30_encoding.md R91). -/
def branchOff (br26 : BitVec 26) : Word := br26.signExtend 64 <<< 2

/-- `CondBranchOff`: `sext_64(cbr19) << 2`, a byte offset (30_encoding.md R91). -/
def condBranchOff (cbr19 : BitVec 19) : Word := cbr19.signExtend 64 <<< 2

/-- The effective address `x[n] + sext_64(dt9)`, modulo 2^64 (42_load_store.md R219). -/
def State.effAddr (s : State) (rn : RegIdx) (dt9 : BitVec 9) : Word := s.reg rn + dtAddr dt9

/-- LDUR's extension: none (40_datapath.md R134). -/
def extDouble (v : Word) : Word := v

/-- LDURSW's extension: `sext_64` of the 4 bytes (40_datapath.md R134, decision D25). -/
def extWordSigned (v : Word) : Word := (v.setWidth 32).signExtend 64

/-- LDURB's extension: `zext_64` of the byte (40_datapath.md R134, decision D25). -/
def extByte (v : Word) : Word := (v.setWidth 8).setWidth 64

end Sys2Proof.Machine
end

