-- ==== Sys2Proof/Machine/Control.lean ====
section
/-! DEFINITION. The combinational parts of the datapath: control unit, ALU control, ALU and operand routing
(40_datapath.md R130 to R145). -/

namespace Sys2Proof.Machine

/-! ## Control unit -/

/-- The control table of 40_datapath.md R132, one row per kind. The columns are RegWrite, ALUSrc, MemRead, MemWrite,
MemToReg, Branch, UncondBranch, FlagWrite, ALUOp, Halt. -/
def controlRow : Kind → ControlSignals
  | .add | .sub | .and | .orr | .eor => ⟨true, false, false, false, false, false, false, false, .rType, false⟩
  | .adds | .subs => ⟨true, false, false, false, false, false, false, true, .rType, false⟩
  | .lsl | .lsr => ⟨true, true, false, false, false, false, false, false, .rType, false⟩
  | .addi => ⟨true, true, false, false, false, false, false, false, .add, false⟩
  | .subi => ⟨true, true, false, false, false, false, false, false, .sub, false⟩
  | .movz => ⟨true, true, false, false, false, false, false, false, .pass, false⟩
  | .ldur | .ldursw | .ldurb => ⟨true, true, true, false, true, false, false, false, .add, false⟩
  | .stur | .sturw | .sturb => ⟨false, true, false, true, false, false, false, false, .add, false⟩
  | .cbz | .cbnz => ⟨false, false, false, false, false, true, false, false, .pass, false⟩
  | .bcond => ⟨false, false, false, false, false, true, false, false, .none, false⟩
  | .b => ⟨false, false, false, false, false, false, true, false, .none, false⟩
  | .halt => ⟨false, false, false, false, false, false, false, false, .none, true⟩

/-- A row of the opcode map covers an 11-bit opcode field (30_encoding.md R88, column op11). -/
def opcodeCovers (r : OpRow) (opcode : BitVec 11) : Bool :=
  opcode &&& slice r.mask 21 11 == slice r.pattern 21 11

/-- The control unit: the signals of a (format, opcode), none where it has no entry (40_datapath.md R132, R133). -/
def controlUnit (format : Format) (opcode : BitVec 11) : Option ControlSignals :=
  match opcodeMap.find? fun r => r.format == format && opcodeCovers r opcode with
  | some r => some (controlRow r.kind)
  | none => none

/-- MemWidth of a kind; 0 for a kind that accesses no memory (40_datapath.md R134). -/
def memWidth : Kind → Nat
  | .ldur | .stur => 8
  | .ldursw | .sturw => 4
  | .ldurb | .sturb => 1
  | .add | .adds | .sub | .subs | .and | .orr | .eor | .lsl | .lsr | .addi | .subi | .movz => 0
  | .b | .bcond | .cbz | .cbnz | .halt => 0

/-- The load extension of a kind (40_datapath.md R134). -/
def loadExtend : Kind → Word → Word
  | .ldursw, v => extWordSigned v
  | .ldurb, v => extByte v
  | _, v => extDouble v

/-! ## ALU control and ALU -/

/-- The eight operation tags (40_datapath.md R135). -/
inductive AluOp
  | add | sub | and | orr | eor | lsl | lsr | pass
  deriving DecidableEq, Repr

/-- The R-format opcodes of ALU control (40_datapath.md R136). -/
def rTypeOp (opcode : BitVec 11) : Option AluOp :=
  if opcode = 0x458 then some .add
  else if opcode = 0x558 then some .add
  else if opcode = 0x658 then some .sub
  else if opcode = 0x758 then some .sub
  else if opcode = 0x450 then some .and
  else if opcode = 0x550 then some .orr
  else if opcode = 0x650 then some .eor
  else if opcode = 0x69B then some .lsl
  else if opcode = 0x69A then some .lsr
  else none

/-- ALU control; none is its UnknownOpcode (40_datapath.md R136). -/
def aluControl (cls : AluClass) (opcode : BitVec 11) : Option AluOp :=
  match cls with
  | .add => some .add
  | .sub => some .sub
  | .pass => some .pass
  | .none => some .pass
  | .rType => rTypeOp opcode

/-- The ALU's output: the result and the flag outputs (40_datapath.md R137). -/
structure AluOut where
  result : Word
  flags : Flags
  deriving DecidableEq, Repr

/-- The ALU (40_datapath.md R137 to R142). A shift's amount is `b[5:0]`. -/
def alu (op : AluOp) (a b : Word) : AluOut :=
  match op with
  | .add => ⟨a + b, addFlags a b⟩
  | .sub => ⟨a + ~~~b + 1, subFlags a b⟩
  | .and => ⟨a &&& b, logicFlags (a &&& b)⟩
  | .orr => ⟨a ||| b, logicFlags (a ||| b)⟩
  | .eor => ⟨a ^^^ b, logicFlags (a ^^^ b)⟩
  | .lsl => ⟨a <<< (b.setWidth 6).toNat, noFlags⟩
  | .lsr => ⟨a >>> (b.setWidth 6).toNat, noFlags⟩
  | .pass => ⟨b, noFlags⟩

/-! ## Operand routing -/

/-- RA1 (40_datapath.md R143). -/
def readAddr1 (d : DecodedFields) : RegIdx :=
  match d.kind with
  | .add | .adds | .sub | .subs | .and | .orr | .eor => d.rn
  | .lsl | .lsr => d.rn
  | .addi | .subi => d.rn
  | .movz => 31
  | .ldur | .ldursw | .ldurb => d.rn
  | .stur | .sturw | .sturb => d.rn
  | .cbz | .cbnz => 31
  | .bcond | .b | .halt => 31

/-- RA2 (40_datapath.md R143). -/
def readAddr2 (d : DecodedFields) : RegIdx :=
  match d.kind with
  | .add | .adds | .sub | .subs | .and | .orr | .eor => d.rm
  | .lsl | .lsr => 31
  | .addi | .subi => 31
  | .movz => 31
  | .ldur | .ldursw | .ldurb => 31
  | .stur | .sturw | .sturb => d.rt
  | .cbz | .cbnz => d.rt
  | .bcond | .b | .halt => 31

/-- WA, always `word[4:0]` (40_datapath.md R143). -/
def writeAddr (d : DecodedFields) : RegIdx := d.rd

/-- `Imm(d)` (40_datapath.md R144). -/
def immediate (d : DecodedFields) : Word :=
  match d.kind with
  | .addi | .subi => aluImm d.imm12
  | .ldur | .stur | .ldursw | .sturw | .ldurb | .sturb => dtAddr d.dt9
  | .lsl | .lsr => shAmt d.shamt
  | .movz => movImm d.imm16 d.hw
  | .add | .adds | .sub | .subs | .and | .orr | .eor => 0
  | .b | .bcond | .cbz | .cbnz | .halt => 0

/-- `Off(d)`, for the kinds that can be taken (40_datapath.md R151). -/
def offset (d : DecodedFields) : Word :=
  match d.kind with
  | .b => branchOff d.br26
  | _ => condBranchOff d.cbr19

/-- `CondHolds` of a `cond` field; 14 to 31 are no conditions and never reach it (43_branch.md R250). -/
def condFieldHolds (c : BitVec 5) (f : Flags) : Bool :=
  match Cond.ofCode c with
  | some cc => condHolds cc f
  | none => false

/-- The branch decision (40_datapath.md R150); `f` is the pre-step flags. -/
def taken (d : DecodedFields) (sig : ControlSignals) (res : Word) (f : Flags) : Bool :=
  if sig.uncondBranch then true
  else if !sig.branch then false
  else
    match d.kind with
    | .cbz => res == 0
    | .cbnz => res != 0
    | .bcond => condFieldHolds d.cond f
    | _ => false

end Sys2Proof.Machine
end

