-- ==== Sys2Proof/Machine/ArithLogic.lean ====
section
/-! DEFINITION. Arithmetic, logical, shift and move instructions (41_arith_logic.md). Each meaning is the rule's
pseudocode; sources are read before the destination is written (10_state.md R24). -/

namespace Sys2Proof.Machine

/-- The outcome type of every meaning. -/
abbrev StepOutcome := Host.Outcome State Fault Refusal

/-- The commit of a register result without flags: `x[d] <- r; pc <- pc + 4` (40_datapath.md R149). -/
def State.writeResult (s : State) (k : Kind) (rd : RegIdx) (r : Word) : State :=
  s.complete { s.goOn (controlRow k) r with dest := some (rd, r) }

/-- The commit of a register result with flags: `x[d] <- r; flags <- fl; pc <- pc + 4` (40_datapath.md R147). -/
def State.writeResultFlags (s : State) (k : Kind) (rd : RegIdx) (r : Word) (fl : Flags) : State :=
  s.complete { s.goOn (controlRow k) r with dest := some (rd, r), flags := some fl }

/-- ADD (41_arith_logic.md R180). -/
def execAdd (rd rn rm : RegIdx) (s : State) : StepOutcome :=
  .next (s.writeResult .add rd (s.reg rn + s.reg rm))

/-- ADDS (41_arith_logic.md R181). -/
def execAdds (rd rn rm : RegIdx) (s : State) : StepOutcome :=
  .next (s.writeResultFlags .adds rd (s.reg rn + s.reg rm) (addFlags (s.reg rn) (s.reg rm)))

/-- SUB (41_arith_logic.md R182). -/
def execSub (rd rn rm : RegIdx) (s : State) : StepOutcome :=
  .next (s.writeResult .sub rd (s.reg rn - s.reg rm))

/-- SUBS (41_arith_logic.md R183). -/
def execSubs (rd rn rm : RegIdx) (s : State) : StepOutcome :=
  .next (s.writeResultFlags .subs rd (s.reg rn - s.reg rm) (subFlags (s.reg rn) (s.reg rm)))

/-- AND (41_arith_logic.md R184). -/
def execAnd (rd rn rm : RegIdx) (s : State) : StepOutcome :=
  .next (s.writeResult .and rd (s.reg rn &&& s.reg rm))

/-- ORR (41_arith_logic.md R185). -/
def execOrr (rd rn rm : RegIdx) (s : State) : StepOutcome :=
  .next (s.writeResult .orr rd (s.reg rn ||| s.reg rm))

/-- EOR (41_arith_logic.md R186). -/
def execEor (rd rn rm : RegIdx) (s : State) : StepOutcome :=
  .next (s.writeResult .eor rd (s.reg rn ^^^ s.reg rm))

/-- LSL (41_arith_logic.md R187). -/
def execLsl (rd rn : RegIdx) (shamt : BitVec 6) (s : State) : StepOutcome :=
  .next (s.writeResult .lsl rd (s.reg rn <<< shamt.toNat))

/-- LSR, zeros entering at the top (41_arith_logic.md R188). -/
def execLsr (rd rn : RegIdx) (shamt : BitVec 6) (s : State) : StepOutcome :=
  .next (s.writeResult .lsr rd (s.reg rn >>> shamt.toNat))

/-- ADDI (41_arith_logic.md R189). -/
def execAddi (rd rn : RegIdx) (imm12 : BitVec 12) (s : State) : StepOutcome :=
  .next (s.writeResult .addi rd (s.reg rn + aluImm imm12))

/-- SUBI (41_arith_logic.md R190). -/
def execSubi (rd rn : RegIdx) (imm12 : BitVec 12) (s : State) : StepOutcome :=
  .next (s.writeResult .subi rd (s.reg rn - aluImm imm12))

/-- MOVZ (41_arith_logic.md R191). -/
def execMovz (rd : RegIdx) (imm16 : BitVec 16) (hw : BitVec 2) (s : State) : StepOutcome :=
  .next (s.writeResult .movz rd (movImm imm16 hw))

/-- CMP, SUBS with Rd = 31: the flags are written, the difference is discarded (41_arith_logic.md R192). -/
def execCmp (rn rm : RegIdx) (s : State) : StepOutcome :=
  .next (s.writeResultFlags .subs Config.xzr (s.reg rn - s.reg rm) (subFlags (s.reg rn) (s.reg rm)))

end Sys2Proof.Machine
end

