-- ==== Sys2Proof/Machine/LoadStore.lean ====
section
/-! DEFINITION. Load and store instructions (42_load_store.md). -/

namespace Sys2Proof.Machine

/-- LDUR (42_load_store.md R220). -/
def execLdur (rt rn : RegIdx) (dt9 : BitVec 9) (s : State) : StepOutcome :=
  .next (s.load (controlRow .ldur) 8 extDouble (s.effAddr rn dt9) rt)

/-- STUR (42_load_store.md R221). -/
def execStur (rt rn : RegIdx) (dt9 : BitVec 9) (s : State) : StepOutcome :=
  .next (s.store (controlRow .stur) 8 (s.effAddr rn dt9) (s.reg rt))

/-- LDURSW (42_load_store.md R222). -/
def execLdursw (rt rn : RegIdx) (dt9 : BitVec 9) (s : State) : StepOutcome :=
  .next (s.load (controlRow .ldursw) 4 extWordSigned (s.effAddr rn dt9) rt)

/-- STURW (42_load_store.md R223). -/
def execSturw (rt rn : RegIdx) (dt9 : BitVec 9) (s : State) : StepOutcome :=
  .next (s.store (controlRow .sturw) 4 (s.effAddr rn dt9) (s.reg rt))

/-- LDURB (42_load_store.md R224). -/
def execLdurb (rt rn : RegIdx) (dt9 : BitVec 9) (s : State) : StepOutcome :=
  .next (s.load (controlRow .ldurb) 1 extByte (s.effAddr rn dt9) rt)

/-- STURB (42_load_store.md R225). -/
def execSturb (rt rn : RegIdx) (dt9 : BitVec 9) (s : State) : StepOutcome :=
  .next (s.store (controlRow .sturb) 1 (s.effAddr rn dt9) (s.reg rt))

end Sys2Proof.Machine
end

