-- ==== Sys2Proof/Machine/Branch.lean ====
section
/-! DEFINITION. Branch instructions (43_branch.md). The ALU result in the observation is PASS of RD2: 0 for B and
B.cond, the tested register for CBZ and CBNZ (40_datapath.md R143, decision D18). -/

namespace Sys2Proof.Machine

/-- B (43_branch.md R251). -/
def execB (br26 : BitVec 26) (s : State) : StepOutcome :=
  .next (s.branch (controlRow .b) 0 true (branchOff br26))

/-- B.cond: taken iff the condition holds of the pre-step flags (43_branch.md R252). -/
def State.branchIf (s : State) (c : Cond) (cbr19 : BitVec 19) : State :=
  s.branch (controlRow .bcond) 0 (condHolds c s.flags) (condBranchOff cbr19)

/-- B.EQ, equal (43_branch.md R250, R252). -/
def execBEq (cbr19 : BitVec 19) (s : State) : StepOutcome := .next (s.branchIf .eq cbr19)

/-- B.NE, not equal (43_branch.md R250, R252). -/
def execBNe (cbr19 : BitVec 19) (s : State) : StepOutcome := .next (s.branchIf .ne cbr19)

/-- B.HS, unsigned higher or same (43_branch.md R250, R252). -/
def execBHs (cbr19 : BitVec 19) (s : State) : StepOutcome := .next (s.branchIf .hs cbr19)

/-- B.LO, unsigned lower (43_branch.md R250, R252). -/
def execBLo (cbr19 : BitVec 19) (s : State) : StepOutcome := .next (s.branchIf .lo cbr19)

/-- B.MI, negative (43_branch.md R250, R252). -/
def execBMi (cbr19 : BitVec 19) (s : State) : StepOutcome := .next (s.branchIf .mi cbr19)

/-- B.PL, positive or zero (43_branch.md R250, R252). -/
def execBPl (cbr19 : BitVec 19) (s : State) : StepOutcome := .next (s.branchIf .pl cbr19)

/-- B.VS, overflow (43_branch.md R250, R252). -/
def execBVs (cbr19 : BitVec 19) (s : State) : StepOutcome := .next (s.branchIf .vs cbr19)

/-- B.VC, no overflow (43_branch.md R250, R252). -/
def execBVc (cbr19 : BitVec 19) (s : State) : StepOutcome := .next (s.branchIf .vc cbr19)

/-- B.HI, unsigned higher (43_branch.md R250, R252). -/
def execBHi (cbr19 : BitVec 19) (s : State) : StepOutcome := .next (s.branchIf .hi cbr19)

/-- B.LS, unsigned lower or same (43_branch.md R250, R252). -/
def execBLs (cbr19 : BitVec 19) (s : State) : StepOutcome := .next (s.branchIf .ls cbr19)

/-- B.GE, signed greater or equal (43_branch.md R250, R252). -/
def execBGe (cbr19 : BitVec 19) (s : State) : StepOutcome := .next (s.branchIf .ge cbr19)

/-- B.LT, signed less than (43_branch.md R250, R252). -/
def execBLt (cbr19 : BitVec 19) (s : State) : StepOutcome := .next (s.branchIf .lt cbr19)

/-- B.GT, signed greater than (43_branch.md R250, R252). -/
def execBGt (cbr19 : BitVec 19) (s : State) : StepOutcome := .next (s.branchIf .gt cbr19)

/-- B.LE, signed less or equal (43_branch.md R250, R252). -/
def execBLe (cbr19 : BitVec 19) (s : State) : StepOutcome := .next (s.branchIf .le cbr19)

/-- CBZ (43_branch.md R253). -/
def execCbz (rt : RegIdx) (cbr19 : BitVec 19) (s : State) : StepOutcome :=
  .next (s.branch (controlRow .cbz) (s.reg rt) (s.reg rt == 0) (condBranchOff cbr19))

/-- CBNZ (43_branch.md R254). -/
def execCbnz (rt : RegIdx) (cbr19 : BitVec 19) (s : State) : StepOutcome :=
  .next (s.branch (controlRow .cbnz) (s.reg rt) (s.reg rt != 0) (condBranchOff cbr19))

end Sys2Proof.Machine
end

