-- ==== Sys2Proof/Machine/Halt.lean ====
section
/-! DEFINITION. HALT (44_halt.md). -/

namespace Sys2Proof.Machine

/-- HALT: halted and the observation; pc, registers, flags and memory keep their values (44_halt.md R270). -/
def execHalt (s : State) : StepOutcome := .next (s.haltStop (controlRow .halt))

end Sys2Proof.Machine
end

