-- ==== Sys2Proof/Machine/Dispatch.lean ====
section
/-! DEFINITION. The dispatch: one arm per instruction. -/

namespace Sys2Proof.Machine

/-- One instruction's effect on a state (40_datapath.md R152, from the decoded instruction on). -/
def exec (i : Instr) (s : State) : Host.Outcome State Fault Refusal :=
  match i with
  | .add rd rn rm => Sys2Proof.Machine.execAdd rd rn rm s
  | .adds rd rn rm => Sys2Proof.Machine.execAdds rd rn rm s
  | .sub rd rn rm => Sys2Proof.Machine.execSub rd rn rm s
  | .subs rd rn rm => Sys2Proof.Machine.execSubs rd rn rm s
  | .and rd rn rm => Sys2Proof.Machine.execAnd rd rn rm s
  | .orr rd rn rm => Sys2Proof.Machine.execOrr rd rn rm s
  | .eor rd rn rm => Sys2Proof.Machine.execEor rd rn rm s
  | .lsl rd rn shamt => Sys2Proof.Machine.execLsl rd rn shamt s
  | .lsr rd rn shamt => Sys2Proof.Machine.execLsr rd rn shamt s
  | .addi rd rn imm12 => Sys2Proof.Machine.execAddi rd rn imm12 s
  | .subi rd rn imm12 => Sys2Proof.Machine.execSubi rd rn imm12 s
  | .movz rd imm16 hw => Sys2Proof.Machine.execMovz rd imm16 hw s
  | .ldur rt rn dt9 => Sys2Proof.Machine.execLdur rt rn dt9 s
  | .stur rt rn dt9 => Sys2Proof.Machine.execStur rt rn dt9 s
  | .ldursw rt rn dt9 => Sys2Proof.Machine.execLdursw rt rn dt9 s
  | .sturw rt rn dt9 => Sys2Proof.Machine.execSturw rt rn dt9 s
  | .ldurb rt rn dt9 => Sys2Proof.Machine.execLdurb rt rn dt9 s
  | .sturb rt rn dt9 => Sys2Proof.Machine.execSturb rt rn dt9 s
  | .b br26 => Sys2Proof.Machine.execB br26 s
  | .bEq cbr19 => Sys2Proof.Machine.execBEq cbr19 s
  | .bNe cbr19 => Sys2Proof.Machine.execBNe cbr19 s
  | .bHs cbr19 => Sys2Proof.Machine.execBHs cbr19 s
  | .bLo cbr19 => Sys2Proof.Machine.execBLo cbr19 s
  | .bMi cbr19 => Sys2Proof.Machine.execBMi cbr19 s
  | .bPl cbr19 => Sys2Proof.Machine.execBPl cbr19 s
  | .bVs cbr19 => Sys2Proof.Machine.execBVs cbr19 s
  | .bVc cbr19 => Sys2Proof.Machine.execBVc cbr19 s
  | .bHi cbr19 => Sys2Proof.Machine.execBHi cbr19 s
  | .bLs cbr19 => Sys2Proof.Machine.execBLs cbr19 s
  | .bGe cbr19 => Sys2Proof.Machine.execBGe cbr19 s
  | .bLt cbr19 => Sys2Proof.Machine.execBLt cbr19 s
  | .bGt cbr19 => Sys2Proof.Machine.execBGt cbr19 s
  | .bLe cbr19 => Sys2Proof.Machine.execBLe cbr19 s
  | .cbz rt cbr19 => Sys2Proof.Machine.execCbz rt cbr19 s
  | .cbnz rt cbr19 => Sys2Proof.Machine.execCbnz rt cbr19 s
  | .halt => Sys2Proof.Machine.execHalt s
  | .cmp rn rm => Sys2Proof.Machine.execCmp rn rm s

end Sys2Proof.Machine
end

