-- ==== Sys2Proof/Machine/Step.lean ====
section
/-! DEFINITION. One step of the core (40_datapath.md R152, R153), and how a word is put where the step fetches. -/

namespace Sys2Proof.Machine

/-- One `step()`: nothing on a halted core (40_datapath.md R153); else fetch, decode and execute, taking `InvalidPC` or
`UnknownOpcode` where fetch or decode fails (R152, 60_exceptions.md R289). -/
def step (s : State) : Host.Outcome State Fault Refusal :=
  if s.halted then .next s
  else
    match s.fetched with
    | none => .next (s.takeFault .invalidPC none)
    | some w =>
      match decode w with
      | .error _ => .next (s.takeFault .unknownOpcode none)
      | .ok i => exec i s

/-- The state with the table's word `w` stored where `step` fetches next: in the program at pc (log entry 2). Nothing
else changes in a running core with an aligned pc. A halted core is made ready, as `load` and `reset` do
(70_reset_and_hazards.md R311, R312), and a pc that is no multiple of 4 (no run has one, 10_state.md R26) is aligned. -/
def State.withFetchWord (s : State) (nbits w : Nat) : State :=
  { s with
    pc := s.pc &&& ~~~3
    program := s.program.putWord (s.pc &&& ~~~3) (tableWord nbits w)
    halted := false
    fault := if s.halted then .none else s.fault
    lastObs := if s.halted then none else s.lastObs }

end Sys2Proof.Machine
end

