-- ==== Sys2Proof/Machine/Assembler.lean ====
section
/-! DEFINITION. The assembler's operand forms and encoding rules (30_encoding.md R111 to R121), on source already split
into tokens (Machine/Source.lean splits it). It is no part of the core (00_scope.md R4); it names instructions and makes
programs. -/

namespace Sys2Proof.Machine

/-- A register as source names it: `X<n>`, `XZR`, `SP` (30_encoding.md R111). -/
inductive RegName
  | x (n : Nat)
  | xzr
  | sp
  deriving DecidableEq, Repr

/-- A label identifier (30_encoding.md R110). -/
abbrev LabelName := List Char

/-- One operand (30_encoding.md R112, R115). -/
inductive Operand
  /-- A register. -/
  | reg (r : RegName)
  /-- `#<signed-int>`. -/
  | imm (i : Int)
  /-- `[Xn, #offset]`. -/
  | mem (base : RegName) (off : Int)
  /-- A branch target. -/
  | label (l : LabelName)
  /-- `LSL #s`, the third operand of MOVZ. -/
  | shift (s : Int)
  /-- A text that is no operand. -/
  | bad
  deriving DecidableEq, Repr

/-- A mnemonic: one of the 37 names of 30_encoding.md R115, or a spelling that is none of them. -/
inductive Mnemonic
  /-- The mnemonic of a kind; `plain .bcond` is the bare `B.cond`, which is no mnemonic. -/
  | plain (k : Kind)
  | bcond (c : Cond)
  | cmp
  | unknown
  deriving DecidableEq, Repr

/-- One source line, comments and blank lines gone: its 1-based number, the labels it defines, and its instruction if
it has one (30_encoding.md R110, conflict C2). -/
structure SourceLine where
  number : Nat
  labels : List LabelName
  stmt : Option (Mnemonic × List Operand)
  deriving DecidableEq, Repr

/-- The assembly errors (30_encoding.md R120). Safe: they never reach the core. -/
inductive AsmErrorKind
  /-- A label defined twice. -/
  | duplicateLabel
  /-- A branch to a label no line defines. -/
  | undefinedLabel
  /-- A mnemonic outside 30_encoding.md R115. -/
  | unknownMnemonic
  /-- A wrong number of operands. -/
  | operandCountMismatch
  /-- An immediate outside the ranges of 30_encoding.md R118. -/
  | immediateOutOfRange
  /-- An operand of a wrong form. -/
  | malformedOperand
  deriving DecidableEq, Repr

/-- An error carries its source line's number (30_encoding.md R120). -/
structure AsmError where
  kind : AsmErrorKind
  line : Nat
  deriving DecidableEq, Repr

/-- The labels bound so far, with their addresses (30_encoding.md R113). -/
abbrev LabelTable := List (LabelName × Nat)

/-! ## Operands -/

/-- The register number of a name: X0 to X30, XZR = 31, SP = 28 (30_encoding.md R111, 10_state.md R21). -/
def RegName.number : RegName → Except AsmErrorKind RegIdx
  | .x n => if n ≤ 30 then .ok (BitVec.ofNat 5 n) else .error .malformedOperand
  | .xzr => .ok Config.xzr
  | .sp => .ok Config.sp

/-- A register operand. -/
def Operand.toReg : Operand → Except AsmErrorKind RegIdx
  | .reg r => r.number
  | _ => .error .malformedOperand

/-- An immediate in a signed field of `n + 1` bits, in two's complement (30_encoding.md R118, R119). -/
def signedField (n : Nat) (i : Int) : Except AsmErrorKind (BitVec (n + 1)) :=
  if -(2 ^ n : Int) ≤ i ∧ i < 2 ^ n then .ok (BitVec.ofInt (n + 1) i) else .error .immediateOutOfRange

/-- An immediate in an unsigned field of `n` bits (30_encoding.md R118). -/
def unsignedField (n : Nat) (i : Int) : Except AsmErrorKind (BitVec n) :=
  if 0 ≤ i ∧ i < 2 ^ n then .ok (BitVec.ofInt n i) else .error .immediateOutOfRange

/-- An immediate operand. -/
def Operand.toImm : Operand → Except AsmErrorKind Int
  | .imm i => .ok i
  | _ => .error .malformedOperand

/-- MOVZ's shift, one of 0, 16, 32, 48, as `hw` (30_encoding.md R115, R118). -/
def Operand.toHw : Operand → Except AsmErrorKind (BitVec 2)
  | .shift s =>
    if s = 0 then .ok 0
    else if s = 16 then .ok 1
    else if s = 32 then .ok 2
    else if s = 48 then .ok 3
    else .error .immediateOutOfRange
  | _ => .error .malformedOperand

/-- The address a label is bound to. -/
def LabelTable.address (t : LabelTable) (l : LabelName) : Except AsmErrorKind Nat :=
  match t.find? fun e => e.1 == l with
  | some e => .ok e.2
  | none => .error .undefinedLabel

/-- The word offset from the branch at `addr` to a label, in a signed field of `n + 1` bits (30_encoding.md R113). -/
def Operand.toOffset (t : LabelTable) (addr n : Nat) : Operand → Except AsmErrorKind (BitVec (n + 1))
  | .label l =>
    match t.address l with
    | .ok target => signedField n (((target : Int) - addr) / 4)
    | .error e => .error e
  | _ => .error .malformedOperand

/-! ## One instruction -/

/-- `OP Xd, Xn, Xm` (30_encoding.md R115). -/
def asmThree (f : RegIdx → RegIdx → RegIdx → Instr) : List Operand → Except AsmErrorKind Instr
  | [d, n, m] => do
    let d ← d.toReg
    let n ← n.toReg
    let m ← m.toReg
    return f d n m
  | _ => .error .operandCountMismatch

/-- `OP Xd, Xn, #s` (30_encoding.md R115). -/
def asmShift (f : RegIdx → RegIdx → BitVec 6 → Instr) : List Operand → Except AsmErrorKind Instr
  | [d, n, s] => do
    let d ← d.toReg
    let n ← n.toReg
    let i ← s.toImm
    let s ← unsignedField 6 i
    return f d n s
  | _ => .error .operandCountMismatch

/-- `OP Xd, Xn, #i` (30_encoding.md R115). -/
def asmImm (f : RegIdx → RegIdx → BitVec 12 → Instr) : List Operand → Except AsmErrorKind Instr
  | [d, n, i] => do
    let d ← d.toReg
    let n ← n.toReg
    let i ← i.toImm
    let i ← signedField 11 i
    return f d n i
  | _ => .error .operandCountMismatch

/-- `MOVZ Xd, #i` and `MOVZ Xd, #i, LSL #s` (30_encoding.md R115). -/
def asmMovz : List Operand → Except AsmErrorKind Instr
  | [d, i] => do
    let d ← d.toReg
    let i ← i.toImm
    let i ← unsignedField 16 i
    return .movz d i 0
  | [d, i, s] => do
    let d ← d.toReg
    let i ← i.toImm
    let i ← unsignedField 16 i
    let hw ← s.toHw
    return .movz d i hw
  | _ => .error .operandCountMismatch

/-- `OP Xt, [Xn, #o]` (30_encoding.md R115). -/
def asmMem (f : RegIdx → RegIdx → BitVec 9 → Instr) : List Operand → Except AsmErrorKind Instr
  | [t, .mem base off] => do
    let t ← t.toReg
    let n ← base.number
    let o ← signedField 8 off
    return f t n o
  | [_, _] => .error .malformedOperand
  | _ => .error .operandCountMismatch

/-- `B.<cc> L` (30_encoding.md R115). -/
def asmCondBranch (t : LabelTable) (addr : Nat) (c : Cond) : List Operand → Except AsmErrorKind Instr
  | [l] => do
    let o ← l.toOffset t addr 18
    return .bCond c o
  | _ => .error .operandCountMismatch

/-- `CBZ Xt, L` and `CBNZ Xt, L` (30_encoding.md R115). -/
def asmCompareBranch (t : LabelTable) (addr : Nat) (f : RegIdx → BitVec 19 → Instr) :
    List Operand → Except AsmErrorKind Instr
  | [r, l] => do
    let r ← r.toReg
    let o ← l.toOffset t addr 18
    return f r o
  | _ => .error .operandCountMismatch

/-- `B L` (30_encoding.md R115). -/
def asmBranch (t : LabelTable) (addr : Nat) : List Operand → Except AsmErrorKind Instr
  | [l] => do
    let o ← l.toOffset t addr 25
    return .b o
  | _ => .error .operandCountMismatch

/-- `CMP Xn, Xm`, the one pseudo-instruction (30_encoding.md R116). -/
def asmCmp : List Operand → Except AsmErrorKind Instr
  | [n, m] => do
    let n ← n.toReg
    let m ← m.toReg
    return .cmp n m
  | _ => .error .operandCountMismatch

/-- `HALT` (30_encoding.md R115). -/
def asmHalt : List Operand → Except AsmErrorKind Instr
  | [] => .ok .halt
  | _ => .error .operandCountMismatch

/-- The instruction of a line at address `addr` (30_encoding.md R115, R116). -/
def asmStmt (t : LabelTable) (addr : Nat) (m : Mnemonic) (ops : List Operand) : Except AsmErrorKind Instr :=
  match m with
  | .plain .add => asmThree .add ops
  | .plain .adds => asmThree .adds ops
  | .plain .sub => asmThree .sub ops
  | .plain .subs => asmThree .subs ops
  | .plain .and => asmThree .and ops
  | .plain .orr => asmThree .orr ops
  | .plain .eor => asmThree .eor ops
  | .plain .lsl => asmShift .lsl ops
  | .plain .lsr => asmShift .lsr ops
  | .plain .addi => asmImm .addi ops
  | .plain .subi => asmImm .subi ops
  | .plain .movz => asmMovz ops
  | .plain .ldur => asmMem .ldur ops
  | .plain .stur => asmMem .stur ops
  | .plain .ldursw => asmMem .ldursw ops
  | .plain .sturw => asmMem .sturw ops
  | .plain .ldurb => asmMem .ldurb ops
  | .plain .sturb => asmMem .sturb ops
  | .plain .b => asmBranch t addr ops
  | .plain .bcond => .error .unknownMnemonic
  | .plain .cbz => asmCompareBranch t addr .cbz ops
  | .plain .cbnz => asmCompareBranch t addr .cbnz ops
  | .plain .halt => asmHalt ops
  | .bcond c => asmCondBranch t addr c ops
  | .cmp => asmCmp ops
  | .unknown => .error .unknownMnemonic

/-! ## The two passes -/

/-- Bind one line's labels to the current address; a label already bound is an error (30_encoding.md R113, R120). -/
def bindLabels (line addr : Nat) : List LabelName → LabelTable → LabelTable × List AsmError
  | [], t => (t, [])
  | l :: ls, t =>
    if t.any fun e => e.1 == l then
      ((bindLabels line addr ls t).1, ⟨.duplicateLabel, line⟩ :: (bindLabels line addr ls t).2)
    else bindLabels line addr ls ((l, addr) :: t)

/-- The address after a line: 4 more if it holds an instruction (30_encoding.md R114). -/
def SourceLine.next (l : SourceLine) (addr : Nat) : Nat := if l.stmt.isSome then addr + 4 else addr

/-- Pass 1: every label at the address of the next instruction slot (30_encoding.md R113, R114). -/
def pass1 : Nat → List SourceLine → LabelTable → LabelTable × List AsmError
  | _, [], t => (t, [])
  | addr, l :: ls, t =>
    let b := bindLabels l.number addr l.labels t
    let rest := pass1 (l.next addr) ls b.1
    (rest.1, b.2 ++ rest.2)

/-- Pass 2: every instruction's word at its address, or its error (30_encoding.md R113, R119). -/
def pass2 (t : LabelTable) : Nat → List SourceLine → List (Word × InstrWord) × List AsmError
  | _, [] => ([], [])
  | addr, l :: ls =>
    let rest := pass2 t (l.next addr) ls
    match l.stmt with
    | none => rest
    | some (m, ops) =>
      match asmStmt t addr m ops with
      | .ok i => ((BitVec.ofNat 64 addr, encode i) :: rest.1, rest.2)
      | .error k => (rest.1, ⟨k, l.number⟩ :: rest.2)

/-- `assemble`: a program from address 0, or the list of errors and no program (30_encoding.md R114, R120). -/
def assemble (src : List SourceLine) : Except (List AsmError) (List (Word × InstrWord)) :=
  let p1 := pass1 0 src []
  let p2 := pass2 p1.1 0 src
  if p1.2 ++ p2.2 = [] then .ok p2.1 else .error (p1.2 ++ p2.2)

end Sys2Proof.Machine
end

