-- ==== Sys2Proof/Machine/Source.lean ====
section
/-! DEFINITION. The assembler's line grammar (30_encoding.md R110 to R112): source text to the tokens of
Machine/Assembler.lean. It is no part of the core (00_scope.md R4). What R110 leaves open (letter case, white space
inside an operand, what an identifier is) is log entry 4. -/

namespace Sys2Proof.Machine

/-! ## Characters and pieces -/

/-- White space within a line. -/
def isSpace (c : Char) : Bool := c == ' ' || c == '\t' || c == '\r'

/-- White space stripped at both ends (30_encoding.md R110). -/
def trim (l : List Char) : List Char := ((l.dropWhile isSpace).reverse.dropWhile isSpace).reverse

/-- "Comment: `//` to end of line, stripped before parsing" (30_encoding.md R110). -/
def stripComment : List Char → List Char
  | [] => []
  | '/' :: '/' :: _ => []
  | c :: cs => c :: stripComment cs

/-- The pieces of a text between the separators `sep`. -/
def splitOn (sep : Char) : List Char → List (List Char)
  | [] => [[]]
  | c :: cs =>
    match splitOn sep cs with
    | [] => [[]]
    | p :: ps => if c == sep then [] :: p :: ps else (c :: p) :: ps

/-- The operands of a list `OPERAND[, OPERAND]*`; a comma inside `[ ]` separates none (30_encoding.md R110, R112). -/
def splitOperands : Bool → List Char → List (List Char)
  | _, [] => [[]]
  | inside, c :: cs =>
    match splitOperands (if c == '[' then true else if c == ']' then false else inside) cs with
    | [] => [[]]
    | p :: ps => if c == ',' && !inside then [] :: p :: ps else (c :: p) :: ps

/-- A decimal numeral. -/
def parseNat (l : List Char) : Option Nat :=
  if l.isEmpty || !l.all Char.isDigit then none
  else some (l.foldl (fun n c => 10 * n + (c.toNat - '0'.toNat)) 0)

/-- `#<signed-int>`: decimal, with an optional `-` (30_encoding.md R112). -/
def parseImm : List Char → Option Int
  | '#' :: '-' :: ds => (parseNat ds).map fun n => -(n : Int)
  | '#' :: ds => (parseNat ds).map fun n => (n : Int)
  | _ => none

/-- An identifier: a letter or `_`, then letters, digits and `_` (log entry 4). -/
def isIdent : List Char → Bool
  | [] => false
  | c :: cs => (c.isAlpha || c == '_') && cs.all fun d => d.isAlphanum || d == '_'

/-- A register's name (30_encoding.md R111). DESIGN CHOICE (log entry 4): a text spelled `X` and a decimal number without a
leading zero is read as a register at any number, so `X31` and `X99` are never branch targets; the number is checked with
the other operands, where above 30 it is malformedOperand. -/
def parseReg (l : List Char) : Option RegName :=
  if l = "XZR".toList then some .xzr
  else if l = "SP".toList then some .sp
  else
    match l with
    | 'X' :: ds => if ds.head? = some '0' && ds.length != 1 then none else (parseNat ds).map .x
    | _ => none

/-! ## Operands and lines -/

/-- `[Xn, #offset]` (30_encoding.md R112), the text between the brackets. -/
def parseMem (l : List Char) : Operand :=
  match splitOn ',' l with
  | [r, o] =>
    match parseReg (trim r), parseImm (trim o) with
    | some r, some o => .mem r o
    | _, _ => .bad
  | _ => .bad

/-- One operand (30_encoding.md R111, R112, R115). -/
def parseOperand (l : List Char) : Operand :=
  match parseReg l with
  | some r => .reg r
  | none =>
    match parseImm l with
    | some i => .imm i
    | none =>
      if isIdent l then .label l
      else
        match l with
        | '[' :: cs => if cs.getLast? = some ']' then parseMem cs.dropLast else .bad
        | 'L' :: 'S' :: 'L' :: c :: cs =>
          if isSpace c then
            match parseImm (trim cs) with
            | some s => .shift s
            | none => .bad
          else .bad
        | _ => .bad

/-- The mnemonics of 30_encoding.md R115, in upper case. -/
def mnemonicNames : List (String × Mnemonic) :=
  [ ("ADD", .plain .add), ("ADDS", .plain .adds), ("SUB", .plain .sub), ("SUBS", .plain .subs), ("AND", .plain .and),
    ("ORR", .plain .orr), ("EOR", .plain .eor), ("LSL", .plain .lsl), ("LSR", .plain .lsr), ("ADDI", .plain .addi),
    ("SUBI", .plain .subi), ("MOVZ", .plain .movz), ("LDUR", .plain .ldur), ("STUR", .plain .stur),
    ("LDURSW", .plain .ldursw), ("STURW", .plain .sturw), ("LDURB", .plain .ldurb), ("STURB", .plain .sturb),
    ("B", .plain .b), ("CBZ", .plain .cbz), ("CBNZ", .plain .cbnz), ("HALT", .plain .halt), ("CMP", .cmp) ] ++
  [ ("B.EQ", .bcond .eq), ("B.NE", .bcond .ne), ("B.HS", .bcond .hs), ("B.LO", .bcond .lo), ("B.MI", .bcond .mi),
    ("B.PL", .bcond .pl), ("B.VS", .bcond .vs), ("B.VC", .bcond .vc), ("B.HI", .bcond .hi), ("B.LS", .bcond .ls),
    ("B.GE", .bcond .ge), ("B.LT", .bcond .lt), ("B.GT", .bcond .gt), ("B.LE", .bcond .le) ]

/-- The mnemonic of a spelling. -/
def parseMnemonic (l : List Char) : Mnemonic :=
  match mnemonicNames.find? fun e => e.1.toList == l with
  | some e => e.2
  | none => .unknown

/-- `MNEMONIC OPERAND[, OPERAND]*` (30_encoding.md R110). -/
def parseInstr (l : List Char) : Mnemonic × List Operand :=
  let rest := trim (l.dropWhile fun c => !isSpace c)
  (parseMnemonic (l.takeWhile fun c => !isSpace c),
    if rest.isEmpty then [] else (splitOperands false rest).map fun o => parseOperand (trim o))

/-- Line `n`, none where it is blank: `IDENT:`, an instruction, or both (30_encoding.md R110, conflict C2). -/
def parseLine (n : Nat) (raw : List Char) : Option SourceLine :=
  let l := trim (stripComment raw)
  if l.isEmpty then none
  else
    let before := l.takeWhile (· != ':')
    let rest := trim (l.drop (before.length + 1))
    if before.length < l.length && isIdent (trim before) then
      some ⟨n, [trim before], if rest.isEmpty then none else some (parseInstr rest)⟩
    else some ⟨n, [], some (parseInstr l)⟩

/-- The lines from number `n` on; a blank line takes no address (30_encoding.md R110). -/
def parseLines : Nat → List (List Char) → List SourceLine
  | _, [] => []
  | n, l :: ls =>
    match parseLine n l with
    | some s => s :: parseLines (n + 1) ls
    | none => parseLines (n + 1) ls

/-- `assemble` of source text (30_encoding.md R110 to R121). -/
def assembleText (src : String) : Except (List AsmError) (List (Word × InstrWord)) :=
  assemble (parseLines 1 (splitOn '\n' src.toList))

end Sys2Proof.Machine
end

