-- ==== Sys2Proof/Machine/Datapath.lean ====
section
/-! DEFINITION. The step as the datapath computes it: fetch, decode, control unit, ALU control, ALU, memory stage,
writeback and next pc, in the words of 40_datapath.md R152. `step` (Machine/Step.lean) runs the per-instruction rules
instead; that the two agree is a statement (StepIsTheDatapath). -/

namespace Sys2Proof.Machine

/-- Steps 7 to 10 of 40_datapath.md R152: writeback, branch decision, next pc, commit. `wd` is the write data. -/
def State.datapathCommit (s : State) (d : DecodedFields) (sig : ControlSignals) (out : AluOut) (access : Option Word)
    (dmem : Option Memory) (wd : Word) : State :=
  s.complete
    { signals := sig
      aluResult := out.result
      access := access
      dest := if sig.regWrite then some (writeAddr d, wd) else none
      flags := some (if sig.flagWrite then out.flags else s.flags)
      dmem := dmem
      nextPc := if taken d sig out.result s.flags then s.pc + offset d else s.pc + 4 }

/-- Step 6 of 40_datapath.md R152, the memory stage (R148), and the commit after it. -/
def State.datapathMemory (s : State) (d : DecodedFields) (sig : ControlSignals) (out : AluOut) (rd2 : Word) : State :=
  if sig.memRead || sig.memWrite then
    match s.accessFault out.result (memWidth d.kind) with
    | some k => s.takeFault k (some (sig, out.result))
    | none =>
      s.datapathCommit d sig out (some out.result)
        (if sig.memWrite then some (memWrite s.dmem out.result.toNat (memWidth d.kind) rd2) else none)
        (if sig.memToReg then loadExtend d.kind (memRead s.dmem out.result.toNat (memWidth d.kind)) else out.result)
  else s.datapathCommit d sig out none none out.result

/-- Steps 3 to 5 of 40_datapath.md R152: read the registers, select the ALU's B input, run the ALU (R143 to R146). -/
def State.datapathExecute (s : State) (d : DecodedFields) (sig : ControlSignals) (op : AluOp) : State :=
  let rd2 := s.reg (readAddr2 d)
  let b := if sig.aluSrc then immediate d else rd2
  s.datapathMemory d sig (alu op (s.reg (readAddr1 d)) b) rd2

/-- One step of the datapath (40_datapath.md R152, R153). The control unit and ALU control raise UnknownOpcode where
they have no entry (R133, R136). -/
def datapathStep (s : State) : State :=
  if s.halted then s
  else
    match s.fetched with
    | none => s.takeFault .invalidPC none
    | some w =>
      match decodeFields w with
      | .error _ => s.takeFault .unknownOpcode none
      | .ok d =>
        match controlUnit d.format d.opcode with
        | none => s.takeFault .unknownOpcode none
        | some sig =>
          if sig.halt then s.haltStop sig
          else
            match aluControl sig.aluOp d.opcode with
            | none => s.takeFault .unknownOpcode none
            | some op => s.datapathExecute d sig op

end Sys2Proof.Machine
end

