-- ==== Sys2Proof/Machine/HostOps.lean ====
section
/-! DEFINITION. The host's operations (70_reset_and_hazards.md R310 to R318). A core that has not been loaded has no
state (R318), so the core is an `Option State` here. An operation answers the core after it and a reply; a refused
one leaves the core unchanged. -/

namespace Sys2Proof.Machine

/-- Why the host is refused (93_implementation_defined.md I10). Safe: nothing changes. -/
inductive HostError
  /-- Raised by every operation but `load` before the first `load` (70_reset_and_hazards.md R318). -/
  | noProgramLoaded
  /-- Raised by `load` of a program whose addresses are not contiguous multiples of 4 (R311). -/
  | malformedProgram
  /-- Raised by `get_register` outside 0..31 (R315). -/
  | noSuchRegister
  /-- Raised by `get_memory` outside 0..MEM_SIZE-1 (R316). -/
  | noSuchAddress
  /-- Raised if a step were refused by the model; no instruction is. -/
  | stepRefused
  deriving DecidableEq, Repr

/-- The core after a host operation, and its reply. -/
abbrev HostResult (α : Type) := Option State × Except HostError α

/-! ## load and reset -/

/-- Put an entry into a list of program entries by rising address. -/
def insertEntry (e : Word × InstrWord) : List (Word × InstrWord) → List (Word × InstrWord)
  | [] => [e]
  | f :: l => if e.1.toNat ≤ f.1.toNat then e :: f :: l else f :: insertEntry e l

/-- The entries by rising address: `Program` is an ordered mapping (10_state.md R34). -/
def sortEntries : List (Word × InstrWord) → List (Word × InstrWord)
  | [] => []
  | e :: l => insertEntry e (sortEntries l)

/-- The addresses are `next`, `next + 4`, and so on, taken without wrap (10_state.md R34). -/
def contiguousFrom : Nat → List (Word × InstrWord) → Bool
  | _, [] => true
  | next, e :: l => e.1.toNat == next && contiguousFrom (next + 4) l

/-- The program of a map from addresses to words, none where the addresses are not contiguous multiples of 4
(70_reset_and_hazards.md R311). -/
def Program.ofEntries (es : List (Word × InstrWord)) : Option Program :=
  match sortEntries es with
  | [] => some .empty
  | e :: l =>
    if e.1.toNat % 4 = 0 ∧ contiguousFrom e.1.toNat (e :: l) then some ⟨e.1, (e :: l).map (·.2)⟩ else none

/-- The state after `load(P)` with MEM_SIZE = `size` (70_reset_and_hazards.md R311, R319). -/
def State.loaded (size : Nat) (p : Program) : State where
  pc := p.loadAddr
  x := Vector.replicate 31 0
  flags := .clear
  halted := false
  fault := .none
  lastObs := none
  memSize := size
  dmem := []
  program := p

/-- The state after `reset()`: the program and data memory are kept (70_reset_and_hazards.md R312, R319). -/
def State.afterReset (s : State) : State :=
  { s with
    pc := s.program.loadAddr
    x := Vector.replicate 31 0
    flags := .clear
    halted := false
    fault := .none
    lastObs := none }

/-- `load(P)` on a core whose MEM_SIZE is `size` (70_reset_and_hazards.md R311); a malformed P is refused and leaves
the core unchanged (decision D20). -/
def hostLoad (size : Nat) (es : List (Word × InstrWord)) (core : Option State) : HostResult Unit :=
  match Program.ofEntries es with
  | some p => (some (.loaded size p), .ok ())
  | none => (core, .error .malformedProgram)

/-- `reset()` (70_reset_and_hazards.md R312). -/
def hostReset : Option State → HostResult Unit
  | some s => (some s.afterReset, .ok ())
  | none => (none, .error .noProgramLoaded)

/-! ## step and the bounded run -/

/-- `step()`, which returns the observation of the state it leaves (70_reset_and_hazards.md R313, 40_datapath.md R153).
The observation is None only in a halted state that no run has (R153). -/
def hostStep : Option State → HostResult (Option StepObservation)
  | none => (none, .error .noProgramLoaded)
  | some s =>
    match step s with
    | .next t => (some t, .ok t.lastObs)
    | .fault _ => (some s, .error .stepRefused)
    | .refused _ => (some s, .error .stepRefused)

/-- The state and the observations in order of at most `n` steps, none taken once halted (70_reset_and_hazards.md
R314). -/
def runSteps : Nat → State → State × List (Option StepObservation)
  | 0, s => (s, [])
  | n + 1, s =>
    if s.halted then (s, [])
    else
      match step s with
      | .next t => ((runSteps n t).1, t.lastObs :: (runSteps n t).2)
      | .fault _ => (s, [])
      | .refused _ => (s, [])

/-- `run(N)` (70_reset_and_hazards.md R314). -/
def hostRun (n : Nat) : Option State → HostResult (List (Option StepObservation))
  | none => (none, .error .noProgramLoaded)
  | some s => (some (runSteps n s).1, .ok (runSteps n s).2)

/-! ## The reads -/

/-- `get_register(i)`: the signed reading of `x[i]` (70_reset_and_hazards.md R315). -/
def hostGetRegister (i : Int) (core : Option State) : HostResult Int :=
  match core with
  | none => (core, .error .noProgramLoaded)
  | some s =>
    if 0 ≤ i ∧ i ≤ 31 then (core, .ok (s.reg (BitVec.ofInt 5 i)).toInt) else (core, .error .noSuchRegister)

/-- `get_memory(a)` (70_reset_and_hazards.md R316). -/
def hostGetMemory (a : Int) (core : Option State) : HostResult Byte :=
  match core with
  | none => (core, .error .noProgramLoaded)
  | some s => if 0 ≤ a ∧ a < s.memSize then (core, .ok (s.byte a.toNat)) else (core, .error .noSuchAddress)

/-- `get_flags()` (70_reset_and_hazards.md R317). -/
def hostGetFlags (core : Option State) : HostResult Flags :=
  match core with
  | none => (core, .error .noProgramLoaded)
  | some s => (core, .ok s.flags)

/-- `is_halted()` (70_reset_and_hazards.md R317). -/
def hostIsHalted (core : Option State) : HostResult Bool :=
  match core with
  | none => (core, .error .noProgramLoaded)
  | some s => (core, .ok s.halted)

end Sys2Proof.Machine
end

