-- ==== Sys2Proof/Safety.lean ====
section
/-! DEFINITION. The terms the statements use: what a transition keeps and changes, what a safe run is, and the
invariant of the states a loaded core reaches. -/

namespace Sys2Proof.Machine

/-! ## What a transition keeps -/

/-- Every register reads as before. -/
def SameRegs (s t : State) : Prop := ∀ r, t.reg r = s.reg r

/-- The register write `x[rd] <- v` and nothing else: discarded for register 31, which reads 0 (10_state.md R23). -/
def WritesReg (s t : State) (rd : RegIdx) (v : Word) : Prop :=
  t.reg rd = (if rd = Config.xzr then 0 else v) ∧ ∀ r, r ≠ rd → t.reg r = s.reg r

/-- Every byte of data memory reads as before. -/
def SameMem (s t : State) : Prop := ∀ a, t.byte a = s.byte a

/-- The `n` bytes at `addr` are the low bytes of `v`, least significant first, and every other byte reads as before
(20_memory.md R54). -/
def WritesMem (s t : State) (addr n : Nat) (v : Word) : Prop :=
  (∀ k, k < n → t.byte (addr + k) = v.extractLsb' (8 * k) 8) ∧
    ∀ a, ¬(addr ≤ a ∧ a < addr + n) → t.byte a = s.byte a

/-- The run state, MEM_SIZE and the program are kept. -/
def SameRunState (s t : State) : Prop :=
  t.halted = s.halted ∧ t.fault = s.fault ∧ t.memSize = s.memSize ∧ t.program = s.program

/-- The `n` bytes at `addr`, little-endian (20_memory.md R53), as a number. -/
def State.bytesAt (s : State) (addr : Nat) : Nat → Nat
  | 0 => 0
  | n + 1 => (s.byte addr).toNat + 256 * s.bytesAt (addr + 1) n

/-- The observation of a completed step, column by column of the row "normal" of 40_datapath.md R155. -/
def CompletedObs (s t : State) (sig : ControlSignals) (res : Word) (access : Option Word) (rd : Option RegIdx)
    (o : StepObservation) : Prop :=
  o.pcBefore = s.pc ∧ o.nextPc = t.pc ∧ o.raw = s.fetched ∧ o.signals = some sig ∧ o.aluResult = some res ∧
    o.memAddr = access ∧ o.memRead = (access.isSome && sig.memRead) ∧ o.memWrite = (access.isSome && sig.memWrite) ∧
    (match rd with
      | some r => if r = Config.xzr then o.regWritten = none ∧ o.regValue = none
          else o.regWritten = some r ∧ o.regValue = some (t.reg r)
      | none => o.regWritten = none ∧ o.regValue = none) ∧
    o.flagsAfter = t.flags ∧ o.halted = false ∧ o.fault = .none

/-- The observation of a fault, the rows of 40_datapath.md R155: `attempt` is the signals and address of the attempted
access, present for the two memory faults alone. -/
def FaultedObs (s : State) (k : FaultKind) (attempt : Option (ControlSignals × Word)) (o : StepObservation) : Prop :=
  o.pcBefore = s.pc ∧ o.nextPc = s.pc ∧ o.raw = s.fetched ∧ o.signals = attempt.map (·.1) ∧
    o.aluResult = attempt.map (·.2) ∧ o.memAddr = attempt.map (·.2) ∧
    o.memRead = ((attempt.map (·.1.memRead)).getD false) ∧ o.memWrite = ((attempt.map (·.1.memWrite)).getD false) ∧
    o.regWritten = none ∧ o.regValue = none ∧ o.flagsAfter = s.flags ∧ o.halted = true ∧ o.fault = k

/-! ## The shapes of an instruction's effect -/

/-- A register result `v` in `rd` and the flags `fl`: the whole next state of a register-only instruction. -/
def RegisterForm (i : Instr) (s t : State) (rd : RegIdx) (v : Word) (fl : Flags) : Prop :=
  WritesReg s t rd v ∧ t.flags = fl ∧ t.pc = s.pc + 4 ∧ SameMem s t ∧ SameRunState s t ∧
    ∃ o, t.lastObs = some o ∧ CompletedObs s t (controlRow i.kind) v none (some rd) o

/-- A load of `v` from `addr` into `rt`: the whole next state. -/
def LoadForm (i : Instr) (s t : State) (rt : RegIdx) (addr v : Word) : Prop :=
  WritesReg s t rt v ∧ t.flags = s.flags ∧ t.pc = s.pc + 4 ∧ SameMem s t ∧ SameRunState s t ∧
    ∃ o, t.lastObs = some o ∧ CompletedObs s t (controlRow i.kind) addr (some addr) (some rt) o

/-- A store of the low `n` bytes of `v` to `addr`: the whole next state. -/
def StoreForm (i : Instr) (s t : State) (addr : Word) (n : Nat) (v : Word) : Prop :=
  WritesMem s t addr.toNat n v ∧ SameRegs s t ∧ t.flags = s.flags ∧ t.pc = s.pc + 4 ∧ SameRunState s t ∧
    ∃ o, t.lastObs = some o ∧ CompletedObs s t (controlRow i.kind) addr (some addr) none o

/-- A branch to `target` with ALU result `res`: the whole next state. -/
def BranchForm (i : Instr) (s t : State) (res target : Word) : Prop :=
  t.pc = target ∧ SameRegs s t ∧ t.flags = s.flags ∧ SameMem s t ∧ SameRunState s t ∧
    ∃ o, t.lastObs = some o ∧ CompletedObs s t (controlRow i.kind) res none none o

/-- A fault `k` taken: halted, fault and last_obs are written and nothing else (60_exceptions.md R287). -/
def FaultForm (s t : State) (k : FaultKind) (attempt : Option (ControlSignals × Word)) : Prop :=
  ∃ o, FaultedObs s k attempt o ∧ t = { s with halted := true, fault := k, lastObs := some o }

/-- The words of `pattern` under `mask` decode to the instruction `f` reads from them (30_encoding.md R88). -/
def DecodesAs (pattern mask : InstrWord) (f : InstrWord → Instr) : Prop :=
  ∀ w, w &&& mask = pattern → decode w = .ok (f w)

/-- A load of `n` bytes completes wherever its address is aligned and in range, with the value `val` of those bytes. -/
def LoadCompletes (mk : RegIdx → RegIdx → BitVec 9 → Instr) (n : Nat) (val : Nat → Word) : Prop :=
  ∀ rt rn dt9 s, (s.effAddr rn dt9).toNat % n = 0 → (s.effAddr rn dt9).toNat + n ≤ s.memSize →
    ∃ t, exec (mk rt rn dt9) s = .next t ∧
      LoadForm (mk rt rn dt9) s t rt (s.effAddr rn dt9) (val (s.bytesAt (s.effAddr rn dt9).toNat n))

/-- A store of `n` bytes of `x[t]` completes wherever its address is aligned and in range. -/
def StoreCompletes (mk : RegIdx → RegIdx → BitVec 9 → Instr) (n : Nat) : Prop :=
  ∀ rt rn dt9 s, (s.effAddr rn dt9).toNat % n = 0 → (s.effAddr rn dt9).toNat + n ≤ s.memSize →
    ∃ t, exec (mk rt rn dt9) s = .next t ∧ StoreForm (mk rt rn dt9) s t (s.effAddr rn dt9) n (s.reg rt)

/-- An `n`-byte access at a misaligned address takes AlignmentFault, in range or not (60_exceptions.md R284). -/
def MisalignedFaults (mk : RegIdx → RegIdx → BitVec 9 → Instr) (n : Nat) : Prop :=
  ∀ rt rn dt9 s, (s.effAddr rn dt9).toNat % n ≠ 0 →
    ∃ t, exec (mk rt rn dt9) s = .next t ∧
      FaultForm s t .alignmentFault (some (controlRow (mk rt rn dt9).kind, s.effAddr rn dt9))

/-- An aligned `n`-byte access past MEM_SIZE takes MemoryBoundsFault (60_exceptions.md R285). -/
def PastMemSizeFaults (mk : RegIdx → RegIdx → BitVec 9 → Instr) (n : Nat) : Prop :=
  ∀ rt rn dt9 s, (s.effAddr rn dt9).toNat % n = 0 → s.memSize < (s.effAddr rn dt9).toNat + n →
    ∃ t, exec (mk rt rn dt9) s = .next t ∧
      FaultForm s t .memoryBoundsFault (some (controlRow (mk rt rn dt9).kind, s.effAddr rn dt9))

/-! ## Readings of the spec's words -/

/-- The exact sum or difference `z` does not fit in 64 signed bits (40_datapath.md R138, R139: signed overflow). -/
def signedOverflow (z : Int) : Bool := decide (z < -(2 ^ 63) ∨ 2 ^ 63 ≤ z)

/-- The address `d` words from `pc`, modulo 2^64 (10_state.md R27). -/
def wordsFrom (pc : Word) (d : Int) : Word := BitVec.ofInt 64 (pc.toInt + 4 * d)

/-- The column "holds iff" of the table of 43_branch.md R250. -/
def CondTable : Cond → Flags → Prop
  | .eq, f => f.z = true
  | .ne, f => f.z = false
  | .hs, f => f.c = true
  | .lo, f => f.c = false
  | .mi, f => f.n = true
  | .pl, f => f.n = false
  | .vs, f => f.v = true
  | .vc, f => f.v = false
  | .hi, f => f.c = true ∧ f.z = false
  | .ls, f => ¬(f.c = true ∧ f.z = false)
  | .ge, f => f.n = f.v
  | .lt, f => f.n ≠ f.v
  | .gt, f => f.z = false ∧ f.n = f.v
  | .le, f => ¬(f.z = false ∧ f.n = f.v)

/-- The base, offset and width of an instruction's data access, if it makes one (20_memory.md R52, R219). -/
def dataAccess : Instr → Option (RegIdx × BitVec 9 × Nat)
  | .ldur _ rn dt9 => some (rn, dt9, 8)
  | .stur _ rn dt9 => some (rn, dt9, 8)
  | .ldursw _ rn dt9 => some (rn, dt9, 4)
  | .sturw _ rn dt9 => some (rn, dt9, 4)
  | .ldurb _ rn dt9 => some (rn, dt9, 1)
  | .sturb _ rn dt9 => some (rn, dt9, 1)
  | _ => none

/-- The instruction a running core executes next, if fetch and decode succeed. -/
def Executes (s : State) (i : Instr) : Prop := ∃ w, s.fetched = some w ∧ decode w = .ok i

/-- The entries of a program at contiguous addresses from `a` (10_state.md R34). -/
def entriesFrom (a : Nat) : List InstrWord → List (Word × InstrWord)
  | [] => []
  | w :: ws => (BitVec.ofNat 64 a, w) :: entriesFrom (a + 4) ws

/-- `es`, in any order, are the entries of the words `ws` at contiguous multiples of 4 from `base` (10_state.md R34). -/
def IsProgram (es : List (Word × InstrWord)) (base : Nat) (ws : List InstrWord) : Prop :=
  base % 4 = 0 ∧ base + 4 * ws.length ≤ 2 ^ 64 ∧ es.Perm (entriesFrom base ws)

/-- An immediate `i` is accepted exactly for `lo <= i <= hi`, as the instruction `mk v` whose field `v` has the value
`i`; else the line is ImmediateOutOfRange (30_encoding.md R118). -/
def ChecksRange {n : Nat} (asm : Int → Except AsmErrorKind Instr) (mk : BitVec n → Instr) (val : BitVec n → Int)
    (lo hi : Int) : Prop :=
  ∀ i, (lo ≤ i ∧ i ≤ hi → ∃ v, asm i = .ok (mk v) ∧ val v = i) ∧
    (¬(lo ≤ i ∧ i ≤ hi) → asm i = .error .immediateOutOfRange)

/-- A word offset `i` is accepted exactly for `lo <= i <= hi`, as the instruction `mk v` whose field `v` has the value
`i`; else the line is ImmediateOutOfRange (30_encoding.md R118). -/
def ChecksOffset {n : Nat} (asm : Except AsmErrorKind Instr) (mk : BitVec n → Instr) (i lo hi : Int) : Prop :=
  (lo ≤ i ∧ i ≤ hi → ∃ v, asm = .ok (mk v) ∧ v.toInt = i) ∧
    (¬(lo ≤ i ∧ i ≤ hi) → asm = .error .immediateOutOfRange)

/-! ## Runs -/

/-- `n` steps lead from `s` to `t`. -/
def StepsTo : Nat → State → State → Prop
  | 0, s, t => t = s
  | n + 1, s, t => ∃ u, step s = .next u ∧ StepsTo n u t

/-- The core has not faulted (60_exceptions.md R281). -/
def State.safe (s : State) : Prop := s.fault = .none

/-- `n` steps from `s` meet no fault. -/
def SafeRun (n : Nat) (s : State) : Prop := (runSteps n s).1.safe

/-! ## The invariant -/

/-- The stored observation describes the state it was made in (10_state.md R32, 40_datapath.md R155). -/
def ObsMatches (s : State) (o : StepObservation) : Prop :=
  o.nextPc = s.pc ∧ o.flagsAfter = s.flags ∧ o.halted = s.halted ∧ o.fault = s.fault ∧
    ∀ r, o.regWritten = some r → r ≠ Config.xzr ∧ o.regValue = some (s.reg r)

/-- What holds of every state a loaded core reaches. -/
structure State.Inv (s : State) : Prop where
  /-- MEM_SIZE is in its range (00_scope.md R6). -/
  memSize_ok : Config.memSizeOk s.memSize
  /-- Data memory has its canonical form. -/
  dmem_wf : s.dmem.wf = true
  /-- Data memory lies in 0..MEM_SIZE-1 (20_memory.md R50). -/
  dmem_below : s.dmem.below s.memSize = true
  /-- The program's addresses are multiples of 4 that do not wrap (10_state.md R34). -/
  program_wf : s.program.wf = true
  /-- pc is a multiple of 4 (10_state.md R26). -/
  pc_aligned : s.pc.toNat % 4 = 0
  /-- A running core has no fault (10_state.md R30, R31). -/
  running_no_fault : s.halted = false → s.fault = .none
  /-- A halted core has an observation (40_datapath.md R153). -/
  halted_has_obs : s.halted = true → s.lastObs.isSome = true
  /-- The last observation describes this state. -/
  obs_matches : ∀ o, s.lastObs = some o → ObsMatches s o

end Sys2Proof.Machine
end

