-- ==== Sys2Proof/Certificates/Slice0/Obligations.lean ====
section
/-! DEFINITION. The statements for the provers. Each docstring names the rule of spec/ it formalises. An instruction's
statement gives its encoding, its whole next state and so its frame; it holds for every operand, register 31 included. -/

open Sys2Proof Sys2Proof.Machine

/-! ## Decoding and encoding -/

/-- Words written out in 95_test_vectors.md V10 and P1 to P4 decode to the instructions they stand for. -/
def Obligations.DecodesWrittenOutWords : Prop :=
  decode 0x91003FE1 = .ok (.addi 1 31 15) ∧ decode 0x8B020C41 = .ok (.add 1 2 2) ∧
    decode 0xEB02003F = .ok (.cmp 1 2) ∧ decode 0xD36FFC41 = .ok (.lsl 1 2 63) ∧
    decode 0xF8008383 = .ok (.stur 3 28 8) ∧ decode 0xF85F8C25 = .ok (.ldur 5 1 0x1F8) ∧
    decode 0xD2B7DDE3 = .ok (.movz 3 48879 1) ∧ decode 0x17FFFFFF = .ok (.b 0x3FFFFFF) ∧
    decode 0x5400000D = .ok (.bLe 0) ∧ decode 0xB5FFFFC1 = .ok (.cbnz 1 0x7FFFE) ∧
    decode 0xFFFFFFFF = .ok .halt ∧ decode 0x00000000 = .error .unknownOpcode ∧
    decode 0x5400000E = .error .unknownOpcode ∧ decode 0x8B200000 = .error .unknownOpcode

/-- 30_encoding.md R89: each pair of rows differs in a bit both masks cover; no word matches two rows; so the order of the
rows does not matter. -/
def Obligations.OpcodeRowsAreDisjoint : Prop :=
  (opcodeMap.Pairwise fun r₁ r₂ => ∃ k, r₁.mask.getLsbD k = true ∧ r₂.mask.getLsbD k = true ∧
    r₁.pattern.getLsbD k ≠ r₂.pattern.getLsbD k) ∧
  (∀ w r₁ r₂, r₁ ∈ opcodeMap → r₂ ∈ opcodeMap → r₁.matches w = true → r₂.matches w = true → r₁ = r₂) ∧
    ∀ l : List OpRow, l.Perm opcodeMap → ∀ w, l.find? (·.matches w) = opcodeMap.find? (·.matches w)

/-- 30_encoding.md R95: exactly the words that match no row are UnknownOpcode. -/
def Obligations.UnknownOpcodeIffNoRowMatches : Prop :=
  ∀ w, decode w = .error .unknownOpcode ↔ ∀ r ∈ opcodeMap, r.matches w = false

/-- 30_encoding.md R96: a B.cond word's `cond` field selects one of the 14 conditions, or the word is UnknownOpcode and
matches no row. -/
def Obligations.BcondConditionField : Prop :=
  ∀ w, slice w 24 8 = 0x54 →
    (∀ c : Cond, slice w 0 5 = c.code → decode w = .ok (.bCond c (slice w 5 19))) ∧
      ((slice w 0 5).toNat < 14 → ∃ c : Cond, slice w 0 5 = c.code) ∧
      (14 ≤ (slice w 0 5).toNat → (∀ r ∈ opcodeMap, r.matches w = false) ∧ decode w = .error .unknownOpcode)

/-- 30_encoding.md R93: the ignored bits do not change what a word decodes to, and the encoder writes them 0. -/
def Obligations.IgnoredBitsDoNotMatter : Prop :=
  (∀ w v i, decode w = .ok i → w &&& examinedBits i.kind = v &&& examinedBits i.kind → decode v = .ok i) ∧
    ∀ i, encode i &&& ~~~examinedBits i.kind = 0

/-- 30_encoding.md R119: decoding the word of a well-formed instruction gives it back, with every operand (well-formed:
log entry 3). -/
def Obligations.DecodeOfEncodeIsIdentity : Prop :=
  ∀ i : Instr, i.wellFormed = true → decode (encode i) = .ok i

/-- 30_encoding.md R92, R119: what a word decodes to encodes to the word's examined bits, so no examined bit is dropped.
That it is well formed, a SUBS word with Rd = 31 being named cmp, is the model's choice of names (log entry 3). -/
def Obligations.EncodeOfDecodeKeepsExaminedBits : Prop :=
  ∀ w i, decode w = .ok i → i.wellFormed = true ∧ encode i = w &&& examinedBits i.kind

/-! ## The step -/

/-- A running core whose fetched word decodes to an instruction executes it (40_datapath.md R152). -/
def Obligations.StepRunsTheDecodedInstruction : Prop :=
  ∀ s i, s.halted = false → Executes s i → step s = exec i s

/-- 40_datapath.md R152: the per-instruction rules and the datapath (decoder, control unit, ALU control, ALU, routing,
memory stage, writeback, next pc, observation) compute the same next state, for every state. -/
def Obligations.StepIsTheDatapath : Prop :=
  ∀ s, step s = .next (datapathStep s)

/-- 40_datapath.md R153: a step on a halted core changes nothing and returns last_obs, which a core that meets the
invariant has. -/
def Obligations.HaltedStepChangesNothing : Prop :=
  ∀ s, s.halted = true →
    step s = .next s ∧ hostStep (some s) = (some s, .ok s.lastObs) ∧ (s.Inv → s.lastObs.isSome = true)

/-! ## Reset and the invariant -/

/-- The values State.reset has: those of 70_reset_and_hazards.md R319 for a core loaded with the empty program. That the
program is empty is the model's choice (log entry 2). MEM_SIZE's value is not stated (log entry 1). -/
def Obligations.ResetValues : Prop :=
  State.reset.pc = 0 ∧ (∀ r, State.reset.reg r = 0) ∧ State.reset.flags = ⟨false, false, false, false⟩ ∧
    State.reset.halted = false ∧ State.reset.fault = .none ∧ State.reset.lastObs = none ∧
    (∀ a, State.reset.byte a = 0) ∧ ∀ a, State.reset.program.fetch a = none

/-- The invariant holds at reset. State.reset's MEM_SIZE and its empty program are the model's choices (log entries 1
and 2). -/
def Obligations.ResetMeetsTheInvariant : Prop := State.reset.Inv

/-- Every step keeps the invariant: MEM_SIZE in range, memory canonical and inside 0..MEM_SIZE-1, the program's addresses
contiguous multiples of 4, pc a multiple of 4, no fault while running, the observation describing the state. The
memory's canonical form is the model's (log entry 5). -/
def Obligations.StepKeepsTheInvariant : Prop :=
  ∀ s t, s.Inv → step s = .next t → t.Inv

/-! ## Register instructions -/

/-- 40_datapath.md R132, R133, R136 (most cells of the table are the spec's own, decision D18): after a successful decode
the control unit has an entry, the row of the table of R132 (its columns written out), and ALU control has an
operation. -/
def Obligations.ControlTable : Prop :=
  (∀ w d, decodeFields w = .ok d →
    controlUnit d.format d.opcode = some (controlRow d.kind) ∧
      ∃ op, aluControl (controlRow d.kind).aluOp d.opcode = some op) ∧
  (∀ k, (controlRow k).regWrite = true ↔ k ∉ [.stur, .sturw, .sturb, .cbz, .cbnz, .bcond, .b, .halt]) ∧
  (∀ k, (controlRow k).aluSrc = true ↔
    k ∈ [.lsl, .lsr, .addi, .subi, .movz, .ldur, .ldursw, .ldurb, .stur, .sturw, .sturb]) ∧
  (∀ k, (controlRow k).memRead = true ↔ k ∈ [.ldur, .ldursw, .ldurb]) ∧
  (∀ k, (controlRow k).memWrite = true ↔ k ∈ [.stur, .sturw, .sturb]) ∧
  (∀ k, (controlRow k).memToReg = true ↔ k ∈ [.ldur, .ldursw, .ldurb]) ∧
  (∀ k, (controlRow k).branch = true ↔ k ∈ [.cbz, .cbnz, .bcond]) ∧
  (∀ k, (controlRow k).uncondBranch = true ↔ k = .b) ∧
  (∀ k, (controlRow k).flagWrite = true ↔ k = .adds ∨ k = .subs) ∧
  (∀ k, (controlRow k).halt = true ↔ k = .halt) ∧
  (∀ k, (controlRow k).aluOp = .add ↔ k ∈ [.addi, .ldur, .ldursw, .ldurb, .stur, .sturw, .sturb]) ∧
  (∀ k, (controlRow k).aluOp = .sub ↔ k = .subi) ∧
  (∀ k, (controlRow k).aluOp = .pass ↔ k ∈ [.movz, .cbz, .cbnz]) ∧
  ∀ k, (controlRow k).aluOp = .none ↔ k ∈ [.bcond, .b, .halt]

/-- 41_arith_logic.md R180, R182: ADD and SUB. -/
def Obligations.AddAndSub : Prop :=
  DecodesAs 0x8B000000 0xFFE00000 (fun w => .add (slice w 0 5) (slice w 5 5) (slice w 16 5)) ∧
    DecodesAs 0xCB000000 0xFFE00000 (fun w => .sub (slice w 0 5) (slice w 5 5) (slice w 16 5)) ∧
    ∀ rd rn rm s,
      (∃ t, exec (.add rd rn rm) s = .next t ∧
        RegisterForm (.add rd rn rm) s t rd (BitVec.ofInt 64 ((s.reg rn).toInt + (s.reg rm).toInt)) s.flags) ∧
      ∃ t, exec (.sub rd rn rm) s = .next t ∧
        RegisterForm (.sub rd rn rm) s t rd (BitVec.ofInt 64 ((s.reg rn).toInt - (s.reg rm).toInt)) s.flags

/-- 41_arith_logic.md R181: ADDS, with C the carry out of bit 63 and V the signed overflow. -/
def Obligations.AddsSetsFlags : Prop :=
  DecodesAs 0xAB000000 0xFFE00000 (fun w => .adds (slice w 0 5) (slice w 5 5) (slice w 16 5)) ∧
    ∀ rd rn rm s, ∃ t, exec (.adds rd rn rm) s = .next t ∧
      RegisterForm (.adds rd rn rm) s t rd (s.reg rn + s.reg rm)
        ⟨decide ((s.reg rn + s.reg rm).toInt < 0), decide (s.reg rn + s.reg rm = 0),
          decide (2 ^ 64 ≤ (s.reg rn).toNat + (s.reg rm).toNat),
          signedOverflow ((s.reg rn).toInt + (s.reg rm).toInt)⟩

/-- 41_arith_logic.md R183: SUBS, with C the carry (no borrow) and V the signed overflow. A word with Rd = 31 is named
`cmp`, the model's choice (log entry 3). -/
def Obligations.SubsSetsFlags : Prop :=
  DecodesAs 0xEB000000 0xFFE00000 (fun w => if slice w 0 5 = 31 then .cmp (slice w 5 5) (slice w 16 5)
      else .subs (slice w 0 5) (slice w 5 5) (slice w 16 5)) ∧
    ∀ rd rn rm s, ∃ t, exec (.subs rd rn rm) s = .next t ∧
      RegisterForm (.subs rd rn rm) s t rd (s.reg rn - s.reg rm)
        ⟨decide ((s.reg rn - s.reg rm).toInt < 0), decide (s.reg rn = s.reg rm),
          decide ((s.reg rm).toNat ≤ (s.reg rn).toNat), signedOverflow ((s.reg rn).toInt - (s.reg rm).toInt)⟩

/-- 41_arith_logic.md R192: CMP is exactly SUBS with Rd = 31: the same words, the same effect; the flags are written and
no register changes. That CMP has a constructor is the model's choice (log entry 3). -/
def Obligations.CmpIsSubsToXzr : Prop :=
  DecodesAs 0xEB00001F 0xFFE0001F (fun w => .cmp (slice w 5 5) (slice w 16 5)) ∧
    ∀ rn rm s, encode (.cmp rn rm) = encode (.subs 31 rn rm) ∧ exec (.cmp rn rm) s = exec (.subs 31 rn rm) s ∧
      ∃ t, exec (.cmp rn rm) s = .next t ∧ SameRegs s t ∧
        RegisterForm (.cmp rn rm) s t 31 (s.reg rn - s.reg rm)
          ⟨decide ((s.reg rn - s.reg rm).toInt < 0), decide (s.reg rn = s.reg rm),
            decide ((s.reg rm).toNat ≤ (s.reg rn).toNat), signedOverflow ((s.reg rn).toInt - (s.reg rm).toInt)⟩

/-- 41_arith_logic.md R184, R185, R186: AND, ORR and EOR, bit by bit. -/
def Obligations.LogicalInstructions : Prop :=
  DecodesAs 0x8A000000 0xFFE00000 (fun w => .and (slice w 0 5) (slice w 5 5) (slice w 16 5)) ∧
    DecodesAs 0xAA000000 0xFFE00000 (fun w => .orr (slice w 0 5) (slice w 5 5) (slice w 16 5)) ∧
    DecodesAs 0xCA000000 0xFFE00000 (fun w => .eor (slice w 0 5) (slice w 5 5) (slice w 16 5)) ∧
    ∀ rd rn rm s,
      (∃ t v, exec (.and rd rn rm) s = .next t ∧ RegisterForm (.and rd rn rm) s t rd v s.flags ∧
        ∀ k, v.getLsbD k = ((s.reg rn).getLsbD k && (s.reg rm).getLsbD k)) ∧
      (∃ t v, exec (.orr rd rn rm) s = .next t ∧ RegisterForm (.orr rd rn rm) s t rd v s.flags ∧
        ∀ k, v.getLsbD k = ((s.reg rn).getLsbD k || (s.reg rm).getLsbD k)) ∧
      ∃ t v, exec (.eor rd rn rm) s = .next t ∧ RegisterForm (.eor rd rn rm) s t rd v s.flags ∧
        ∀ k, v.getLsbD k = ((s.reg rn).getLsbD k ^^ (s.reg rm).getLsbD k)

/-- 41_arith_logic.md R187, R188: LSL multiplies by a power of two modulo 2^64, LSR divides the unsigned value. -/
def Obligations.ShiftInstructions : Prop :=
  DecodesAs 0xD3600000 0xFFE00000 (fun w => .lsl (slice w 0 5) (slice w 5 5) (slice w 10 6)) ∧
    DecodesAs 0xD3400000 0xFFE00000 (fun w => .lsr (slice w 0 5) (slice w 5 5) (slice w 10 6)) ∧
    ∀ rd rn sh s,
      (∃ t, exec (.lsl rd rn sh) s = .next t ∧
        RegisterForm (.lsl rd rn sh) s t rd (BitVec.ofNat 64 ((s.reg rn).toNat * 2 ^ sh.toNat)) s.flags) ∧
      ∃ t, exec (.lsr rd rn sh) s = .next t ∧
        RegisterForm (.lsr rd rn sh) s t rd (BitVec.ofNat 64 ((s.reg rn).toNat / 2 ^ sh.toNat)) s.flags

/-- 41_arith_logic.md R189, R190: ADDI and SUBI with the signed value of imm12. -/
def Obligations.AddiAndSubi : Prop :=
  DecodesAs 0x91000000 0xFFC00000 (fun w => .addi (slice w 0 5) (slice w 5 5) (slice w 10 12)) ∧
    DecodesAs 0xD1000000 0xFFC00000 (fun w => .subi (slice w 0 5) (slice w 5 5) (slice w 10 12)) ∧
    ∀ rd rn (imm : BitVec 12) s,
      (∃ t, exec (.addi rd rn imm) s = .next t ∧
        RegisterForm (.addi rd rn imm) s t rd (BitVec.ofInt 64 ((s.reg rn).toInt + imm.toInt)) s.flags) ∧
      ∃ t, exec (.subi rd rn imm) s = .next t ∧
        RegisterForm (.subi rd rn imm) s t rd (BitVec.ofInt 64 ((s.reg rn).toInt - imm.toInt)) s.flags

/-- 41_arith_logic.md R191: MOVZ puts imm16 at bit 16 * hw, every other bit 0. -/
def Obligations.MovzPlacesTheImmediate : Prop :=
  DecodesAs 0xD2800000 0xFF800000 (fun w => .movz (slice w 0 5) (slice w 5 16) (slice w 21 2)) ∧
    ∀ rd (imm : BitVec 16) (hw : BitVec 2) s, ∃ t, exec (.movz rd imm hw) s = .next t ∧
      RegisterForm (.movz rd imm hw) s t rd (BitVec.ofNat 64 (imm.toNat * 2 ^ (16 * hw.toNat))) s.flags

/-- 40_datapath.md R138 to R142: the eight operations of the ALU, results and flag outputs. The spec marks SUB's carry and
the shifts' and PASS's flag outputs as its own choices (decisions D14, D15). -/
def Obligations.AluOperations : Prop :=
  ∀ a b : Word,
    ((alu .add a b).result = a + b ∧ (alu .add a b).flags = ⟨(a + b).msb, decide (a + b = 0),
      decide (2 ^ 64 ≤ a.toNat + b.toNat), signedOverflow (a.toInt + b.toInt)⟩) ∧
    ((alu .sub a b).result = a - b ∧ (alu .sub a b).flags = ⟨(a - b).msb, decide (a = b),
      decide (b.toNat ≤ a.toNat), signedOverflow (a.toInt - b.toInt)⟩) ∧
    alu .and a b = ⟨a &&& b, ⟨a.msb && b.msb, decide (a &&& b = 0), false, false⟩⟩ ∧
    alu .orr a b = ⟨a ||| b, ⟨a.msb || b.msb, decide (a = 0 ∧ b = 0), false, false⟩⟩ ∧
    alu .eor a b = ⟨a ^^^ b, ⟨a.msb != b.msb, decide (a = b), false, false⟩⟩ ∧
    alu .lsl a b = ⟨BitVec.ofNat 64 (a.toNat * 2 ^ (b.toNat % 64)), ⟨false, false, false, false⟩⟩ ∧
    alu .lsr a b = ⟨BitVec.ofNat 64 (a.toNat / 2 ^ (b.toNat % 64)), ⟨false, false, false, false⟩⟩ ∧
    alu .pass a b = ⟨b, ⟨false, false, false, false⟩⟩

/-! ## Loads and stores -/

/-- 42_load_store.md R219: the effective address, modulo 2^64, with the offset signed and not scaled. -/
def Obligations.EffectiveAddress : Prop :=
  ∀ (s : State) rn (dt9 : BitVec 9),
    ((s.effAddr rn dt9).toNat : Int) = ((s.reg rn).toNat + dt9.toInt) % 2 ^ 64 ∧ -256 ≤ dt9.toInt ∧ dt9.toInt ≤ 255

/-- 42_load_store.md R220: LDUR. -/
def Obligations.LdurLoadsADoubleword : Prop :=
  DecodesAs 0xF8400000 0xFFE00000 (fun w => .ldur (slice w 0 5) (slice w 5 5) (slice w 12 9)) ∧
    LoadCompletes .ldur 8 (fun v => BitVec.ofNat 64 v) ∧ MisalignedFaults .ldur 8 ∧ PastMemSizeFaults .ldur 8

/-- 42_load_store.md R221: STUR. -/
def Obligations.SturStoresADoubleword : Prop :=
  DecodesAs 0xF8000000 0xFFE00000 (fun w => .stur (slice w 0 5) (slice w 5 5) (slice w 12 9)) ∧
    StoreCompletes .stur 8 ∧ MisalignedFaults .stur 8 ∧ PastMemSizeFaults .stur 8

/-- 42_load_store.md R222: LDURSW, sign-extended. -/
def Obligations.LdurswLoadsASignedWord : Prop :=
  DecodesAs 0xB8800000 0xFFE00000 (fun w => .ldursw (slice w 0 5) (slice w 5 5) (slice w 12 9)) ∧
    LoadCompletes .ldursw 4 (fun v => BitVec.ofInt 64 (BitVec.ofNat 32 v).toInt) ∧ MisalignedFaults .ldursw 4 ∧
    PastMemSizeFaults .ldursw 4

/-- 42_load_store.md R223: STURW. -/
def Obligations.SturwStoresAWord : Prop :=
  DecodesAs 0xB8000000 0xFFE00000 (fun w => .sturw (slice w 0 5) (slice w 5 5) (slice w 12 9)) ∧
    StoreCompletes .sturw 4 ∧ MisalignedFaults .sturw 4 ∧ PastMemSizeFaults .sturw 4

/-- 42_load_store.md R224: LDURB, zero-extended; a byte access is never misaligned. -/
def Obligations.LdurbLoadsAByte : Prop :=
  DecodesAs 0x38400000 0xFFE00000 (fun w => .ldurb (slice w 0 5) (slice w 5 5) (slice w 12 9)) ∧
    LoadCompletes .ldurb 1 (fun v => BitVec.ofNat 64 v) ∧ PastMemSizeFaults .ldurb 1

/-- 42_load_store.md R225: STURB; a byte access is never misaligned. -/
def Obligations.SturbStoresAByte : Prop :=
  DecodesAs 0x38000000 0xFFE00000 (fun w => .sturb (slice w 0 5) (slice w 5 5) (slice w 12 9)) ∧
    StoreCompletes .sturb 1 ∧ PastMemSizeFaults .sturb 1

/-- 20_memory.md R56 to R58: which accesses are aligned, and the order of the two checks; with MEM_SIZE = 2^64 no access
is past it (R58). -/
def Obligations.AccessChecks : Prop :=
  ∀ (s : State) (addr : Word),
    s.accessFault addr 1 ≠ some .alignmentFault ∧
      (s.accessFault addr 4 = some .alignmentFault ↔ addr.extractLsb' 0 2 ≠ 0) ∧
      (s.accessFault addr 8 = some .alignmentFault ↔ addr.extractLsb' 0 3 ≠ 0) ∧
      ∀ n, n = 1 ∨ n = 4 ∨ n = 8 →
        (s.accessFault addr n = some .alignmentFault ↔ addr.toNat % n ≠ 0) ∧
          (s.accessFault addr n = some .memoryBoundsFault ↔ addr.toNat % n = 0 ∧ s.memSize < addr.toNat + n) ∧
          (s.accessFault addr n = none ↔ addr.toNat % n = 0 ∧ addr.toNat + n ≤ s.memSize) ∧
          (s.memSize = 2 ^ 64 → s.accessFault addr n ≠ some .memoryBoundsFault)

/-- 20_memory.md R64 and 95_test_vectors.md E3: a doubleword stored and loaded again from the same address is the value
stored, in every register but 31. -/
def Obligations.LoadAfterStoreReturnsTheValue : Prop :=
  ∀ rt rt' rn dt9 s t u, (s.effAddr rn dt9).toNat % 8 = 0 → (s.effAddr rn dt9).toNat + 8 ≤ s.memSize →
    exec (.stur rt rn dt9) s = .next t → exec (.ldur rt' rn dt9) t = .next u → rt' ≠ 31 → u.reg rt' = s.reg rt

/-- 20_memory.md R55: accesses of different widths see the same bytes. -/
def Obligations.MixedWidthsSeeBytes : Prop :=
  ∀ (m : Memory) (a : Nat) (v : Word),
    memRead (memWrite m a 8 v) a 8 = v ∧
      (∀ k, k < 8 → memRead (memWrite m a 8 v) (a + k) 1 = (v >>> (8 * k)) &&& 0xFF) ∧
      memRead (memWrite m a 8 v) a 4 = v &&& 0xFFFFFFFF ∧ memRead (memWrite m a 8 v) (a + 4) 4 = v >>> 32 ∧
      ∀ k, k < 8 → ∀ b : Byte,
        memRead (memWrite (memWrite m a 8 v) (a + k) 1 (b.setWidth 64)) a 8 =
          (v &&& ~~~((0xFF : Word) <<< (8 * k))) ||| (b.setWidth 64 <<< (8 * k))

/-- Two memories in canonical form that read the same at every address are the same data; it rests on the canonical form
the model chose (log entry 5). -/
def Obligations.EqualBytesAreEqualMemories : Prop :=
  ∀ m₁ m₂ : Memory, m₁.wf = true → m₂.wf = true → (∀ a, m₁.get a = m₂.get a) → m₁ = m₂

/-! ## Branches and HALT -/

/-- 43_branch.md R251: B, relative to the branch's own address. -/
def Obligations.BranchGoesToItsTarget : Prop :=
  DecodesAs 0x14000000 0xFC000000 (fun w => .b (slice w 0 26)) ∧
    ∀ (off : BitVec 26) s, ∃ t, exec (.b off) s = .next t ∧ BranchForm (.b off) s t 0 (wordsFrom s.pc off.toInt)

/-- 43_branch.md R250, R252: the fourteen conditional branches, each with its word for the number 0 to 13 that R250 gives
its condition; taken exactly where the table of R250 says, and going on to the next instruction elsewhere. -/
def Obligations.ConditionalBranches : Prop :=
  ∀ p ∈ [((0x54000000 : InstrWord), Instr.bEq, Cond.eq), (0x54000001, Instr.bNe, Cond.ne), (0x54000002, Instr.bHs, Cond.hs),
      (0x54000003, Instr.bLo, Cond.lo), (0x54000004, Instr.bMi, Cond.mi), (0x54000005, Instr.bPl, Cond.pl),
      (0x54000006, Instr.bVs, Cond.vs), (0x54000007, Instr.bVc, Cond.vc), (0x54000008, Instr.bHi, Cond.hi),
      (0x54000009, Instr.bLs, Cond.ls), (0x5400000A, Instr.bGe, Cond.ge), (0x5400000B, Instr.bLt, Cond.lt),
      (0x5400000C, Instr.bGt, Cond.gt), (0x5400000D, Instr.bLe, Cond.le)],
    DecodesAs p.1 0xFF00001F (fun w => p.2.1 (slice w 5 19)) ∧
      ∀ (off : BitVec 19) s, ∃ t, exec (p.2.1 off) s = .next t ∧
        (CondTable p.2.2 s.flags → BranchForm (p.2.1 off) s t 0 (wordsFrom s.pc off.toInt)) ∧
        (¬CondTable p.2.2 s.flags → BranchForm (p.2.1 off) s t 0 (wordsFrom s.pc 1))

/-- 43_branch.md R253, R254: CBZ is taken exactly where the register is zero, CBNZ exactly where it is not. -/
def Obligations.CompareAndBranch : Prop :=
  DecodesAs 0xB4000000 0xFF000000 (fun w => .cbz (slice w 0 5) (slice w 5 19)) ∧
    DecodesAs 0xB5000000 0xFF000000 (fun w => .cbnz (slice w 0 5) (slice w 5 19)) ∧
    ∀ rt (off : BitVec 19) s,
      (∃ t, exec (.cbz rt off) s = .next t ∧
        BranchForm (.cbz rt off) s t (s.reg rt) (wordsFrom s.pc (if s.reg rt = 0 then off.toInt else 1))) ∧
      ∃ t, exec (.cbnz rt off) s = .next t ∧
        BranchForm (.cbnz rt off) s t (s.reg rt) (wordsFrom s.pc (if s.reg rt = 0 then 1 else off.toInt))

/-- 43_branch.md R250: after CMP the conditions compare the operands, unsigned (HS, LO, HI, LS) and signed (GE, LT, GT,
LE). -/
def Obligations.CompareThenConditionOrdersOperands : Prop :=
  ∀ rn rm s t, exec (.cmp rn rm) s = .next t →
    (condHolds .eq t.flags = true ↔ s.reg rn = s.reg rm) ∧
      (condHolds .ne t.flags = true ↔ s.reg rn ≠ s.reg rm) ∧
      (condHolds .hs t.flags = true ↔ (s.reg rm).toNat ≤ (s.reg rn).toNat) ∧
      (condHolds .lo t.flags = true ↔ (s.reg rn).toNat < (s.reg rm).toNat) ∧
      (condHolds .hi t.flags = true ↔ (s.reg rm).toNat < (s.reg rn).toNat) ∧
      (condHolds .ls t.flags = true ↔ (s.reg rn).toNat ≤ (s.reg rm).toNat) ∧
      (condHolds .ge t.flags = true ↔ (s.reg rm).toInt ≤ (s.reg rn).toInt) ∧
      (condHolds .lt t.flags = true ↔ (s.reg rn).toInt < (s.reg rm).toInt) ∧
      (condHolds .gt t.flags = true ↔ (s.reg rm).toInt < (s.reg rn).toInt) ∧
      (condHolds .le t.flags = true ↔ (s.reg rn).toInt ≤ (s.reg rm).toInt)

/-- 44_halt.md R270: HALT sets halted and keeps pc, registers, flags, memory and fault; its observation is the HALT row
of 40_datapath.md R155; every step after it changes nothing. -/
def Obligations.HaltStopsTheCore : Prop :=
  DecodesAs 0xFFE00000 0xFFE00000 (fun _ => .halt) ∧
    ∀ s, ∃ t o, exec .halt s = .next t ∧ t = { s with halted := true, lastObs := some o } ∧
      o = { pcBefore := s.pc, nextPc := s.pc, raw := s.fetched,
            signals := some ⟨false, false, false, false, false, false, false, false, .none, true⟩, aluResult := none,
            memAddr := none, memRead := false, memWrite := false, regWritten := none, regValue := none,
            flagsAfter := s.flags, halted := true, fault := .none } ∧
      ∀ n u, StepsTo n t u ↔ u = t

/-! ## Faults -/

/-- 20_memory.md R62, 60_exceptions.md R283: a running core fetches the whole word its program has at pc; where pc is no
address of the program, a misaligned pc among them, it takes InvalidPC, and a further step changes nothing. -/
def Obligations.FetchReadsTheProgramOrFaults : Prop :=
  ∀ s, s.halted = false →
    (∀ k w, s.pc.toNat % 4 = 0 → s.pc.toNat = s.program.base.toNat + 4 * k → s.program.words[k]? = some w →
      s.fetched = some w) ∧
    (¬(s.pc.toNat % 4 = 0 ∧ ∃ k, k < s.program.words.length ∧ s.pc.toNat = s.program.base.toNat + 4 * k) →
      s.fetched = none ∧ ∃ t, step s = .next t ∧ FaultForm s t .invalidPC none ∧ step t = .next t)

/-- 60_exceptions.md R282: a running core whose fetched word is no instruction takes UnknownOpcode, recorded with the
word, and a further step changes nothing. -/
def Obligations.UndefinedWordFaults : Prop :=
  ∀ s w, s.halted = false → s.fetched = some w → (∀ r ∈ opcodeMap, r.matches w = false) →
    ∃ t, step s = .next t ∧ FaultForm s t .unknownOpcode none ∧ step t = .next t

/-- 60_exceptions.md R287: a step that faults commits halted, fault and last_obs and nothing else; the observation is the
fault's row of 40_datapath.md R155, with the signals and address of the attempted access for the two memory faults. -/
def Obligations.FaultEntryChangesNothingElse : Prop :=
  ∀ s t, s.halted = false → s.fault = .none → step s = .next t → t.fault ≠ .none →
    ((t.fault = .invalidPC ∨ t.fault = .unknownOpcode) ∧ FaultForm s t t.fault none) ∨
      ((t.fault = .alignmentFault ∨ t.fault = .memoryBoundsFault) ∧
        ∃ i rn dt9 n, Executes s i ∧ dataAccess i = some (rn, dt9, n) ∧
          FaultForm s t t.fault (some (controlRow i.kind, s.effAddr rn dt9)))

/-- 60_exceptions.md R289: which fault a step reports, in the fixed order of the stages; at most one, and none with
HALT. -/
def Obligations.FaultPriority : Prop :=
  ∀ s t, s.halted = false → s.fault = .none → step s = .next t →
    (s.fetched = none → t.fault = .invalidPC) ∧
      (∀ w, s.fetched = some w → decode w = .error .unknownOpcode → t.fault = .unknownOpcode) ∧
      ∀ i, Executes s i →
        (dataAccess i = none → t.fault = .none) ∧
          (i = .halt → t.halted = true ∧ t.fault = .none) ∧
          ∀ rn dt9 n, dataAccess i = some (rn, dt9, n) →
            ((s.effAddr rn dt9).toNat % n ≠ 0 → t.fault = .alignmentFault) ∧
              ((s.effAddr rn dt9).toNat % n = 0 → s.memSize < (s.effAddr rn dt9).toNat + n →
                t.fault = .memoryBoundsFault) ∧
              ((s.effAddr rn dt9).toNat % n = 0 → (s.effAddr rn dt9).toNat + n ≤ s.memSize → t.fault = .none)

/-! ## The whole machine -/

/-- 10_state.md R29: only ADDS and SUBS (CMP among them) change the flags. -/
def Obligations.OnlyAddsAndSubsChangeFlags : Prop :=
  ∀ s t, step s = .next t → t.flags ≠ s.flags → ∃ i, Executes s i ∧ (i.kind = .adds ∨ i.kind = .subs)

/-- 10_state.md R29: the flags are read only by B.cond: any other instruction has the same effect on pc, registers,
memory, halted and fault whatever they are. -/
def Obligations.OnlyBcondReadsFlags : Prop :=
  ∀ i s f t, i.kind ≠ .bcond → exec i s = .next t →
    ∃ u, exec i { s with flags := f } = .next u ∧ u.pc = t.pc ∧ u.x = t.x ∧ u.dmem = t.dmem ∧ u.halted = t.halted ∧
      u.fault = t.fault

/-- 10_state.md R24 and 40_datapath.md R143: a step changes at most one register, the one numbered by word[4:0], which
is not 31. -/
def Obligations.AtMostOneRegisterChanges : Prop :=
  ∀ s t r, step s = .next t → t.reg r ≠ s.reg r → r ≠ 31 ∧ ∃ w, s.fetched = some w ∧ r = slice w 0 5

/-- 20_memory.md R60: only stores change data memory, and only the bytes they store to. -/
def Obligations.OnlyStoresChangeMemory : Prop :=
  ∀ s t a, step s = .next t → t.byte a ≠ s.byte a →
    ∃ i rn dt9 n, Executes s i ∧ (i.kind = .stur ∨ i.kind = .sturw ∨ i.kind = .sturb) ∧
      dataAccess i = some (rn, dt9, n) ∧ (s.effAddr rn dt9).toNat ≤ a ∧ a < (s.effAddr rn dt9).toNat + n

/-- 20_memory.md R63: no step changes the program; nor MEM_SIZE, which is a field of the model's state (log entry 1). -/
def Obligations.StepKeepsProgramAndMemSize : Prop :=
  ∀ s t, step s = .next t → t.program = s.program ∧ t.memSize = s.memSize

/-- 10_state.md R30: a step halts a running core only by HALT or a fault, and never clears halted. -/
def Obligations.OnlyHaltAndFaultsHalt : Prop :=
  ∀ s t, step s = .next t →
    (s.halted = true → t.halted = true) ∧
      (s.halted = false → t.halted = true → (Executes s .halt ∧ t.fault = s.fault) ∨ t.fault ≠ .none)

/-- 40_datapath.md R154, R155, 60_exceptions.md R281, R297 and 70_reset_and_hazards.md R313: the host's step answers the
observation of the step, and on a running core that observation says what the step did: addresses, word, flags, halt and
fault with its code, the register changed and its value, the data access and its address, and the memory changed. The
codes 0 to 4 are the spec's own (decision D33). -/
def Obligations.ObservationDescribesTheStep : Prop :=
  (∀ s t, step s = .next t → hostStep (some s) = (some t, .ok t.lastObs)) ∧
  (∀ k : FaultKind, (k, k.code) ∈
    [(.none, 0), (.unknownOpcode, 1), (.invalidPC, 2), (.alignmentFault, 3), (.memoryBoundsFault, 4)]) ∧
  ∀ s t, s.halted = false → s.fault = .none → step s = .next t →
    ∃ o, t.lastObs = some o ∧ o.pcBefore = s.pc ∧ o.nextPc = t.pc ∧ o.raw = s.fetched ∧ o.flagsAfter = t.flags ∧
      o.halted = t.halted ∧ o.fault = t.fault ∧ t.faultCode = t.fault.code ∧ o.faultCode = t.faultCode ∧
      (∀ r, t.reg r ≠ s.reg r → o.regWritten = some r ∧ o.regValue = some (t.reg r)) ∧
      (∀ i rn dt9 n, Executes s i → dataAccess i = some (rn, dt9, n) →
        o.memAddr = some (s.effAddr rn dt9) ∧
          (o.memRead = true ↔ i.kind ∈ [.ldur, .ldursw, .ldurb]) ∧
          (o.memWrite = true ↔ i.kind ∈ [.stur, .sturw, .sturb])) ∧
      ((∀ i, Executes s i → dataAccess i = none) → o.memAddr = none ∧ o.memRead = false ∧ o.memWrite = false) ∧
      ((∃ a, t.byte a ≠ s.byte a) → o.memWrite = true ∧
        ∃ i rn dt9 n, Executes s i ∧ dataAccess i = some (rn, dt9, n) ∧ o.memAddr = some (s.effAddr rn dt9))

/-! ## The host's operations -/

/-- 70_reset_and_hazards.md R311, R319: `load` of contiguous multiples of 4, in any order, installs the program and
initialises the core; any other program is refused and leaves the core unchanged. That the entries may come in any order
is the model's reading of an ordered mapping (log entry 7); MEM_SIZE as an argument and the error's name are its choices
(log entry 8). -/
def Obligations.LoadInstallsOrRefuses : Prop :=
  ∀ size es core,
    (∀ base ws, IsProgram es base ws →
      ∃ t, hostLoad size es core = (some t, .ok ()) ∧
        t.pc = (if ws = [] then 0 else BitVec.ofNat 64 base) ∧ (∀ r, t.reg r = 0) ∧
        t.flags = ⟨false, false, false, false⟩ ∧ t.halted = false ∧ t.fault = .none ∧ t.lastObs = none ∧
        (∀ a, t.byte a = 0) ∧ t.memSize = size ∧
        ∀ a w, t.program.fetch a = some w ↔ (a, w) ∈ es) ∧
      ((¬∃ base ws, IsProgram es base ws) → hostLoad size es core = (core, .error .malformedProgram))

/-- 70_reset_and_hazards.md R312: `reset` returns a loaded core to Ready at its load address, clearing registers and
flags and keeping program and data memory. -/
def Obligations.ResetKeepsProgramAndMemory : Prop :=
  ∀ s, ∃ t, hostReset (some s) = (some t, .ok ()) ∧
    t.pc = (if s.program.words = [] then 0 else s.program.base) ∧ (∀ r, t.reg r = 0) ∧
    t.flags = ⟨false, false, false, false⟩ ∧ t.halted = false ∧ t.fault = .none ∧ t.lastObs = none ∧
    t.program = s.program ∧ t.dmem = s.dmem ∧ t.memSize = s.memSize

/-- A core loaded with MEM_SIZE in its range meets the invariant, and so does a core that met it before `reset`. -/
def Obligations.LoadAndResetMeetTheInvariant : Prop :=
  (∀ size es core t, Config.memSizeOk size → hostLoad size es core = (some t, .ok ()) → t.Inv) ∧
    ∀ s : State, s.Inv → s.afterReset.Inv

/-- 70_reset_and_hazards.md R314: the bounded run takes k <= N steps, each on a running core; k is N unless the core
halts; the observations are those of the k steps, in order; the host's `run(N)` answers them and leaves that core. -/
def Obligations.BoundedRunStops : Prop :=
  ∀ (n : Nat) (s : State), hostRun n (some s) = (some (runSteps n s).1, .ok (runSteps n s).2) ∧ ∃ k, k ≤ n ∧ StepsTo k s (runSteps n s).1 ∧ (runSteps n s).2.length = k ∧
    (k < n → (runSteps n s).1.halted = true) ∧
    ∀ j, j < k → ∃ u v, StepsTo j s u ∧ u.halted = false ∧ step u = .next v ∧ (runSteps n s).2[j]? = some v.lastObs

/-- 70_reset_and_hazards.md R315, R316, R317: the reads, which change nothing; the signed reading of a register, 0 for
31; one byte of memory, 0 where nothing is listed; outside their ranges they are refused. -/
def Obligations.HostReads : Prop :=
  ∀ s : State,
    (∀ r : RegIdx, hostGetRegister r.toNat (some s) = (some s, .ok (s.reg r).toInt)) ∧
      hostGetRegister 31 (some s) = (some s, .ok 0) ∧
      (∀ i : Int, i < 0 ∨ 31 < i → hostGetRegister i (some s) = (some s, .error .noSuchRegister)) ∧
      (∀ a : Nat, a < s.memSize → hostGetMemory a (some s) = (some s, .ok (s.byte a))) ∧
      (∀ a : Nat, (∀ c ∈ s.dmem, c.1 ≠ a) → s.byte a = 0) ∧
      (∀ a : Int, a < 0 ∨ s.memSize ≤ a → hostGetMemory a (some s) = (some s, .error .noSuchAddress)) ∧
      hostGetFlags (some s) = (some s, .ok s.flags) ∧ hostIsHalted (some s) = (some s, .ok s.halted)

/-- 70_reset_and_hazards.md R318: before the first `load` every other operation is refused. -/
def Obligations.NothingBeforeLoad : Prop :=
  hostReset none = (none, .error .noProgramLoaded) ∧ hostStep none = (none, .error .noProgramLoaded) ∧
    (∀ n, hostRun n none = (none, .error .noProgramLoaded)) ∧
    (∀ i, hostGetRegister i none = (none, .error .noProgramLoaded)) ∧
    (∀ a, hostGetMemory a none = (none, .error .noProgramLoaded)) ∧
    hostGetFlags none = (none, .error .noProgramLoaded) ∧ hostIsHalted none = (none, .error .noProgramLoaded)

/-! ## The assembler's rules -/

/-- 30_encoding.md R110: a comment changes nothing, white space around a line changes nothing, and a line of white space
alone is blank: it takes no address. What counts as white space is the model's choice (log entry 4). -/
def Obligations.CommentsAndWhiteSpaceAreStripped : Prop :=
  ∀ (n : Nat) (l : List Char),
    (∀ c, '/' ∉ l → parseLine n (l ++ '/' :: '/' :: c) = parseLine n l) ∧
      (∀ c, '/' ∉ l → isSpace c = true → parseLine n (c :: l) = parseLine n l ∧ parseLine n (l ++ [c]) = parseLine n l) ∧
      (l.all isSpace = true → parseLine n l = none)

/-- 30_encoding.md R118: every immediate is accepted exactly in its field's range, with its value; else the line is
ImmediateOutOfRange. -/
def Obligations.ImmediateRanges : Prop :=
  ∀ (t : LabelTable) (addr : Nat) (a b : RegName) (ra rb : RegIdx), a.number = .ok ra → b.number = .ok rb →
    (∀ p ∈ [(Kind.addi, Instr.addi), (Kind.subi, Instr.subi)],
      ChecksRange (fun i => asmStmt t addr (.plain p.1) [.reg a, .reg b, .imm i]) (p.2 ra rb) (fun v => v.toInt)
        (-2048) 2047) ∧
    (∀ p ∈ [(Kind.ldur, Instr.ldur), (Kind.stur, Instr.stur), (Kind.ldursw, Instr.ldursw), (Kind.sturw, Instr.sturw),
        (Kind.ldurb, Instr.ldurb), (Kind.sturb, Instr.sturb)],
      ChecksRange (fun i => asmStmt t addr (.plain p.1) [.reg a, .mem b i]) (p.2 ra rb) (fun v => v.toInt)
        (-256) 255) ∧
    (∀ p ∈ [(Kind.lsl, Instr.lsl), (Kind.lsr, Instr.lsr)],
      ChecksRange (fun i => asmStmt t addr (.plain p.1) [.reg a, .reg b, .imm i]) (p.2 ra rb) (fun v => v.toNat)
        0 63) ∧
    ChecksRange (fun i => asmStmt t addr (.plain .movz) [.reg a, .imm i]) (fun v => .movz ra v 0) (fun v => v.toNat)
      0 65535 ∧
    (∀ p ∈ [((0 : Int), (0 : BitVec 2)), (16, 1), (32, 2), (48, 3)],
      ChecksRange (fun i => asmStmt t addr (.plain .movz) [.reg a, .imm i, .shift p.1]) (fun v => .movz ra v p.2)
        (fun v => v.toNat) 0 65535) ∧
    (∀ s i : Int, s ≠ 0 ∧ s ≠ 16 ∧ s ≠ 32 ∧ s ≠ 48 →
      asmStmt t addr (.plain .movz) [.reg a, .imm i, .shift s] = .error .immediateOutOfRange) ∧
    ∀ l target, t.address l = .ok target →
      ChecksOffset (asmStmt t addr (.plain .b) [.label l]) .b (((target : Int) - addr) / 4) (-(2 ^ 25)) (2 ^ 25 - 1) ∧
      (∀ c, ChecksOffset (asmStmt t addr (.bcond c) [.label l]) (.bCond c) (((target : Int) - addr) / 4)
        (-(2 ^ 18)) (2 ^ 18 - 1)) ∧
      ChecksOffset (asmStmt t addr (.plain .cbz) [.reg a, .label l]) (.cbz ra) (((target : Int) - addr) / 4)
        (-(2 ^ 18)) (2 ^ 18 - 1) ∧
      ChecksOffset (asmStmt t addr (.plain .cbnz) [.reg a, .label l]) (.cbnz ra) (((target : Int) - addr) / 4)
        (-(2 ^ 18)) (2 ^ 18 - 1)

/-- 30_encoding.md R113: a branch to a label, assembled at its address and executed there, goes to the label's address,
forward or backward. -/
def Obligations.BranchesResolveToTheirLabels : Prop :=
  ∀ (labels : LabelTable) (addr target : Nat) (l : LabelName) (i : Instr) (s t : State),
    labels.address l = .ok target → addr % 4 = 0 → target % 4 = 0 → s.pc = BitVec.ofNat 64 addr →
      exec i s = .next t →
      (asmStmt labels addr (.plain .b) [.label l] = .ok i → t.pc = BitVec.ofNat 64 target) ∧
        (∀ c, asmStmt labels addr (.bcond c) [.label l] = .ok i → condHolds c s.flags = true →
          t.pc = BitVec.ofNat 64 target) ∧
        (∀ r, asmStmt labels addr (.plain .cbz) [.reg r, .label l] = .ok i →
          (∀ k, r.number = .ok k → s.reg k = 0) → t.pc = BitVec.ofNat 64 target) ∧
        ∀ r, asmStmt labels addr (.plain .cbnz) [.reg r, .label l] = .ok i →
          (∀ k, r.number = .ok k → s.reg k ≠ 0) → t.pc = BitVec.ofNat 64 target

/-- 30_encoding.md R113, R114: in a source that assembles, pass 1 binds each label to the address of the next instruction
slot, 4 times the number of instruction lines before it, and no other label; the k-th instruction line, in source order,
gives the word of its instruction at 4k, and there is no other word; the program loads, and execution starts at 0. -/
def Obligations.AssembledProgramsLoadAtZero : Prop :=
  ∀ src es size core, assemble src = .ok es → 4 * es.length ≤ 2 ^ 64 →
    (∀ before line after l, src = before ++ line :: after → l ∈ line.labels →
      (pass1 0 src []).1.address l = .ok (4 * (before.filter (·.stmt.isSome)).length)) ∧
    (∀ l, (∀ line ∈ src, l ∉ line.labels) → (pass1 0 src []).1.address l = .error .undefinedLabel) ∧
    es.length = (src.filter (·.stmt.isSome)).length ∧
      ∃ t, hostLoad size es core = (some t, .ok ()) ∧ t.pc = 0 ∧
        ∀ k line m ops, (src.filter (·.stmt.isSome))[k]? = some line → line.stmt = some (m, ops) →
          ∃ i, asmStmt (pass1 0 src []).1 (4 * k) m ops = .ok i ∧
            es[k]? = some (BitVec.ofNat 64 (4 * k), encode i) ∧
            t.program.fetch (BitVec.ofNat 64 (4 * k)) = some (encode i)
end

