-- ==== Sys2Proof/Laws/Assembler.lean ====
section
/-! SUPPORT. What the assembler's two passes do: the address each label is bound to, and the word at each address. -/

namespace Sys2Proof.Machine

/-! ## Pass 1 -/

/-- Binding a line's labels without an error: each is then bound to the line's address, and a label that was bound, or
is not the line's, keeps its binding. -/
theorem bindLabels_address {line addr : Nat} {ls : List LabelName} {t : LabelTable}
    (h : (bindLabels line addr ls t).2 = []) (l : LabelName) :
    (l ∈ ls → (bindLabels line addr ls t).1.address l = .ok addr) ∧
      (l ∉ ls → (bindLabels line addr ls t).1.address l = t.address l) ∧
      (t.any (fun e => e.1 == l) = true → l ∉ ls) := by
  induction ls generalizing t with
  | nil => exact ⟨by simp, fun _ => rfl, by simp⟩
  | cons x ls ih =>
    unfold bindLabels at h ⊢
    split at h
    · cases h
    · rename_i hx
      rw [if_neg hx]
      obtain ⟨h1, h2, h3⟩ := ih h
      have hnew : LabelTable.address ((x, addr) :: t) x = .ok addr := by simp [LabelTable.address]
      have hold : ∀ l, l ≠ x → LabelTable.address ((x, addr) :: t) l = t.address l := fun l hl => by
        simp [LabelTable.address, hl.symm]
      refine ⟨fun hl => ?_, fun hl => ?_, fun ht hl => ?_⟩
      · by_cases hin : l ∈ ls
        · exact h1 hin
        · have e : l = x := by simpa [hin] using hl
          rw [h2 hin, e, hnew]
      · simp only [List.mem_cons, not_or] at hl
        rw [h2 hl.2, hold l hl.1]
      · rcases List.mem_cons.mp hl with rfl | hl
        · exact hx ht
        · exact h3 (by simp only [List.any_cons, ht, Bool.or_true]) hl

/-- A bound label is in the table. -/
theorem LabelTable.any_of_address {t : LabelTable} {l : LabelName} {a : Nat} (h : t.address l = .ok a) :
    t.any (fun e => e.1 == l) = true := by
  unfold LabelTable.address at h
  split at h
  · rename_i e he
    exact List.any_eq_true.mpr ⟨e, List.mem_of_find?_eq_some he, List.find?_some (p := fun e : LabelName × Nat => e.1 == l) he⟩
  · cases h

/-- Pass 1 without an error keeps the binding of a label that was bound, or that no line defines. -/
theorem pass1_keeps {addr : Nat} {src : List SourceLine} {t : LabelTable} (h : (pass1 addr src t).2 = [])
    (l : LabelName) (hl : (∃ a, t.address l = .ok a) ∨ ∀ line ∈ src, l ∉ line.labels) :
    (pass1 addr src t).1.address l = t.address l := by
  induction src generalizing addr t with
  | nil => rfl
  | cons line src ih =>
    simp only [pass1, List.append_eq_nil_iff] at h ⊢
    obtain ⟨h1, h2, h3⟩ := bindLabels_address h.1 l
    have hn : l ∉ line.labels := by
      rcases hl with ⟨a, ha⟩ | hl
      · exact h3 (LabelTable.any_of_address ha)
      · exact hl line (List.mem_cons_self ..)
    rw [ih h.2 ?_, h2 hn]
    rw [h2 hn]
    exact hl.imp id fun hl line' hm => hl line' (List.mem_cons_of_mem _ hm)

/-- Pass 1 without an error binds a line's labels to the address of the next instruction slot (30_encoding.md R113,
R114). -/
theorem pass1_address {addr : Nat} {before after : List SourceLine} {line : SourceLine} {t : LabelTable}
    (h : (pass1 addr (before ++ line :: after) t).2 = []) {l : LabelName} (hl : l ∈ line.labels) :
    (pass1 addr (before ++ line :: after) t).1.address l =
      .ok (addr + 4 * (before.filter (·.stmt.isSome)).length) := by
  induction before generalizing addr t with
  | nil =>
    simp only [List.nil_append, pass1, List.append_eq_nil_iff] at h ⊢
    have hb := (bindLabels_address h.1 l).1 hl
    rw [pass1_keeps h.2 l (.inl ⟨_, hb⟩), hb]
    rfl
  | cons x before ih =>
    simp only [List.cons_append, pass1, List.append_eq_nil_iff] at h ⊢
    rw [ih h.2, List.filter_cons]
    unfold SourceLine.next
    split
    · rw [List.length_cons]; congr 1; omega
    · rfl

/-! ## Pass 2 -/

/-- Pass 2 without an error: one entry for each instruction line, the k-th at the k-th address with the word of its
instruction (30_encoding.md R114, R119). -/
theorem pass2_get {t : LabelTable} {addr : Nat} {src : List SourceLine} (h : (pass2 t addr src).2 = []) :
    (pass2 t addr src).1.length = (src.filter (·.stmt.isSome)).length ∧
      ∀ k line m ops, (src.filter (·.stmt.isSome))[k]? = some line → line.stmt = some (m, ops) →
        ∃ i, asmStmt t (addr + 4 * k) m ops = .ok i ∧
          (pass2 t addr src).1[k]? = some (BitVec.ofNat 64 (addr + 4 * k), encode i) := by
  induction src generalizing addr with
  | nil => exact ⟨rfl, by simp⟩
  | cons l ls ih =>
    simp only [pass2] at h ⊢
    cases hl : l.stmt with
    | none =>
      simp only [hl, SourceLine.next, Option.isSome_none, Bool.false_eq_true, if_false, List.filter_cons] at h ⊢
      exact ih h
    | some p =>
      obtain ⟨m, ops⟩ := p
      simp only [hl, SourceLine.next, Option.isSome_some, if_true, List.filter_cons] at h ⊢
      cases ha : asmStmt t addr m ops with
      | error e => simp [ha] at h
      | ok i =>
        simp only [ha] at h ⊢
        obtain ⟨h1, h2⟩ := ih h
        refine ⟨by rw [List.length_cons, List.length_cons, h1], fun k line m' ops' hk hs => ?_⟩
        cases k with
        | zero =>
          obtain rfl : l = line := by simpa using hk
          obtain ⟨rfl, rfl⟩ : m = m' ∧ ops = ops' := by simpa [hl] using hs
          exact ⟨i, ha, rfl⟩
        | succ k =>
          rw [show addr + 4 * (k + 1) = addr + 4 + 4 * k by omega]
          exact h2 k line m' ops' (by simpa using hk) hs

end Sys2Proof.Machine
end

