-- ==== Sys2Proof/Laws/Decode.lean ====
section
/-! SUPPORT. The laws of the formats (30_encoding.md R82 to R87): reading a field that was placed gives it back, and the
masks of the opcode map keep the opcode. And the one law of the decoder: a word of a row is decoded by that row. -/

namespace Sys2Proof

/-! ## The decoder picks a word's row -/

/-- The bit in which rows apart differ (30_encoding.md R89). -/
theorem OpRow.apart_iff {r r' : OpRow} : r.apart r' = true ↔
    ∃ k, r.mask.getLsbD k = true ∧ r'.mask.getLsbD k = true ∧ r.pattern.getLsbD k ≠ r'.pattern.getLsbD k := by
  simp only [OpRow.apart, bne_iff_ne, ne_eq]
  constructor
  · intro h
    by_contra hn
    apply h
    apply BitVec.eq_of_getLsbD_eq
    intro k _
    have := fun h1 h2 h3 => hn ⟨k, h1, h2, h3⟩
    simp only [BitVec.getLsbD_and, BitVec.getLsbD_xor]
    revert this
    cases r.mask.getLsbD k <;> cases r'.mask.getLsbD k <;> cases r.pattern.getLsbD k <;>
      cases r'.pattern.getLsbD k <;> simp
  · rintro ⟨k, h1, h2, h3⟩ h
    have := congrArg (fun w : InstrWord => w.getLsbD k) h
    simp only [BitVec.getLsbD_and, BitVec.getLsbD_xor, h1, h2, Bool.true_and] at this
    exact h3 (by simpa using this)

/-- Rows apart share no word. -/
theorem OpRow.not_both {r r' : OpRow} (h : r.apart r' = true) {w : InstrWord} (h1 : r.matches w = true)
    (h2 : r'.matches w = true) : False := by
  simp only [OpRow.matches, beq_iff_eq] at h1 h2
  simp only [OpRow.apart, bne_iff_ne, ne_eq] at h
  apply h
  rw [← h1, ← h2]
  ext i hi
  simp only [BitVec.getElem_and, BitVec.getElem_xor]
  cases w[i] <;> cases r.mask[i] <;> cases r'.mask[i] <;> simp

/-- In a list of rows pairwise apart, a search finds the row a word matches. -/
theorem find_of_matches {l : List OpRow} (hl : l.Pairwise fun r r' => r.apart r' = true) {r : OpRow} (hr : r ∈ l)
    {w : InstrWord} (hw : r.matches w = true) : l.find? (·.matches w) = some r := by
  induction l with
  | nil => simp at hr
  | cons r' l ih =>
    rw [List.pairwise_cons] at hl
    rcases List.mem_cons.mp hr with rfl | hr
    · simp [hw]
    · have : r'.matches w = false := by
        cases h : r'.matches w
        · rfl
        · exact (OpRow.not_both (hl.1 r hr) h hw).elim
      simp [this, ih hl.2 hr]

/-- A word of a row of the opcode map decodes by that row. -/
theorem decode_of_row {r : OpRow} (hr : r ∈ opcodeMap) {w : InstrWord} (hw : w &&& r.mask = r.pattern) :
    decode w = Instr.ofFields (.ofWord r.kind r.format w) := by
  have := find_of_matches opcodeMap_apart hr (w := w) (by simp [OpRow.matches, hw])
  simp [decode, decodeFields, this]

/-- A decoded word is of some row, and that row decodes it. -/
theorem row_of_decode {w : InstrWord} {i : Instr} (h : decode w = .ok i) :
    ∃ r ∈ opcodeMap, w &&& r.mask = r.pattern ∧ Instr.ofFields (.ofWord r.kind r.format w) = .ok i := by
  unfold decode decodeFields at h
  cases hf : opcodeMap.find? (·.matches w) with
  | none => simp [hf] at h
  | some r =>
    refine ⟨r, List.mem_of_find?_eq_some hf, ?_, by simpa [hf] using h⟩
    simpa [OpRow.matches] using List.find?_some hf

/-! ## Words as sums of fields -/

/-- The bits of the field of width `n` at `lo`. -/
def fieldMask (lo n : Nat) : InstrWord := place (BitVec.allOnes n) lo

theorem getLsbD_place {n : Nat} (v : BitVec n) (lo i : Nat) :
    (place v lo).getLsbD i = (decide (i < 32) && decide (lo ≤ i) && v.getLsbD (i - lo)) := by
  unfold place
  by_cases h : i < 32
  · by_cases h' : lo ≤ i
    · simp [h, h']
    · simp [h, h']
  · simp [h]

/-- Placing a field that was sliced from its own place keeps exactly its bits. -/
theorem place_slice (w : InstrWord) (lo n : Nat) : place (slice w lo n) lo = w &&& fieldMask lo n := by
  apply BitVec.eq_of_getLsbD_eq
  intro i hi
  rw [BitVec.getLsbD_and, fieldMask, getLsbD_place, getLsbD_place]
  unfold slice
  by_cases h : lo ≤ i
  · have : lo + (i - lo) = i := by omega
    simp [h, hi, this, Bool.and_comm]
  · simp [h]

/-- A placed field has no bit outside its field. -/
theorem place_and_of_disjoint {n : Nat} (v : BitVec n) (lo : Nat) {m : InstrWord} (h : fieldMask lo n &&& m = 0) :
    place v lo &&& m = 0 := by
  apply BitVec.eq_of_getLsbD_eq
  intro i hi
  have := congrArg (fun x => x.getLsbD i) h
  simp only [fieldMask, BitVec.getLsbD_and, getLsbD_place, hi, decide_true, Bool.true_and, BitVec.getLsbD_allOnes,
    BitVec.ofNat_eq_ofNat, BitVec.getLsbD_zero] at this
  simp only [BitVec.getLsbD_and, getLsbD_place, hi, decide_true, Bool.true_and, BitVec.ofNat_eq_ofNat,
    BitVec.getLsbD_zero]
  by_cases hn : i - lo < n
  · simp only [hn, decide_true, Bool.and_true] at this
    rw [Bool.and_assoc, Bool.and_comm (v.getLsbD _), ← Bool.and_assoc, this, Bool.false_and]
  · rw [BitVec.getLsbD_of_ge v _ (by omega), Bool.and_false, Bool.false_and]

/-- Two words that agree under a mask agree on every slice inside it. -/
theorem slice_of_mask {w m p : InstrWord} (h : w &&& m = p) (lo n : Nat) (hm : slice m lo n = BitVec.allOnes n) :
    slice w lo n = slice p lo n := by
  subst h
  unfold slice at *
  rw [BitVec.extractLsb'_and, hm, BitVec.and_allOnes]

/-! ## Fields -/

section R
variable (op : BitVec 11) (rm : RegIdx) (sh : BitVec 6) (rn rd : RegIdx)

theorem encodeR_opcode : encodeR op rm sh rn rd &&& 0xFFE00000 = place op 21 := by
  unfold encodeR place; ext i hi; simp; interval_cases i <;> simp
@[simp] theorem encodeR_rm : slice (encodeR op rm sh rn rd) 16 5 = rm := by
  unfold slice encodeR place; ext i hi; simp; interval_cases i <;> simp
@[simp] theorem encodeR_shamt : slice (encodeR op rm sh rn rd) 10 6 = sh := by
  unfold slice encodeR place; ext i hi; simp; interval_cases i <;> simp
@[simp] theorem encodeR_rn : slice (encodeR op rm sh rn rd) 5 5 = rn := by
  unfold slice encodeR place; ext i hi; simp; interval_cases i <;> simp
@[simp] theorem encodeR_rd : slice (encodeR op rm sh rn rd) 0 5 = rd := by
  unfold slice encodeR place; ext i hi; simp; interval_cases i <;> simp
end R

section I
variable (op : BitVec 10) (imm : BitVec 12) (rn rd : RegIdx)

theorem encodeI_opcode : encodeI op imm rn rd &&& 0xFFC00000 = place op 22 := by
  unfold encodeI place; ext i hi; simp; interval_cases i <;> simp
@[simp] theorem encodeI_imm12 : slice (encodeI op imm rn rd) 10 12 = imm := by
  unfold slice encodeI place; ext i hi; simp; interval_cases i <;> simp
@[simp] theorem encodeI_rn : slice (encodeI op imm rn rd) 5 5 = rn := by
  unfold slice encodeI place; ext i hi; simp; interval_cases i <;> simp
@[simp] theorem encodeI_rd : slice (encodeI op imm rn rd) 0 5 = rd := by
  unfold slice encodeI place; ext i hi; simp; interval_cases i <;> simp
end I

section D
variable (op : BitVec 11) (dt9 : BitVec 9) (rn rt : RegIdx)

theorem encodeD_opcode : encodeD op dt9 rn rt &&& 0xFFE00000 = place op 21 := by
  unfold encodeD place; ext i hi; simp; interval_cases i <;> simp
@[simp] theorem encodeD_dt9 : slice (encodeD op dt9 rn rt) 12 9 = dt9 := by
  unfold slice encodeD place; ext i hi; simp; interval_cases i <;> simp
@[simp] theorem encodeD_rn : slice (encodeD op dt9 rn rt) 5 5 = rn := by
  unfold slice encodeD place; ext i hi; simp; interval_cases i <;> simp
@[simp] theorem encodeD_rt : slice (encodeD op dt9 rn rt) 0 5 = rt := by
  unfold slice encodeD place; ext i hi; simp; interval_cases i <;> simp
end D

theorem encodeB_opcode (op : BitVec 6) (off : BitVec 26) : encodeB op off &&& 0xFC000000 = place op 26 := by
  unfold encodeB place; ext i hi; simp; interval_cases i <;> simp
@[simp] theorem encodeB_br26 (op : BitVec 6) (off : BitVec 26) : slice (encodeB op off) 0 26 = off := by
  unfold slice encodeB place; ext i hi; simp; interval_cases i <;> simp

section CB
variable (op : BitVec 8) (off : BitVec 19) (rt : BitVec 5)

theorem encodeCB_opcode : encodeCB op off rt &&& 0xFF000000 = place op 24 := by
  unfold encodeCB place; ext i hi; simp; interval_cases i <;> simp
theorem encodeCB_opcode_cond : encodeCB op off rt &&& 0xFF00001F = place op 24 ||| place rt 0 := by
  unfold encodeCB place; ext i hi; simp; interval_cases i <;> simp
@[simp] theorem encodeCB_cbr19 : slice (encodeCB op off rt) 5 19 = off := by
  unfold slice encodeCB place; ext i hi; simp; interval_cases i <;> simp
@[simp] theorem encodeCB_rt : slice (encodeCB op off rt) 0 5 = rt := by
  unfold slice encodeCB place; ext i hi; simp; interval_cases i <;> simp
end CB

section IM
variable (op : BitVec 9) (hw : BitVec 2) (imm : BitVec 16) (rd : RegIdx)

theorem encodeIM_opcode : encodeIM op hw imm rd &&& 0xFF800000 = place op 23 := by
  unfold encodeIM place; ext i hi; simp; interval_cases i <;> simp
@[simp] theorem encodeIM_hw : slice (encodeIM op hw imm rd) 21 2 = hw := by
  unfold slice encodeIM place; ext i hi; simp; interval_cases i <;> simp
@[simp] theorem encodeIM_imm16 : slice (encodeIM op hw imm rd) 5 16 = imm := by
  unfold slice encodeIM place; ext i hi; simp; interval_cases i <;> simp
@[simp] theorem encodeIM_rd : slice (encodeIM op hw imm rd) 0 5 = rd := by
  unfold slice encodeIM place; ext i hi; simp; interval_cases i <;> simp
end IM

/-- A condition's number selects it (43_branch.md R250). -/
@[simp] theorem Cond.ofCode_code (c : Cond) : Cond.ofCode c.code = some c := by cases c <;> rfl

/-- A number that selects a condition is its number. -/
theorem Cond.code_of_ofCode {b : BitVec 5} {c : Cond} (h : Cond.ofCode b = some c) : b = c.code := by
  revert b; cases c <;> decide

end Sys2Proof
end

