-- ==== Sys2Proof/Laws/Flags.lean ====
section
/-! SUPPORT. The flag computations as comparisons between exact and wrapped results (40_datapath.md R138, R139). -/

namespace Sys2Proof.Machine

/-- Subtraction is the addition of the complement with a carry in (40_datapath.md R139). -/
theorem sub_eq_add_not_one (a b : Word) : a + ~~~b + 1 = a - b := by
  rw [BitVec.sub_eq_add_neg, BitVec.neg_eq_not_add, BitVec.add_assoc]; rfl

/-- The flags of an addition: V is the signed overflow (40_datapath.md R138). -/
theorem addFlags_eq (a b : Word) : addFlags a b =
    ⟨(a + b).msb, decide (a + b = 0), decide (2 ^ 64 ≤ a.toNat + b.toNat), signedOverflow (a.toInt + b.toInt)⟩ := by
  unfold addFlags signedOverflow
  have ha := a.isLt
  have hb := b.isLt
  simp only [Flags.mk.injEq, true_and]
  refine ⟨rfl, ?_⟩
  rw [BitVec.msb_eq_decide, BitVec.msb_eq_decide, BitVec.msb_eq_decide, BitVec.toInt_eq_toNat_cond,
    BitVec.toInt_eq_toNat_cond, BitVec.toNat_add, Bool.eq_iff_iff]
  simp only [Bool.and_eq_true, beq_iff_eq, bne_iff_ne, decide_eq_decide, decide_eq_true_eq, ne_eq]
  split <;> split <;> omega

/-- The flags of a subtraction: C is no borrow, V the signed overflow (40_datapath.md R139). -/
theorem subFlags_eq (a b : Word) : subFlags a b =
    ⟨(a - b).msb, decide (a = b), decide (b.toNat ≤ a.toNat), signedOverflow (a.toInt - b.toInt)⟩ := by
  unfold subFlags signedOverflow
  rw [sub_eq_add_not_one]
  have ha := a.isLt
  have hb := b.isLt
  simp only [Flags.mk.injEq, true_and]
  refine ⟨?_, ?_, ?_⟩
  · rw [Bool.eq_iff_iff]
    simp only [beq_iff_eq, decide_eq_true_eq]
    exact ⟨fun h => by rw [← BitVec.sub_add_cancel a b, h]; exact BitVec.zero_add b,
      fun h => by subst h; exact BitVec.sub_self a⟩
  · rw [BitVec.toNat_not, decide_eq_decide]
    omega
  · rw [BitVec.msb_eq_decide, BitVec.msb_eq_decide, BitVec.msb_eq_decide, BitVec.toInt_eq_toNat_cond,
      BitVec.toInt_eq_toNat_cond, BitVec.toNat_sub, Bool.eq_iff_iff]
    simp only [Bool.and_eq_true, bne_iff_ne, decide_eq_decide, decide_eq_true_eq, ne_eq]
    split <;> split <;> omega

end Sys2Proof.Machine
end

