-- ==== Sys2Proof/Laws/State.lean ====
section
/-! SUPPORT. One lemma per field per state update of the shared operations, true by rfl, so that no later proof unfolds a
record update. -/

namespace Sys2Proof.Machine

variable (s : State) (c : Completion) (sig : ControlSignals) (k : FaultKind) (at' : Option (ControlSignals × Word))

/-! ## The commit -/

@[simp] theorem State.complete_pc : (s.complete c).pc = c.nextPc := rfl
@[simp] theorem State.complete_x : (s.complete c).x = match c.dest with
  | some (rd, v) => writeReg s.x rd v
  | none => s.x := rfl
@[simp] theorem State.complete_flags : (s.complete c).flags = c.flags.getD s.flags := rfl
@[simp] theorem State.complete_halted : (s.complete c).halted = s.halted := rfl
@[simp] theorem State.complete_fault : (s.complete c).fault = s.fault := rfl
@[simp] theorem State.complete_faultCode : (s.complete c).faultCode = s.faultCode := rfl
@[simp] theorem State.complete_lastObs : (s.complete c).lastObs = some (s.completeObs c) := rfl
@[simp] theorem State.complete_memSize : (s.complete c).memSize = s.memSize := rfl
@[simp] theorem State.complete_dmem : (s.complete c).dmem = c.dmem.getD s.dmem := rfl
@[simp] theorem State.complete_program : (s.complete c).program = s.program := rfl
@[simp] theorem State.complete_byte (a : Nat) : (s.complete c).byte a = (c.dmem.getD s.dmem).get a := rfl

/-! ## HALT -/

@[simp] theorem State.haltStop_pc : (s.haltStop sig).pc = s.pc := rfl
@[simp] theorem State.haltStop_x : (s.haltStop sig).x = s.x := rfl
@[simp] theorem State.haltStop_flags : (s.haltStop sig).flags = s.flags := rfl
@[simp] theorem State.haltStop_halted : (s.haltStop sig).halted = true := rfl
@[simp] theorem State.haltStop_fault : (s.haltStop sig).fault = s.fault := rfl
@[simp] theorem State.haltStop_faultCode : (s.haltStop sig).faultCode = s.faultCode := rfl
@[simp] theorem State.haltStop_lastObs : (s.haltStop sig).lastObs = some (s.haltObs sig) := rfl
@[simp] theorem State.haltStop_memSize : (s.haltStop sig).memSize = s.memSize := rfl
@[simp] theorem State.haltStop_dmem : (s.haltStop sig).dmem = s.dmem := rfl
@[simp] theorem State.haltStop_program : (s.haltStop sig).program = s.program := rfl
@[simp] theorem State.haltStop_reg (r : RegIdx) : (s.haltStop sig).reg r = s.reg r := rfl
@[simp] theorem State.haltStop_byte (a : Nat) : (s.haltStop sig).byte a = s.byte a := rfl

/-! ## Taking a fault -/

@[simp] theorem State.takeFault_pc : (s.takeFault k at').pc = s.pc := rfl
@[simp] theorem State.takeFault_x : (s.takeFault k at').x = s.x := rfl
@[simp] theorem State.takeFault_flags : (s.takeFault k at').flags = s.flags := rfl
@[simp] theorem State.takeFault_halted : (s.takeFault k at').halted = true := rfl
@[simp] theorem State.takeFault_fault : (s.takeFault k at').fault = k := rfl
@[simp] theorem State.takeFault_faultCode : (s.takeFault k at').faultCode = k.code := rfl
@[simp] theorem State.takeFault_lastObs : (s.takeFault k at').lastObs = some (s.faultObs k at') := rfl
@[simp] theorem State.takeFault_memSize : (s.takeFault k at').memSize = s.memSize := rfl
@[simp] theorem State.takeFault_dmem : (s.takeFault k at').dmem = s.dmem := rfl
@[simp] theorem State.takeFault_program : (s.takeFault k at').program = s.program := rfl
@[simp] theorem State.takeFault_reg (r : RegIdx) : (s.takeFault k at').reg r = s.reg r := rfl
@[simp] theorem State.takeFault_byte (a : Nat) : (s.takeFault k at').byte a = s.byte a := rfl

/-! ## The plain completion -/

@[simp] theorem State.goOn_signals (res : Word) : (s.goOn sig res).signals = sig := rfl
@[simp] theorem State.goOn_aluResult (res : Word) : (s.goOn sig res).aluResult = res := rfl
@[simp] theorem State.goOn_access (res : Word) : (s.goOn sig res).access = none := rfl
@[simp] theorem State.goOn_dest (res : Word) : (s.goOn sig res).dest = none := rfl
@[simp] theorem State.goOn_flags (res : Word) : (s.goOn sig res).flags = none := rfl
@[simp] theorem State.goOn_dmem (res : Word) : (s.goOn sig res).dmem = none := rfl
@[simp] theorem State.goOn_nextPc (res : Word) : (s.goOn sig res).nextPc = s.pc + 4 := rfl

/-! ## Reset and the host's placement of a word -/

@[simp] theorem State.reset_pc : State.reset.pc = 0 := rfl
@[simp] theorem State.reset_halted : State.reset.halted = false := rfl
@[simp] theorem State.reset_fault : State.reset.fault = .none := rfl
@[simp] theorem State.reset_faultCode : State.reset.faultCode = 0 := rfl
@[simp] theorem State.reset_lastObs : State.reset.lastObs = none := rfl
@[simp] theorem State.reset_dmem : State.reset.dmem = [] := rfl
@[simp] theorem State.reset_program : State.reset.program = .empty := rfl
@[simp] theorem State.withFetchWord_pc (n w : Nat) : (s.withFetchWord n w).pc = s.pc &&& ~~~3 := rfl
@[simp] theorem State.withFetchWord_halted (n w : Nat) : (s.withFetchWord n w).halted = false := rfl
@[simp] theorem State.withFetchWord_program (n w : Nat) :
    (s.withFetchWord n w).program = s.program.putWord (s.pc &&& ~~~3) (tableWord n w) := rfl

end Sys2Proof.Machine
end

