-- ==== Sys2Proof/Laws/Memory.lean ====
section
/-! SUPPORT. The laws of data memory: read after write, and that every operation keeps the canonical form. -/

namespace Sys2Proof.Machine

namespace Memory

@[simp] theorem get_nil (a : Nat) : Memory.get [] a = Memory.unlisted := rfl

theorem get_cons (b : Nat) (u : Byte) (m : Memory) (a : Nat) :
    Memory.get ((b, u) :: m) a = if b = a then u else Memory.get m a := rfl

/-! ## Read after write -/

@[simp] theorem get_drop_same (m : Memory) (a : Nat) : (m.drop a).get a = Memory.unlisted := by
  induction m with
  | nil => rfl
  | cons c m ih =>
    obtain ⟨b, u⟩ := c
    by_cases h : b = a
    · simpa [Memory.drop, h] using ih
    · simpa [Memory.drop, h, get_cons] using ih

theorem get_drop_other (m : Memory) {a b : Nat} (h : b ≠ a) : (m.drop a).get b = m.get b := by
  induction m with
  | nil => rfl
  | cons c m ih =>
    obtain ⟨d, u⟩ := c
    by_cases hd : d = a
    · have : a ≠ b := fun e => h e.symm
      simpa [Memory.drop, hd, get_cons, this] using ih
    · by_cases hb : d = b
      · subst hb; simp [Memory.drop, hd, get_cons]
      · simpa [Memory.drop, hd, get_cons, hb] using ih

theorem get_insert (m : Memory) (a : Nat) (v : Byte) (b : Nat) (h : ∀ c ∈ m, c.1 ≠ a) :
    (Memory.insert a v m).get b = if b = a then v else m.get b := by
  induction m with
  | nil => simp [Memory.insert, get_cons, eq_comm]
  | cons c m ih =>
    obtain ⟨d, u⟩ := c
    have hd : d ≠ a := h (d, u) (by simp)
    have hm : ∀ c ∈ m, c.1 ≠ a := fun c hc => h c (by simp [hc])
    by_cases hlt : a < d
    · by_cases hb : b = a
      · simp [Memory.insert, hlt, get_cons, hb]
      · have : a ≠ b := fun e => hb e.symm
        simp [Memory.insert, hlt, get_cons, hb, this]
    · by_cases hb : d = b
      · subst hb; simp [Memory.insert, hlt, get_cons, hd]
      · simp [Memory.insert, hlt, get_cons, hb, ih hm]

/-- A read after a write to one byte: the byte written there, every other byte as before. -/
theorem get_set (m : Memory) (a : Nat) (v : Byte) (b : Nat) :
    (m.set a v).get b = if b = a then v else m.get b := by
  unfold Memory.set
  by_cases hv : v = Memory.unlisted
  · by_cases hb : b = a
    · simp [hv, hb]
    · simp [hv, hb, get_drop_other m hb]
  · rw [if_neg hv, get_insert _ _ _ _ (by simp [Memory.drop])]
    by_cases hb : b = a
    · simp [hb]
    · simp [hb, get_drop_other m hb]

/-! ## The canonical form -/

theorem wfFrom_cons (lo a : Nat) (v : Byte) (m : Memory) :
    Memory.wfFrom lo ((a, v) :: m) = true ↔
      lo ≤ a ∧ v ≠ Memory.unlisted ∧ Memory.wfFrom (a + 1) m = true := by
  simp [Memory.wfFrom, and_assoc]

theorem wfFrom_mono {lo lo' : Nat} {m : Memory} (h : lo ≤ lo') (hm : Memory.wfFrom lo' m = true) :
    Memory.wfFrom lo m = true := by
  cases m with
  | nil => rfl
  | cons c m =>
    obtain ⟨a, v⟩ := c
    rw [wfFrom_cons] at hm ⊢
    exact ⟨by omega, hm.2⟩

theorem wfFrom_drop {lo : Nat} {m : Memory} (a : Nat) (hm : Memory.wfFrom lo m = true) :
    Memory.wfFrom lo (m.drop a) = true := by
  induction m generalizing lo with
  | nil => rfl
  | cons c m ih =>
    obtain ⟨b, v⟩ := c
    rw [wfFrom_cons] at hm
    by_cases h : b = a
    · have := ih hm.2.2
      simpa [Memory.drop, h] using wfFrom_mono (lo := lo) (by omega) this
    · have := ih hm.2.2
      simp only [Memory.drop] at this
      simp [Memory.drop, h, wfFrom_cons, hm, this]

theorem wfFrom_insert {lo : Nat} {m : Memory} {a : Nat} {v : Byte} (hv : v ≠ Memory.unlisted) (hlo : lo ≤ a)
    (hm : Memory.wfFrom lo m = true) (ha : ∀ c ∈ m, c.1 ≠ a) : Memory.wfFrom lo (Memory.insert a v m) = true := by
  induction m generalizing lo with
  | nil => simp [Memory.insert, Memory.wfFrom, hv, hlo]
  | cons c m ih =>
    obtain ⟨b, u⟩ := c
    have hb : b ≠ a := ha (b, u) (by simp)
    rw [wfFrom_cons] at hm
    by_cases h : a < b
    · simp only [Memory.insert, h, if_true, wfFrom_cons]
      exact ⟨hlo, hv, by omega, hm.2⟩
    · simp only [Memory.insert, h, if_false, wfFrom_cons]
      exact ⟨hm.1, hm.2.1, ih (by omega) hm.2.2 fun c hc => ha c (by simp [hc])⟩

/-- A write keeps the canonical form. -/
theorem wf_set {m : Memory} (hm : m.wf = true) (a : Nat) (v : Byte) : (m.set a v).wf = true := by
  unfold Memory.set Memory.wf
  split
  · exact wfFrom_drop a hm
  · rename_i hv
    exact wfFrom_insert hv (Nat.zero_le a) (wfFrom_drop a hm) (by simp [Memory.drop])

theorem below_drop {size : Nat} {m : Memory} (a : Nat) (hm : m.below size = true) : (m.drop a).below size = true := by
  simp only [Memory.below, Memory.drop, List.all_eq_true] at hm ⊢
  exact fun c hc => hm c (List.mem_filter.mp hc).1

theorem mem_insert {a : Nat} {v : Byte} {m : Memory} {c : Host.Cell} (h : c ∈ Memory.insert a v m) :
    c = (a, v) ∨ c ∈ m := by
  induction m with
  | nil => simpa [Memory.insert] using h
  | cons d m ih =>
    obtain ⟨b, u⟩ := d
    by_cases hb : a < b
    · simpa [Memory.insert, hb] using h
    · simp only [Memory.insert, hb, if_false, List.mem_cons] at h
      rcases h with h | h
      · exact .inr (by simp [h])
      · rcases ih h with h | h
        · exact .inl h
        · exact .inr (by simp [h])

/-- A write inside 0..size-1 keeps memory inside it. -/
theorem below_set {size : Nat} {m : Memory} (hm : m.below size = true) {a : Nat} (ha : a < size) (v : Byte) :
    (m.set a v).below size = true := by
  unfold Memory.set
  split
  · exact below_drop a hm
  · have hd := below_drop a hm
    simp only [Memory.below, List.all_eq_true, decide_eq_true_eq] at hd ⊢
    intro c hc
    rcases mem_insert hc with rfl | hc
    · exact ha
    · exact hd c hc

end Memory

/-! ## Wide accesses -/

/-- A store of `n` bytes: byte `k` of the value at `addr + k`, every other byte as before (20_memory.md R54). -/
theorem get_memWrite (m : Memory) (addr n : Nat) (v : Word) (b : Nat) :
    (memWrite m addr n v).get b =
      if addr ≤ b ∧ b < addr + n then v.extractLsb' (8 * (b - addr)) 8 else m.get b := by
  induction n generalizing m addr v with
  | zero =>
    have : ¬(addr ≤ b ∧ b < addr + 0) := by omega
    rw [memWrite, if_neg this]
  | succ n ih =>
    rw [memWrite, ih, Memory.get_set]
    by_cases h : b = addr
    · subst h
      have h1 : ¬(b + 1 ≤ b ∧ b < b + 1 + n) := by omega
      have h2 : b ≤ b ∧ b < b + (n + 1) := by omega
      simp only [h1, h2, if_true, if_false, Nat.sub_self, Nat.mul_zero]
      ext i hi
      simp [BitVec.getElem_eq_testBit_toNat]
    · by_cases hb : addr + 1 ≤ b ∧ b < addr + 1 + n
      · have h2 : addr ≤ b ∧ b < addr + (n + 1) := by omega
        have hk : b - addr = (b - (addr + 1)) + 1 := by omega
        rw [if_pos hb, if_pos h2, hk]
        ext i hi
        simp [Nat.mul_add, Nat.add_comm, Nat.add_left_comm]
      · have h2 : ¬(addr ≤ b ∧ b < addr + (n + 1)) := by omega
        rw [if_neg hb, if_neg h, if_neg h2]

/-- A load sees bytes: bit `i` of the value is bit `i % 8` of the byte at `addr + i / 8` (20_memory.md R53). -/
theorem getLsbD_memRead (m : Memory) (addr n : Nat) (hn : n ≤ 8) (i : Nat) :
    (memRead m addr n).getLsbD i = (decide (i < 8 * n) && (m.get (addr + i / 8)).getLsbD (i % 8)) := by
  induction n generalizing addr i with
  | zero => simp [memRead]
  | succ n ih =>
    rw [memRead]
    by_cases h : i < 8
    · have h1 : i / 8 = 0 := by omega
      have h2 : i % 8 = i := by omega
      have h3 : i < 64 := by omega
      have h4 : i < 8 * (n + 1) := by omega
      simp [h, h1, h2, h3, h4]
    · have h1 : addr + 1 + (i - 8) / 8 = addr + i / 8 := by omega
      have h2 : (i - 8) % 8 = i % 8 := by omega
      have h5 : (m.get addr).getLsbD i = false := BitVec.getLsbD_of_ge _ _ (by omega)
      by_cases h6 : i < 8 * (n + 1)
      · have h3 : i < 64 := by omega
        have h4 : i - 8 < 8 * n := by omega
        have := ih (addr + 1) (by omega) (i - 8)
        rw [h1, h2] at this
        simp only [BitVec.getLsbD_or, BitVec.getLsbD_shiftLeft, BitVec.getLsbD_setWidth, this]
        simp [h, h3, h4, h5, h6]
      · have h4 : ¬(i - 8 < 8 * n) := by omega
        simp [h, h4, h5, h6, ih (addr + 1) (by omega) (i - 8)]

/-- A load depends only on the bytes it reads. -/
theorem memRead_congr {m m' : Memory} {addr n : Nat} (h : ∀ b, addr ≤ b → b < addr + n → m.get b = m'.get b) :
    memRead m addr n = memRead m' addr n := by
  induction n generalizing addr with
  | zero => rfl
  | succ n ih =>
    rw [memRead, memRead, h addr (by omega) (by omega), ih fun b h1 h2 => h b (by omega) (by omega)]

/-- A store keeps the canonical form. -/
theorem wf_memWrite {m : Memory} (hm : m.wf = true) (addr n : Nat) (v : Word) : (memWrite m addr n v).wf = true := by
  induction n generalizing m addr v with
  | zero => exact hm
  | succ n ih => exact ih (Memory.wf_set hm _ _) _ _

/-- A store inside 0..size-1 keeps memory inside it. -/
theorem below_memWrite {size : Nat} {m : Memory} (hm : m.below size = true) (addr n : Nat) (v : Word)
    (h : addr + n ≤ size) : (memWrite m addr n v).below size = true := by
  induction n generalizing m addr v with
  | zero => exact hm
  | succ n ih => exact ih (Memory.below_set hm (by omega) _) _ _ (by omega)

/-- Reset's memory has the canonical form. -/
theorem reset_dmem_wf : State.reset.dmem.wf = true := rfl

end Sys2Proof.Machine
end

