-- ==== Sys2Proof/Laws/Registers.lean ====
section
/-! SUPPORT. What reading a register gives after each shared operation (10_state.md R22, R23). -/

namespace Sys2Proof.Machine

theorem toNat_lt_31 {r : RegIdx} (h : r ≠ 31) : r.toNat < 31 := by
  have : r.toNat ≠ 31 := fun e => h (BitVec.eq_of_toNat_eq e)
  omega

/-- Register 31 reads 0 (10_state.md R22). -/
@[simp] theorem State.reg_31 (s : State) : s.reg 31#5 = 0 := rfl

/-- Reading depends on the register file alone. -/
theorem State.reg_congr {s t : State} (h : t.x = s.x) (r : RegIdx) : t.reg r = s.reg r := by
  unfold State.reg; rw [h]

/-- Reading a register of the file after a write (10_state.md R22, R23). -/
theorem State.reg_of_writeReg {s t : State} {rd : RegIdx} {v : Word} (h : t.x = writeReg s.x rd v) (r : RegIdx) :
    t.reg r = if r = rd ∧ rd ≠ 31 then v else s.reg r := by
  unfold State.reg
  by_cases hr : r.toNat < 31
  · by_cases hd : rd.toNat < 31
    · have hd' : rd ≠ 31 := by rintro rfl; simp at hd
      by_cases he : r = rd
      · subst he
        rw [if_pos ⟨rfl, hd'⟩]
        simp [h, writeReg, hd]
      · have hne : rd.toNat ≠ r.toNat := fun e => he (BitVec.eq_of_toNat_eq e.symm)
        simp [h, writeReg, hd, hr, he, hne]
    · have hd' : rd = 31 := by
        apply BitVec.eq_of_toNat_eq
        have := rd.isLt
        have h31 : (31 : RegIdx).toNat = 31 := rfl
        omega
      simp [h, writeReg, hr, hd']
  · have hr' : r = 31 := by
      apply BitVec.eq_of_toNat_eq
      have := r.isLt
      have h31 : (31 : RegIdx).toNat = 31 := rfl
      omega
    subst hr'
    have h31 : ¬((31 : RegIdx).toNat < 31) := by decide
    rw [dif_neg h31, dif_neg h31, if_neg fun e => e.2 e.1.symm]

/-- Reading a register after a commit. -/
theorem State.complete_reg (s : State) (c : Completion) (r : RegIdx) :
    (s.complete c).reg r = match c.dest with
      | some (rd, v) => if r = rd ∧ rd ≠ 31 then v else s.reg r
      | none => s.reg r := by
  cases h : c.dest with
  | none => exact State.reg_congr (by simp [h]) r
  | some p =>
    obtain ⟨rd, v⟩ := p
    exact State.reg_of_writeReg (by simp [h]) r

/-- A commit without a destination keeps every register. -/
theorem State.complete_reg_none (s : State) {c : Completion} (h : c.dest = none) (r : RegIdx) :
    (s.complete c).reg r = s.reg r := by simp [State.complete_reg, h]

/-- A commit with destination `rd` writes it, unless it is 31, and keeps the others. -/
theorem State.complete_reg_some (s : State) {c : Completion} {rd : RegIdx} {v : Word} (h : c.dest = some (rd, v))
    (r : RegIdx) : (s.complete c).reg r = if r = rd ∧ rd ≠ 31 then v else s.reg r := by
  simp [State.complete_reg, h]

/-- After `load` or `reset` every register reads 0 (70_reset_and_hazards.md R319). -/
theorem State.reg_of_replicate {s : State} (h : s.x = Vector.replicate 31 0) (r : RegIdx) : s.reg r = 0 := by
  unfold State.reg
  split <;> simp [h]

end Sys2Proof.Machine
end

