-- ==== Sys2Proof/Laws/Ops.lean ====
section
/-! SUPPORT. One lemma per shared operation that says everything it can do; proofs cite these instead of unfolding. -/

namespace Sys2Proof.Machine

/-! ## The fault register's codes -/

/-- A code names its fault kind, and a number that names none is no kind's code (60_exceptions.md R281). -/
theorem FaultKind.ofCode_eq_some {n : Nat} {k : FaultKind} : FaultKind.ofCode n = some k ↔ k.code = n := by
  constructor
  · intro h
    unfold FaultKind.ofCode at h
    split at h <;> cases h <;> rfl
  · rintro rfl
    cases k <;> rfl

/-- The fault register holds code 0 exactly where there is no fault (10_state.md R31). -/
theorem State.faultCode_eq_zero {s : State} : s.faultCode = 0 ↔ s.fault = .none := by
  unfold State.faultCode
  cases s.fault <;> simp [FaultKind.code]

/-! ## The access check -/

/-- The access check passes, or raises one of two faults, alignment first (20_memory.md R57). -/
theorem State.accessFault_cases (s : State) (addr : Word) (n : Nat) :
    (s.accessFault addr n = none ∧ addr.toNat % n = 0 ∧ addr.toNat + n ≤ s.memSize) ∨
      (s.accessFault addr n = some .alignmentFault ∧ addr.toNat % n ≠ 0) ∨
      (s.accessFault addr n = some .memoryBoundsFault ∧ addr.toNat % n = 0 ∧ s.memSize < addr.toNat + n) := by
  unfold State.accessFault
  by_cases h : addr.toNat % n = 0
  · by_cases h' : s.memSize < addr.toNat + n
    · simp [h, h']
    · simp [h, h']; omega
  · simp [h]

/-- The access check never raises `None`. -/
theorem State.accessFault_ne_none_kind {s : State} {addr : Word} {n : Nat} {k : FaultKind}
    (h : s.accessFault addr n = some k) : k ≠ .none := by
  rcases s.accessFault_cases addr n with h' | h' | h' <;> rw [h'.1] at h <;> cases h <;> simp

/-! ## Loads and stores -/

/-- What a load commits when its access check passes. -/
def State.loadCompletion (s : State) (sig : ControlSignals) (n : Nat) (ext : Word → Word) (addr : Word)
    (rt : RegIdx) : Completion :=
  { s.goOn sig addr with access := some addr, dest := some (rt, ext (memRead s.dmem addr.toNat n)) }

/-- What a store commits when its access check passes. -/
def State.storeCompletion (s : State) (sig : ControlSignals) (n : Nat) (addr v : Word) : Completion :=
  { s.goOn sig addr with access := some addr, dmem := some (memWrite s.dmem addr.toNat n v) }

/-- A load takes the fault of its access check, or commits the loaded value. -/
theorem State.load_cases (s : State) (sig : ControlSignals) (n : Nat) (ext : Word → Word) (addr : Word) (rt : RegIdx) :
    (∃ k, s.accessFault addr n = some k ∧ s.load sig n ext addr rt = s.takeFault k (some (sig, addr))) ∨
      (s.accessFault addr n = none ∧
        s.load sig n ext addr rt = s.complete (s.loadCompletion sig n ext addr rt)) := by
  unfold State.load State.loadCompletion
  cases h : s.accessFault addr n <;> simp

/-- A store takes the fault of its access check, or commits the stored bytes. -/
theorem State.store_cases (s : State) (sig : ControlSignals) (n : Nat) (addr v : Word) :
    (∃ k, s.accessFault addr n = some k ∧ s.store sig n addr v = s.takeFault k (some (sig, addr))) ∨
      (s.accessFault addr n = none ∧ s.store sig n addr v = s.complete (s.storeCompletion sig n addr v)) := by
  unfold State.store State.storeCompletion
  cases h : s.accessFault addr n <;> simp

/-! ## The program -/

/-- The place of an address in a program (10_state.md R34). -/
theorem Program.slot_eq_some {p : Program} {a : Word} {k : Nat} :
    p.slot a = some k ↔ a.toNat % 4 = 0 ∧ a.toNat = p.base.toNat + 4 * k ∧ k < p.words.length := by
  unfold Program.slot
  constructor
  · intro h
    split at h
    · rename_i hc
      cases h
      exact ⟨hc.1, by omega, hc.2.2.2⟩
    · simp at h
  · rintro ⟨h1, h2, h3⟩
    have : (a.toNat - p.base.toNat) / 4 = k := by omega
    rw [if_pos ⟨h1, by omega, by omega, by omega⟩, this]

/-- The word at an address of a program (10_state.md R34). -/
theorem Program.fetch_eq_some {p : Program} {a : Word} {w : InstrWord} :
    p.fetch a = some w ↔ a.toNat % 4 = 0 ∧ ∃ k, a.toNat = p.base.toNat + 4 * k ∧ p.words[k]? = some w := by
  unfold Program.fetch
  cases h : p.slot a with
  | none =>
    simp only [reduceCtorEq, false_iff, not_and, not_exists]
    intro h1 k h2 h3
    have hk : k < p.words.length := (List.getElem?_eq_some_iff.mp h3).1
    have := Program.slot_eq_some.mpr ⟨h1, h2, hk⟩
    simp [h] at this
  | some k =>
    obtain ⟨h1, h2, h3⟩ := Program.slot_eq_some.mp h
    constructor
    · exact fun hw => ⟨h1, k, h2, hw⟩
    · rintro ⟨-, k', h2', hw⟩
      have : k' = k := by omega
      exact this ▸ hw

/-- A word put at an aligned address is fetched from it. -/
theorem Program.fetch_putWord (p : Program) {a : Word} (ha : a.toNat % 4 = 0) (w : InstrWord) :
    (p.putWord a w).fetch a = some w := by
  rw [Program.fetch_eq_some]
  refine ⟨ha, ?_⟩
  unfold Program.putWord
  cases h : p.slot a with
  | none => exact ⟨0, by simp, by simp⟩
  | some k =>
    obtain ⟨-, h2, h3⟩ := Program.slot_eq_some.mp h
    exact ⟨k, h2, by simp [h3]⟩

/-- Putting a word at an aligned address keeps a program's addresses multiples of 4 that do not wrap. -/
theorem Program.wf_putWord {p : Program} (hp : p.wf = true) {a : Word} (ha : a.toNat % 4 = 0) (w : InstrWord) :
    (p.putWord a w).wf = true := by
  unfold Program.putWord
  cases p.slot a with
  | none =>
    have := a.isLt
    simp only [Program.wf, List.length_singleton, Bool.and_eq_true, beq_iff_eq, decide_eq_true_eq]
    omega
  | some k => simpa [Program.wf] using hp

end Sys2Proof.Machine
end

