-- ==== Sys2Proof/Laws/Step.lean ====
section
/-! SUPPORT. What one step can do, said once. -/

namespace Sys2Proof.Machine

/-- Every instruction answers a next state: no meaning stops. -/
theorem exec_next (i : Instr) (s : State) : ∃ t, exec i s = .next t := by
  cases i <;> exact ⟨_, rfl⟩

/-- Every step answers a next state: the faults of the core are taken, not answered (60_exceptions.md R287). -/
theorem step_next (s : State) : ∃ t, step s = .next t := by
  unfold step
  split
  · exact ⟨_, rfl⟩
  · split
    · exact ⟨_, rfl⟩
    · split
      · exact ⟨_, rfl⟩
      · exact exec_next _ _

/-- A step that answers `t`: nothing on a halted core; else InvalidPC, UnknownOpcode, or the decoded instruction
(40_datapath.md R152, R153). -/
theorem step_cases {s t : State} (h : step s = .next t) :
    (s.halted = true ∧ t = s) ∨
      (s.halted = false ∧ s.fetched = none ∧ t = s.takeFault .invalidPC none) ∨
      (∃ w e, s.halted = false ∧ s.fetched = some w ∧ decode w = .error e ∧ t = s.takeFault .unknownOpcode none) ∨
      (∃ w i, s.halted = false ∧ s.fetched = some w ∧ decode w = .ok i ∧ exec i s = .next t) := by
  unfold step at h
  cases hh : s.halted with
  | true => simp only [hh, if_true, Host.Outcome.next.injEq] at h; exact .inl ⟨rfl, h.symm⟩
  | false =>
    simp only [hh, Bool.false_eq_true, if_false] at h
    cases hf : s.fetched with
    | none => simp only [hf, Host.Outcome.next.injEq] at h; exact .inr (.inl ⟨rfl, rfl, h.symm⟩)
    | some w =>
      simp only [hf] at h
      cases hd : decode w with
      | error e =>
        simp only [hd, Host.Outcome.next.injEq] at h
        exact .inr (.inr (.inl ⟨w, e, rfl, rfl, hd, h.symm⟩))
      | ok i =>
        simp only [hd] at h
        exact .inr (.inr (.inr ⟨w, i, rfl, rfl, hd, h⟩))

/-- The three shapes of an instruction's effect: a commit, a memory fault, or HALT's stop. -/
theorem exec_cases {i : Instr} {s t : State} (h : exec i s = .next t) :
    (∃ c : Completion, t = s.complete c) ∨
      (∃ k attempt, k ≠ .none ∧ t = s.takeFault k (some attempt)) ∨
      (i = .halt ∧ t = s.haltStop (controlRow .halt)) := by
  have hload : ∀ sig n ext addr rt, t = s.load sig n ext addr rt →
      (∃ c : Completion, t = s.complete c) ∨ (∃ k attempt, k ≠ .none ∧ t = s.takeFault k (some attempt)) := by
    intro sig n ext addr rt ht
    rcases s.load_cases sig n ext addr rt with ⟨k, hk, e⟩ | ⟨-, e⟩
    · exact .inr ⟨k, _, State.accessFault_ne_none_kind hk, ht.trans e⟩
    · exact .inl ⟨_, ht.trans e⟩
  have hstore : ∀ sig n addr v, t = s.store sig n addr v →
      (∃ c : Completion, t = s.complete c) ∨ (∃ k attempt, k ≠ .none ∧ t = s.takeFault k (some attempt)) := by
    intro sig n addr v ht
    rcases s.store_cases sig n addr v with ⟨k, hk, e⟩ | ⟨-, e⟩
    · exact .inr ⟨k, _, State.accessFault_ne_none_kind hk, ht.trans e⟩
    · exact .inl ⟨_, ht.trans e⟩
  cases i <;> simp only [exec, Host.Outcome.next.injEq, execLdur, execStur, execLdursw, execSturw, execLdurb,
    execSturb, execHalt] at h
  case ldur => exact (hload _ _ _ _ _ h.symm).imp_right .inl
  case ldursw => exact (hload _ _ _ _ _ h.symm).imp_right .inl
  case ldurb => exact (hload _ _ _ _ _ h.symm).imp_right .inl
  case stur => exact (hstore _ _ _ _ h.symm).imp_right .inl
  case sturw => exact (hstore _ _ _ _ h.symm).imp_right .inl
  case sturb => exact (hstore _ _ _ _ h.symm).imp_right .inl
  case halt => exact .inr (.inr ⟨rfl, h.symm⟩)
  all_goals exact .inl ⟨_, (Host.Outcome.next.inj h).symm⟩

/-- `pc &&& ~~~3` is a multiple of 4. -/
theorem toNat_and_not_three (a : Word) : (a &&& ~~~3).toNat % 4 = 0 := by
  have h : ((a &&& ~~~3).extractLsb' 0 2) = 0 := by
    ext i hi
    interval_cases i <;> simp
  have := congrArg BitVec.toNat h
  simpa [BitVec.extractLsb'_toNat] using this

/-- The next step after `withFetchWord` fetches the word put there. -/
theorem State.fetched_withFetchWord (s : State) (n w : Nat) : (s.withFetchWord n w).fetched = some (tableWord n w) :=
  Program.fetch_putWord _ (toNat_and_not_three s.pc) _

/-- And runs exactly the instruction the decoder reads from it. -/
theorem State.step_withFetchWord (s : State) {n w : Nat} {i : Instr} (h : decodeTableWord n w = some i) :
    step (s.withFetchWord n w) = exec i (s.withFetchWord n w) := by
  unfold decodeTableWord at h
  split at h
  · simp at h
  · cases hd : decode (tableWord n w) with
    | error e => simp [hd] at h
    | ok j =>
      simp only [hd, Option.some.injEq] at h
      subst h
      simp [step, State.fetched_withFetchWord, hd]

end Sys2Proof.Machine
end

