-- ==== Sys2Proof/Laws/Forms.lean ====
section
/-! SUPPORT. A commit, a memory fault and a stop in the terms of Safety.lean, once for all instructions. -/

namespace Sys2Proof.Machine

/-- The observation of a commit (40_datapath.md R155). -/
theorem State.complete_observed (s : State) (c : Completion) :
    CompletedObs s (s.complete c) c.signals c.aluResult c.access (c.dest.map (·.1)) (s.completeObs c) := by
  refine ⟨rfl, rfl, rfl, rfl, rfl, rfl, rfl, rfl, ?_, rfl, rfl, rfl⟩
  rcases h : c.dest with - | ⟨rd, v⟩
  · simp [State.completeObs, Completion.regWritten, Completion.regValue, h]
  · by_cases hd : rd = 31#5
    · simp [State.completeObs, Completion.regWritten, Completion.regValue, h, hd, Config.xzr]
    · simp [State.completeObs, Completion.regWritten, Completion.regValue, h, hd, Config.xzr, State.complete_reg]

/-- A commit with a destination writes that register and no other. -/
theorem State.complete_writesReg (s : State) {c : Completion} {rd : RegIdx} {v : Word} (h : c.dest = some (rd, v)) :
    WritesReg s (s.complete c) rd v := by
  refine ⟨?_, fun r hr => ?_⟩
  · rw [State.complete_reg_some s h]
    by_cases hd : rd = 31#5
    · subst hd; simp [Config.xzr]
    · simp [hd, Config.xzr]
  · rw [State.complete_reg_some s h, if_neg fun e => hr e.1]

/-- A commit without a destination keeps every register. -/
theorem State.complete_sameRegs (s : State) {c : Completion} (h : c.dest = none) : SameRegs s (s.complete c) :=
  State.complete_reg_none s h

/-- A commit that stores nothing keeps every byte. -/
theorem State.complete_sameMem (s : State) {c : Completion} (h : c.dmem = none) : SameMem s (s.complete c) :=
  fun a => by simp [h, State.byte]

/-- A commit keeps the run state. -/
theorem State.complete_sameRunState (s : State) (c : Completion) : SameRunState s (s.complete c) :=
  ⟨rfl, rfl, rfl, rfl⟩

/-- Taking a fault is `FaultForm` (60_exceptions.md R287). -/
theorem State.takeFault_form (s : State) (k : FaultKind) (attempt : Option (ControlSignals × Word)) :
    FaultForm s (s.takeFault k attempt) k attempt :=
  ⟨_, ⟨rfl, rfl, rfl, rfl, rfl, rfl, rfl, rfl, rfl, rfl, rfl, rfl, rfl⟩, rfl⟩

/-- A store's bytes (20_memory.md R54). -/
theorem writesMem_of_dmem {s t : State} {addr n : Nat} {v : Word} (h : t.dmem = memWrite s.dmem addr n v) :
    WritesMem s t addr n v := by
  refine ⟨fun k hk => ?_, fun a ha => ?_⟩
  · unfold State.byte
    rw [h, get_memWrite, if_pos ⟨by omega, by omega⟩, Nat.add_sub_cancel_left]
  · unfold State.byte
    rw [h, get_memWrite, if_neg ha]

/-- The value of a load is the number its bytes make (20_memory.md R53). -/
theorem memRead_eq_bytesAt (s : State) (addr n : Nat) (hn : n ≤ 8) :
    (memRead s.dmem addr n).toNat = s.bytesAt addr n := by
  have key : ∀ n addr, n ≤ 8 → (memRead s.dmem addr n).toNat = s.bytesAt addr n ∧ s.bytesAt addr n < 256 ^ n := by
    intro n
    induction n with
    | zero => intro addr _; exact ⟨rfl, by simp [State.bytesAt]⟩
    | succ n ih =>
      intro addr h
      obtain ⟨h1, h2⟩ := ih (addr + 1) (by omega)
      have hb : (s.dmem.get addr).toNat < 256 := (s.dmem.get addr).isLt
      have hp : 256 ^ n ≤ 256 ^ 7 := Nat.pow_le_pow_right (by omega) (by omega)
      have hlt : s.bytesAt (addr + 1) n * 2 ^ 8 < 2 ^ 64 := by omega
      have hs : 256 ^ (n + 1) = 256 ^ n * 256 := Nat.pow_succ ..
      refine ⟨?_, by simp only [State.bytesAt, State.byte]; omega⟩
      rw [memRead, BitVec.toNat_or, BitVec.toNat_shiftLeft, h1, Nat.shiftLeft_eq, Nat.mod_eq_of_lt hlt,
        BitVec.toNat_setWidth, Nat.mod_eq_of_lt (by omega), Nat.mul_comm,
        ← Nat.two_pow_add_eq_or_of_lt (by simpa using hb)]
      simp only [State.bytesAt, State.byte]
      omega
  exact (key n addr hn).1

end Sys2Proof.Machine
end

