-- ==== Sys2Proof/Laws/PerInstr.lean ====
section
/-! SUPPORT. The family `Encoding`, one lemma per instruction: decoding a well-formed instruction's word gives it back
(30_encoding.md R119). -/

namespace Sys2Proof.Laws.Encoding

/-- The word of a well-formed instruction decodes to it. -/
def Statement (i : Instr) : Prop := i.wellFormed = true → decode (encode i) = .ok i

/-- A word of a row decodes by that row's slices. -/
theorem of_row {i : Instr} (r : OpRow) (hr : r ∈ opcodeMap) (hw : encode i &&& r.mask = r.pattern)
    (hi : Instr.ofFields (.ofWord r.kind r.format (encode i)) = .ok i) : Statement i := fun _ => by
  rw [decode_of_row hr hw, hi]

theorem add (rd rn rm : RegIdx) : Statement (.add rd rn rm) :=
  of_row ⟨.add, .R, 0x8B000000, 0xFFE00000⟩ (by decide) ((encodeR_opcode ..).trans (by rfl))
    (by simp [Instr.ofFields, DecodedFields.ofWord, encode])
theorem adds (rd rn rm : RegIdx) : Statement (.adds rd rn rm) :=
  of_row ⟨.adds, .R, 0xAB000000, 0xFFE00000⟩ (by decide) ((encodeR_opcode ..).trans (by rfl))
    (by simp [Instr.ofFields, DecodedFields.ofWord, encode])
theorem sub (rd rn rm : RegIdx) : Statement (.sub rd rn rm) :=
  of_row ⟨.sub, .R, 0xCB000000, 0xFFE00000⟩ (by decide) ((encodeR_opcode ..).trans (by rfl))
    (by simp [Instr.ofFields, DecodedFields.ofWord, encode])
theorem subs (rd rn rm : RegIdx) : Statement (.subs rd rn rm) := fun h => by
  have hd : rd ≠ Config.xzr := by simpa [Instr.wellFormed] using h
  rw [encode, decode_of_row (r := ⟨.subs, .R, 0xEB000000, 0xFFE00000⟩) (by decide) ((encodeR_opcode ..).trans (by rfl))]
  simp [Instr.ofFields, DecodedFields.ofWord, hd]
theorem and (rd rn rm : RegIdx) : Statement (.and rd rn rm) :=
  of_row ⟨.and, .R, 0x8A000000, 0xFFE00000⟩ (by decide) ((encodeR_opcode ..).trans (by rfl))
    (by simp [Instr.ofFields, DecodedFields.ofWord, encode])
theorem orr (rd rn rm : RegIdx) : Statement (.orr rd rn rm) :=
  of_row ⟨.orr, .R, 0xAA000000, 0xFFE00000⟩ (by decide) ((encodeR_opcode ..).trans (by rfl))
    (by simp [Instr.ofFields, DecodedFields.ofWord, encode])
theorem eor (rd rn rm : RegIdx) : Statement (.eor rd rn rm) :=
  of_row ⟨.eor, .R, 0xCA000000, 0xFFE00000⟩ (by decide) ((encodeR_opcode ..).trans (by rfl))
    (by simp [Instr.ofFields, DecodedFields.ofWord, encode])
theorem lsl (rd rn : RegIdx) (sh : BitVec 6) : Statement (.lsl rd rn sh) :=
  of_row ⟨.lsl, .R, 0xD3600000, 0xFFE00000⟩ (by decide) ((encodeR_opcode ..).trans (by rfl))
    (by simp [Instr.ofFields, DecodedFields.ofWord, encode])
theorem lsr (rd rn : RegIdx) (sh : BitVec 6) : Statement (.lsr rd rn sh) :=
  of_row ⟨.lsr, .R, 0xD3400000, 0xFFE00000⟩ (by decide) ((encodeR_opcode ..).trans (by rfl))
    (by simp [Instr.ofFields, DecodedFields.ofWord, encode])
theorem addi (rd rn : RegIdx) (imm : BitVec 12) : Statement (.addi rd rn imm) :=
  of_row ⟨.addi, .I, 0x91000000, 0xFFC00000⟩ (by decide) ((encodeI_opcode ..).trans (by rfl))
    (by simp [Instr.ofFields, DecodedFields.ofWord, encode])
theorem subi (rd rn : RegIdx) (imm : BitVec 12) : Statement (.subi rd rn imm) :=
  of_row ⟨.subi, .I, 0xD1000000, 0xFFC00000⟩ (by decide) ((encodeI_opcode ..).trans (by rfl))
    (by simp [Instr.ofFields, DecodedFields.ofWord, encode])
theorem movz (rd : RegIdx) (imm : BitVec 16) (hw : BitVec 2) : Statement (.movz rd imm hw) :=
  of_row ⟨.movz, .IM, 0xD2800000, 0xFF800000⟩ (by decide) ((encodeIM_opcode ..).trans (by rfl))
    (by simp [Instr.ofFields, DecodedFields.ofWord, encode])
theorem ldur (rt rn : RegIdx) (dt9 : BitVec 9) : Statement (.ldur rt rn dt9) :=
  of_row ⟨.ldur, .D, 0xF8400000, 0xFFE00000⟩ (by decide) ((encodeD_opcode ..).trans (by rfl))
    (by simp [Instr.ofFields, DecodedFields.ofWord, encode])
theorem stur (rt rn : RegIdx) (dt9 : BitVec 9) : Statement (.stur rt rn dt9) :=
  of_row ⟨.stur, .D, 0xF8000000, 0xFFE00000⟩ (by decide) ((encodeD_opcode ..).trans (by rfl))
    (by simp [Instr.ofFields, DecodedFields.ofWord, encode])
theorem ldursw (rt rn : RegIdx) (dt9 : BitVec 9) : Statement (.ldursw rt rn dt9) :=
  of_row ⟨.ldursw, .D, 0xB8800000, 0xFFE00000⟩ (by decide) ((encodeD_opcode ..).trans (by rfl))
    (by simp [Instr.ofFields, DecodedFields.ofWord, encode])
theorem sturw (rt rn : RegIdx) (dt9 : BitVec 9) : Statement (.sturw rt rn dt9) :=
  of_row ⟨.sturw, .D, 0xB8000000, 0xFFE00000⟩ (by decide) ((encodeD_opcode ..).trans (by rfl))
    (by simp [Instr.ofFields, DecodedFields.ofWord, encode])
theorem ldurb (rt rn : RegIdx) (dt9 : BitVec 9) : Statement (.ldurb rt rn dt9) :=
  of_row ⟨.ldurb, .D, 0x38400000, 0xFFE00000⟩ (by decide) ((encodeD_opcode ..).trans (by rfl))
    (by simp [Instr.ofFields, DecodedFields.ofWord, encode])
theorem sturb (rt rn : RegIdx) (dt9 : BitVec 9) : Statement (.sturb rt rn dt9) :=
  of_row ⟨.sturb, .D, 0x38000000, 0xFFE00000⟩ (by decide) ((encodeD_opcode ..).trans (by rfl))
    (by simp [Instr.ofFields, DecodedFields.ofWord, encode])
theorem b (off : BitVec 26) : Statement (.b off) :=
  of_row ⟨.b, .B, 0x14000000, 0xFC000000⟩ (by decide) ((encodeB_opcode ..).trans (by rfl))
    (by simp [Instr.ofFields, DecodedFields.ofWord, encode])
theorem bEq (off : BitVec 19) : Statement (.bEq off) :=
  of_row ⟨.bcond, .CB, 0x54000000, 0xFF00001F⟩ (by decide) ((encodeCB_opcode_cond ..).trans (by rfl))
    (by simp [Instr.ofFields, DecodedFields.ofWord, encode, encodeBcond, Instr.bCond])
theorem bNe (off : BitVec 19) : Statement (.bNe off) :=
  of_row ⟨.bcond, .CB, 0x54000001, 0xFF00001F⟩ (by decide) ((encodeCB_opcode_cond ..).trans (by rfl))
    (by simp [Instr.ofFields, DecodedFields.ofWord, encode, encodeBcond, Instr.bCond])
theorem bHs (off : BitVec 19) : Statement (.bHs off) :=
  of_row ⟨.bcond, .CB, 0x54000002, 0xFF00001F⟩ (by decide) ((encodeCB_opcode_cond ..).trans (by rfl))
    (by simp [Instr.ofFields, DecodedFields.ofWord, encode, encodeBcond, Instr.bCond])
theorem bLo (off : BitVec 19) : Statement (.bLo off) :=
  of_row ⟨.bcond, .CB, 0x54000003, 0xFF00001F⟩ (by decide) ((encodeCB_opcode_cond ..).trans (by rfl))
    (by simp [Instr.ofFields, DecodedFields.ofWord, encode, encodeBcond, Instr.bCond])
theorem bMi (off : BitVec 19) : Statement (.bMi off) :=
  of_row ⟨.bcond, .CB, 0x54000004, 0xFF00001F⟩ (by decide) ((encodeCB_opcode_cond ..).trans (by rfl))
    (by simp [Instr.ofFields, DecodedFields.ofWord, encode, encodeBcond, Instr.bCond])
theorem bPl (off : BitVec 19) : Statement (.bPl off) :=
  of_row ⟨.bcond, .CB, 0x54000005, 0xFF00001F⟩ (by decide) ((encodeCB_opcode_cond ..).trans (by rfl))
    (by simp [Instr.ofFields, DecodedFields.ofWord, encode, encodeBcond, Instr.bCond])
theorem bVs (off : BitVec 19) : Statement (.bVs off) :=
  of_row ⟨.bcond, .CB, 0x54000006, 0xFF00001F⟩ (by decide) ((encodeCB_opcode_cond ..).trans (by rfl))
    (by simp [Instr.ofFields, DecodedFields.ofWord, encode, encodeBcond, Instr.bCond])
theorem bVc (off : BitVec 19) : Statement (.bVc off) :=
  of_row ⟨.bcond, .CB, 0x54000007, 0xFF00001F⟩ (by decide) ((encodeCB_opcode_cond ..).trans (by rfl))
    (by simp [Instr.ofFields, DecodedFields.ofWord, encode, encodeBcond, Instr.bCond])
theorem bHi (off : BitVec 19) : Statement (.bHi off) :=
  of_row ⟨.bcond, .CB, 0x54000008, 0xFF00001F⟩ (by decide) ((encodeCB_opcode_cond ..).trans (by rfl))
    (by simp [Instr.ofFields, DecodedFields.ofWord, encode, encodeBcond, Instr.bCond])
theorem bLs (off : BitVec 19) : Statement (.bLs off) :=
  of_row ⟨.bcond, .CB, 0x54000009, 0xFF00001F⟩ (by decide) ((encodeCB_opcode_cond ..).trans (by rfl))
    (by simp [Instr.ofFields, DecodedFields.ofWord, encode, encodeBcond, Instr.bCond])
theorem bGe (off : BitVec 19) : Statement (.bGe off) :=
  of_row ⟨.bcond, .CB, 0x5400000A, 0xFF00001F⟩ (by decide) ((encodeCB_opcode_cond ..).trans (by rfl))
    (by simp [Instr.ofFields, DecodedFields.ofWord, encode, encodeBcond, Instr.bCond])
theorem bLt (off : BitVec 19) : Statement (.bLt off) :=
  of_row ⟨.bcond, .CB, 0x5400000B, 0xFF00001F⟩ (by decide) ((encodeCB_opcode_cond ..).trans (by rfl))
    (by simp [Instr.ofFields, DecodedFields.ofWord, encode, encodeBcond, Instr.bCond])
theorem bGt (off : BitVec 19) : Statement (.bGt off) :=
  of_row ⟨.bcond, .CB, 0x5400000C, 0xFF00001F⟩ (by decide) ((encodeCB_opcode_cond ..).trans (by rfl))
    (by simp [Instr.ofFields, DecodedFields.ofWord, encode, encodeBcond, Instr.bCond])
theorem bLe (off : BitVec 19) : Statement (.bLe off) :=
  of_row ⟨.bcond, .CB, 0x5400000D, 0xFF00001F⟩ (by decide) ((encodeCB_opcode_cond ..).trans (by rfl))
    (by simp [Instr.ofFields, DecodedFields.ofWord, encode, encodeBcond, Instr.bCond])
theorem cbz (rt : RegIdx) (off : BitVec 19) : Statement (.cbz rt off) :=
  of_row ⟨.cbz, .CB, 0xB4000000, 0xFF000000⟩ (by decide) ((encodeCB_opcode ..).trans (by rfl))
    (by simp [Instr.ofFields, DecodedFields.ofWord, encode])
theorem cbnz (rt : RegIdx) (off : BitVec 19) : Statement (.cbnz rt off) :=
  of_row ⟨.cbnz, .CB, 0xB5000000, 0xFF000000⟩ (by decide) ((encodeCB_opcode ..).trans (by rfl))
    (by simp [Instr.ofFields, DecodedFields.ofWord, encode])
theorem halt : Statement (.halt) :=
  of_row ⟨.halt, .R, 0xFFE00000, 0xFFE00000⟩ (by decide) ((encodeR_opcode ..).trans (by rfl))
    (by simp [Instr.ofFields, DecodedFields.ofWord, encode])
theorem cmp (rn rm : RegIdx) : Statement (.cmp rn rm) :=
  of_row ⟨.subs, .R, 0xEB000000, 0xFFE00000⟩ (by decide) ((encodeR_opcode ..).trans (by rfl))
    (by simp [Instr.ofFields, DecodedFields.ofWord, encode])

end Sys2Proof.Laws.Encoding
end

