-- ==== Sys2Proof/Tests/Slice0.lean ====
section
/-! SUPPORT. Tests of single words and single steps; the expected results are the spec's worked examples and vectors
(95_test_vectors.md), named in each comment. At the end, a witness for the hypotheses of each statement that has some. -/

namespace Sys2Proof.Tests

open Sys2Proof Sys2Proof.Machine

/-! ## Helpers -/

/-- A core about to run the one word `w` at `pc`, MEM_SIZE 64 as in 95_test_vectors.md. -/
def at' (pc : Word) (w : InstrWord) : State := { State.loaded 64 ⟨pc, [w]⟩ with pc := pc }

/-- With `x[r] = v`. -/
def put (s : State) (r : RegIdx) (v : Word) : State := { s with x := writeReg s.x r v }

/-- With the flags NZCV. -/
def nzcv (s : State) (n z c v : Bool) : State := { s with flags := ⟨n, z, c, v⟩ }

/-- With the memory `m`. -/
def mem (s : State) (m : Memory) : State := { s with dmem := m }

/-- The state after one step. -/
def after (s : State) : State :=
  match step s with
  | .next t => t
  | .fault _ => s
  | .refused _ => s

/-- It is the state the step answers. -/
theorem step_after (s : State) : step s = .next (after s) := by
  obtain ⟨t, h⟩ := step_next s
  unfold after
  rw [h]

/-- The store vectors' start (95_test_vectors.md V7): x1 = 16, x3 = 0x1122334455667788. -/
def v7 (w : InstrWord) : State := put (put (at' 0 w) 1 16) 3 0x1122334455667788

/-- The load vectors' start (95_test_vectors.md V7). -/
def v7m (w : InstrWord) : State :=
  mem (v7 w) [(16, 0x11), (17, 0x22), (18, 0x33), (19, 0x44), (20, 0x55), (21, 0x66), (22, 0x77), (23, 0x88),
    (24, 0x01), (27, 0x80), (28, 0xFF)]

/-! ## WellFormed -/

/-- SUBS to register 31 is written CMP (30_encoding.md R116, log entry 3). -/
theorem test_wf_refuses_subs_to_31 : (Instr.subs 31 1 2).wellFormed = false := by decide
theorem test_wf_accepts_cmp : (Instr.cmp 1 2).wellFormed = true := by decide
theorem test_wf_accepts_subs : (Instr.subs 30 1 2).wellFormed = true := by decide

/-! ## Decoding: a word of every constructor, written out from the spec -/

/-- 95_test_vectors.md V10: ADD X1, X2, X2 with shamt 3 ignored. -/
theorem test_decode_add : decode 0x8B020C41 = .ok (.add 1 2 2) := by decide
/-- 95_test_vectors.md E9: ADDS X0, X1, X2. -/
theorem test_decode_adds : decode 0xAB020020 = .ok (.adds 0 1 2) := by decide
/-- 30_encoding.md R82, R88: opcode 0x658, Rm 3, shamt 0, Rn 2, Rd 1. -/
theorem test_decode_sub : decode 0b11001011000_00011_000000_00010_00001 = .ok (.sub 1 2 3) := by decide
/-- 30_encoding.md R82, R88: opcode 0x758, Rm 3, shamt 0, Rn 2, Rd 1. -/
theorem test_decode_subs : decode 0b11101011000_00011_000000_00010_00001 = .ok (.subs 1 2 3) := by decide
/-- 30_encoding.md R82, R88, R93: opcode 0x450, Rm 3, shamt ignored, Rn 2, Rd 1. -/
theorem test_decode_and : decode 0b10001010000_00011_111111_00010_00001 = .ok (.and 1 2 3) := by decide
/-- 30_encoding.md R82, R88: opcode 0x550, Rm 3, shamt 0, Rn 2, Rd 1. -/
theorem test_decode_orr : decode 0b10101010000_00011_000000_00010_00001 = .ok (.orr 1 2 3) := by decide
/-- 30_encoding.md R82, R88: opcode 0x650, Rm 3, shamt 0, Rn 2, Rd 1. -/
theorem test_decode_eor : decode 0b11001010000_00011_000000_00010_00001 = .ok (.eor 1 2 3) := by decide
/-- 95_test_vectors.md V10: LSL X1, X2, #63 with Rm 15 ignored. -/
theorem test_decode_lsl : decode 0xD36FFC41 = .ok (.lsl 1 2 63) := by decide
/-- 30_encoding.md R82, R88: opcode 0x69A, Rm 0, shamt 63, Rn 2, Rd 1. -/
theorem test_decode_lsr : decode 0b11010011010_00000_111111_00010_00001 = .ok (.lsr 1 2 63) := by decide
/-- 95_test_vectors.md V4: ADDI X1, X2, #-2048. -/
theorem test_decode_addi : decode 0x91200041 = .ok (.addi 1 2 0x800) := by decide
/-- 95_test_vectors.md V4: SUBI X1, X2, #-1. -/
theorem test_decode_subi : decode 0xD13FFC41 = .ok (.subi 1 2 0xFFF) := by decide
/-- 95_test_vectors.md V4: MOVZ X1, #48879, LSL #48. -/
theorem test_decode_movz : decode 0xD2F7DDE1 = .ok (.movz 1 48879 3) := by decide
/-- 95_test_vectors.md V10: LDUR X5, [X1, #-8] with op2 3 ignored. -/
theorem test_decode_ldur : decode 0xF85F8C25 = .ok (.ldur 5 1 0x1F8) := by decide
/-- 95_test_vectors.md V10: STUR X3, [SP, #8]. -/
theorem test_decode_stur : decode 0xF8008383 = .ok (.stur 3 28 8) := by decide
/-- 95_test_vectors.md V7: LDURSW X5, [X1, #8]. -/
theorem test_decode_ldursw : decode 0xB8808025 = .ok (.ldursw 5 1 8) := by decide
/-- 95_test_vectors.md V7: STURW X3, [X1, #4]. -/
theorem test_decode_sturw : decode 0xB8004023 = .ok (.sturw 3 1 4) := by decide
/-- 95_test_vectors.md V7: LDURB X5, [X1, #12]. -/
theorem test_decode_ldurb : decode 0x3840C025 = .ok (.ldurb 5 1 12) := by decide
/-- 95_test_vectors.md V7: STURB X3, [X1, #-1]. -/
theorem test_decode_sturb : decode 0x381FF023 = .ok (.sturb 3 1 0x1FF) := by decide
/-- 95_test_vectors.md V8: B -2. -/
theorem test_decode_b : decode 0x17FFFFFE = .ok (.b 0x3FFFFFE) := by decide
/-- 95_test_vectors.md V8: B.EQ +2. -/
theorem test_decode_bEq : decode 0x54000040 = .ok (.bEq 2) := by decide
/-- 30_encoding.md R86, R88: opcode 0x54, cbr19 3, cond 1. -/
theorem test_decode_bNe : decode 0b01010100_0000000000000000011_00001 = .ok (.bNe 3) := by decide
/-- 95_test_vectors.md P3u: B.HS +3. -/
theorem test_decode_bHs : decode 0x54000062 = .ok (.bHs 3) := by decide
/-- 30_encoding.md R86, R88: opcode 0x54, cbr19 3, cond 3. -/
theorem test_decode_bLo : decode 0b01010100_0000000000000000011_00011 = .ok (.bLo 3) := by decide
/-- 30_encoding.md R86, R88: opcode 0x54, cbr19 3, cond 4. -/
theorem test_decode_bMi : decode 0b01010100_0000000000000000011_00100 = .ok (.bMi 3) := by decide
/-- 30_encoding.md R86, R88: opcode 0x54, cbr19 3, cond 5. -/
theorem test_decode_bPl : decode 0b01010100_0000000000000000011_00101 = .ok (.bPl 3) := by decide
/-- 30_encoding.md R86, R88: opcode 0x54, cbr19 3, cond 6. -/
theorem test_decode_bVs : decode 0b01010100_0000000000000000011_00110 = .ok (.bVs 3) := by decide
/-- 30_encoding.md R86, R88: opcode 0x54, cbr19 3, cond 7. -/
theorem test_decode_bVc : decode 0b01010100_0000000000000000011_00111 = .ok (.bVc 3) := by decide
/-- 95_test_vectors.md V8: B.HI +3. -/
theorem test_decode_bHi : decode 0x54000068 = .ok (.bHi 3) := by decide
/-- 30_encoding.md R86, R88: opcode 0x54, cbr19 3, cond 9. -/
theorem test_decode_bLs : decode 0b01010100_0000000000000000011_01001 = .ok (.bLs 3) := by decide
/-- 95_test_vectors.md P3: B.GE +3. -/
theorem test_decode_bGe : decode 0x5400006A = .ok (.bGe 3) := by decide
/-- 95_test_vectors.md V8: B.LT -3. -/
theorem test_decode_bLt : decode 0x54FFFFAB = .ok (.bLt 0x7FFFD) := by decide
/-- 30_encoding.md R86, R88: opcode 0x54, cbr19 3, cond 12. -/
theorem test_decode_bGt : decode 0b01010100_0000000000000000011_01100 = .ok (.bGt 3) := by decide
/-- 95_test_vectors.md V8: B.LE -(2^18). -/
theorem test_decode_bLe : decode 0x5480000D = .ok (.bLe 0x40000) := by decide
/-- 95_test_vectors.md V8: CBZ XZR, -1. -/
theorem test_decode_cbz : decode 0xB4FFFFFF = .ok (.cbz 31 0x7FFFF) := by decide
/-- 95_test_vectors.md V8: CBNZ X5, -2. -/
theorem test_decode_cbnz : decode 0xB5FFFFC5 = .ok (.cbnz 5 0x7FFFE) := by decide
/-- 95_test_vectors.md V9: HALT with word[20:0] all ones, ignored. -/
theorem test_decode_halt : decode 0xFFFFFFFF = .ok (.halt) := by decide
/-- 95_test_vectors.md V10: CMP X1, X2. -/
theorem test_decode_cmp : decode 0xEB02003F = .ok (.cmp 1 2) := by decide
/-- 95_test_vectors.md V10: words that are no instruction. -/
theorem test_decode_undefined :
    decode 0x00000000 = .error .unknownOpcode ∧ decode 0x5400001F = .error .unknownOpcode ∧
      decode 0x94000000 = .error .unknownOpcode ∧ decode 0xD61F03C0 = .error .unknownOpcode ∧
      decode 0xF1000421 = .error .unknownOpcode ∧ decode 0x91400000 = .error .unknownOpcode ∧
      decode 0xD3A00000 = .error .unknownOpcode ∧ decode 0xB6000000 = .error .unknownOpcode := by decide
/-- The CMP row of spec/opcode_table.json. -/
theorem test_table_word : decodeTableWord 32 0xEB00001F = some (.cmp 0 0) := by decide
/-- 95_test_vectors.md P2: MOVZ X3, #48879, LSL #16. -/
theorem test_encode_mov : encode (.movz 3 48879 1) = 0xD2B7DDE3 := by decide

/-! ## One step of each instruction -/

/-- 95_test_vectors.md V1. -/
theorem test_add_wraps :
    (after (put (put (at' 0 0x8B020023) 1 0x8000000000000000) 2 0x8000000000000000)).reg 3 = 0 := by decide
/-- 95_test_vectors.md E8. -/
theorem test_add_to_31 : (after (put (at' 0 0x8B01003F) 1 2)).reg 31 = 0 := by decide
/-- 95_test_vectors.md V1, E9. -/
theorem test_adds_overflow :
    (after (put (put (at' 0 0xAB020020) 1 0x7FFFFFFFFFFFFFFF) 2 1)).reg 0 = 0x8000000000000000 := by decide
/-- 95_test_vectors.md V1, E9. -/
theorem test_adds_overflow_flags :
    (after (put (put (at' 0 0xAB020020) 1 0x7FFFFFFFFFFFFFFF) 2 1)).flags = ⟨true, false, false, true⟩ := by decide
/-- 95_test_vectors.md V1. -/
theorem test_sub_borrows : (after (put (put (at' 0 0xCB020023) 1 3) 2 5)).reg 3 = 0xFFFFFFFFFFFFFFFE := by decide
/-- 95_test_vectors.md V1. -/
theorem test_subs_overflow :
    (after (put (put (at' 0 0xEB020023) 1 0x8000000000000000) 2 1)).reg 3 = 0x7FFFFFFFFFFFFFFF := by decide
/-- 95_test_vectors.md V1. -/
theorem test_subs_overflow_flags :
    (after (put (put (at' 0 0xEB020023) 1 0x8000000000000000) 2 1)).flags = ⟨false, false, true, true⟩ := by decide
/-- 95_test_vectors.md V6. -/
theorem test_cmp_flags :
    (after (put (put (at' 0 0xEB02003F) 1 0xFFFFFFFFFFFFFFFF) 2 1)).flags = ⟨true, false, true, false⟩ := by decide
/-- 95_test_vectors.md V2. -/
theorem test_and :
    (after (put (put (at' 0 0x8A020023) 1 0xF0F0F0F0F0F0F0F0) 2 0xFF00FF00FF00FF00)).reg 3 = 0xF000F000F000F000 := by decide
/-- 95_test_vectors.md V2. -/
theorem test_orr :
    (after (put (put (at' 0 0xAA020023) 1 0xF0F0F0F0F0F0F0F0) 2 0xFF00FF00FF00FF00)).reg 3 = 0xFFF0FFF0FFF0FFF0 := by decide
/-- 95_test_vectors.md V2. -/
theorem test_eor :
    (after (put (put (at' 0 0xCA020023) 1 0xF0F0F0F0F0F0F0F0) 2 0xFF00FF00FF00FF00)).reg 3 = 0x0FF00FF00FF00FF0 := by decide
/-- 95_test_vectors.md V3. -/
theorem test_lsl : (after (put (at' 0 0xD3600423) 1 0x8000000000000001)).reg 3 = 2 := by decide
/-- 95_test_vectors.md V3. -/
theorem test_lsr : (after (put (at' 0 0xD340FC23) 1 0x8000000000000000)).reg 3 = 1 := by decide
/-- 95_test_vectors.md V4. -/
theorem test_addi_negative : (after (at' 0 0x91200041)).reg 1 = 0xFFFFFFFFFFFFF800 := by decide
/-- 95_test_vectors.md V4: ADDI SP, SP, #-16. -/
theorem test_addi_source_is_destination : (after (put (at' 0 0x913FC39C) 28 0x100)).reg 28 = 0xF0 := by decide
/-- 95_test_vectors.md V4. -/
theorem test_subi_negative :
    (after (put (at' 0 0xD1200041) 2 0x7FFFFFFFFFFFFFFF)).reg 1 = 0x80000000000007FF := by decide
/-- 95_test_vectors.md V4: the other bits are cleared. -/
theorem test_movz : (after (put (at' 0 0xD2A24681) 1 0xFFFFFFFFFFFFFFFF)).reg 1 = 0x12340000 := by decide
/-- 95_test_vectors.md V7. -/
theorem test_ldur : (after (v7m 0xF8400025)).reg 5 = 0x8877665544332211 := by decide
/-- 95_test_vectors.md V7. -/
theorem test_ldursw_negative : (after (v7m 0xB8808025)).reg 5 = 0xFFFFFFFF80000001 := by decide
/-- 95_test_vectors.md V7: LDURB X5, [X1, #47], the last byte of memory (20_memory.md R53). -/
theorem test_ldurb_last_byte : (after (mem (v7 0x3842F025) [(63, 0x80)])).reg 5 = 0x80 := by decide
/-- 95_test_vectors.md V7. -/
theorem test_ldurb_zero_extends : (after (v7m 0x3840C025)).reg 5 = 0xFF := by decide
/-- 95_test_vectors.md V7. -/
theorem test_stur :
    (after (v7 0xF81F0023)).dmem =
      [(0, 0x88), (1, 0x77), (2, 0x66), (3, 0x55), (4, 0x44), (5, 0x33), (6, 0x22), (7, 0x11)] := by decide
/-- 95_test_vectors.md V7. -/
theorem test_sturw : (after (v7 0xB8004023)).dmem = [(20, 0x88), (21, 0x77), (22, 0x66), (23, 0x55)] := by decide
/-- 95_test_vectors.md V7. -/
theorem test_sturb : (after (v7 0x381FF023)).dmem = [(15, 0x88)] := by decide
/-- 95_test_vectors.md V7. -/
theorem test_ldur_misaligned : (after (v7m 0xF8404025)).fault = .alignmentFault := by decide
/-- 95_test_vectors.md V7. -/
theorem test_ldur_past_the_end : (after (v7m 0xF8430025)).fault = .memoryBoundsFault := by decide
/-- 95_test_vectors.md V11. -/
theorem test_stur_misaligned : (after (put (at' 0 0xF8000023) 1 4)).fault = .alignmentFault := by decide
/-- 95_test_vectors.md V11. -/
theorem test_sturw_misaligned : (after (put (at' 0 0xB8000023) 1 6)).fault = .alignmentFault := by decide
/-- 95_test_vectors.md V7. -/
theorem test_ldursw_misaligned : (after (v7m 0xB8802025)).fault = .alignmentFault := by decide
/-- 95_test_vectors.md V7. -/
theorem test_ldurb_past_the_end : (after (v7m 0x38430025)).fault = .memoryBoundsFault := by decide
/-- 95_test_vectors.md V8. -/
theorem test_b_backward : (after (at' 0 0x17FFFFFF)).pc = 0xFFFFFFFFFFFFFFFC := by decide
/-- 95_test_vectors.md V8. -/
theorem test_b_far : (after (at' 0 0x15FFFFFF)).pc = 134217724 := by decide
/-- 95_test_vectors.md V5, NZCV = 0100. -/
theorem test_bEq_taken : (after (nzcv (at' 4 0x54000060) false true false false)).pc = 16 := by decide
/-- 95_test_vectors.md V5, NZCV = 1011. -/
theorem test_bEq_not_taken : (after (nzcv (at' 4 0x54000060) true false true true)).pc = 8 := by decide
/-- 95_test_vectors.md V5, NZCV = 1011. -/
theorem test_bNe_taken : (after (nzcv (at' 4 0x54000061) true false true true)).pc = 16 := by decide
/-- 95_test_vectors.md V5, NZCV = 0100. -/
theorem test_bNe_not_taken : (after (nzcv (at' 4 0x54000061) false true false false)).pc = 8 := by decide
/-- 95_test_vectors.md V5, NZCV = 0010. -/
theorem test_bHs_taken : (after (nzcv (at' 4 0x54000062) false false true false)).pc = 16 := by decide
/-- 95_test_vectors.md V5, NZCV = 1101. -/
theorem test_bHs_not_taken : (after (nzcv (at' 4 0x54000062) true true false true)).pc = 8 := by decide
/-- 95_test_vectors.md V5, NZCV = 1101. -/
theorem test_bLo_taken : (after (nzcv (at' 4 0x54000063) true true false true)).pc = 16 := by decide
/-- 95_test_vectors.md V5, NZCV = 0010. -/
theorem test_bLo_not_taken : (after (nzcv (at' 4 0x54000063) false false true false)).pc = 8 := by decide
/-- 95_test_vectors.md V5, NZCV = 1000. -/
theorem test_bMi_taken : (after (nzcv (at' 4 0x54000064) true false false false)).pc = 16 := by decide
/-- 95_test_vectors.md V5, NZCV = 0111. -/
theorem test_bMi_not_taken : (after (nzcv (at' 4 0x54000064) false true true true)).pc = 8 := by decide
/-- 95_test_vectors.md V5, NZCV = 0111. -/
theorem test_bPl_taken : (after (nzcv (at' 4 0x54000065) false true true true)).pc = 16 := by decide
/-- 95_test_vectors.md V5, NZCV = 1000. -/
theorem test_bPl_not_taken : (after (nzcv (at' 4 0x54000065) true false false false)).pc = 8 := by decide
/-- 95_test_vectors.md V5, NZCV = 0001. -/
theorem test_bVs_taken : (after (nzcv (at' 4 0x54000066) false false false true)).pc = 16 := by decide
/-- 95_test_vectors.md V5, NZCV = 1110. -/
theorem test_bVs_not_taken : (after (nzcv (at' 4 0x54000066) true true true false)).pc = 8 := by decide
/-- 95_test_vectors.md V5, NZCV = 1110. -/
theorem test_bVc_taken : (after (nzcv (at' 4 0x54000067) true true true false)).pc = 16 := by decide
/-- 95_test_vectors.md V5, NZCV = 0001. -/
theorem test_bVc_not_taken : (after (nzcv (at' 4 0x54000067) false false false true)).pc = 8 := by decide
/-- 95_test_vectors.md V5, NZCV = 0010. -/
theorem test_bHi_taken : (after (nzcv (at' 4 0x54000068) false false true false)).pc = 16 := by decide
/-- 95_test_vectors.md V5, NZCV = 0110. -/
theorem test_bHi_not_taken : (after (nzcv (at' 4 0x54000068) false true true false)).pc = 8 := by decide
/-- 95_test_vectors.md V5, NZCV = 0110. -/
theorem test_bLs_taken : (after (nzcv (at' 4 0x54000069) false true true false)).pc = 16 := by decide
/-- 95_test_vectors.md V5, NZCV = 0010. -/
theorem test_bLs_not_taken : (after (nzcv (at' 4 0x54000069) false false true false)).pc = 8 := by decide
/-- 95_test_vectors.md V5, NZCV = 1001. -/
theorem test_bGe_taken : (after (nzcv (at' 4 0x5400006A) true false false true)).pc = 16 := by decide
/-- 95_test_vectors.md V5, NZCV = 1000. -/
theorem test_bGe_not_taken : (after (nzcv (at' 4 0x5400006A) true false false false)).pc = 8 := by decide
/-- 95_test_vectors.md V5, NZCV = 1000. -/
theorem test_bLt_taken : (after (nzcv (at' 4 0x5400006B) true false false false)).pc = 16 := by decide
/-- 95_test_vectors.md V5, NZCV = 1001. -/
theorem test_bLt_not_taken : (after (nzcv (at' 4 0x5400006B) true false false true)).pc = 8 := by decide
/-- 95_test_vectors.md V5, NZCV = 1001. -/
theorem test_bGt_taken : (after (nzcv (at' 4 0x5400006C) true false false true)).pc = 16 := by decide
/-- 95_test_vectors.md V5, NZCV = 1101. -/
theorem test_bGt_not_taken : (after (nzcv (at' 4 0x5400006C) true true false true)).pc = 8 := by decide
/-- 95_test_vectors.md V5, NZCV = 1101. -/
theorem test_bLe_taken : (after (nzcv (at' 4 0x5400006D) true true false true)).pc = 16 := by decide
/-- 95_test_vectors.md V5, NZCV = 1001. -/
theorem test_bLe_not_taken : (after (nzcv (at' 4 0x5400006D) true false false true)).pc = 8 := by decide
/-- 95_test_vectors.md V8: CBZ XZR, -1. -/
theorem test_cbz_31_taken : (after (at' 4 0xB4FFFFFF)).pc = 0 := by decide
/-- 95_test_vectors.md V8. -/
theorem test_cbz_not_taken : (after (put (at' 4 0xB4000065) 5 1)).pc = 8 := by decide
/-- 95_test_vectors.md V8. -/
theorem test_cbnz_taken : (after (put (at' 16 0xB5FFFFC5) 5 0x8000000000000000)).pc = 8 := by decide
/-- 95_test_vectors.md V8. -/
theorem test_cbnz_31_not_taken : (after (at' 16 0xB5FFFFDF)).pc = 20 := by decide

/-! ## Observations (95_test_vectors.md V12) -/

/-- ADDI X1, XZR, #15. -/
theorem test_obs_addi :
    (after (at' 0 0x91003FE1)).lastObs =
      some ⟨0, 4, some 0x91003FE1, some ⟨true, true, false, false, false, false, false, false, .add, false⟩, some 15, none,
        false, false, some 1, some 15, ⟨false, false, false, false⟩, false, .none⟩ := by decide
/-- ADD XZR, X1, X1. -/
theorem test_obs_add_31 :
    (after (put (at' 0 0x8B01003F) 1 2)).lastObs =
      some ⟨0, 4, some 0x8B01003F, some ⟨true, false, false, false, false, false, false, false, .rType, false⟩, some 4, none,
        false, false, none, none, ⟨false, false, false, false⟩, false, .none⟩ := by decide
/-- STUR X3, [SP, #8]. -/
theorem test_obs_stur :
    (after (at' 12 0xF8008383)).lastObs =
      some ⟨12, 16, some 0xF8008383, some ⟨false, true, false, true, false, false, false, false, .add, false⟩, some 8, some 8,
        false, true, none, none, ⟨false, false, false, false⟩, false, .none⟩ := by decide
/-- LDUR X5, [SP, #8]. -/
theorem test_obs_ldur :
    (after (mem (at' 16 0xF8408385) [(8, 1)])).lastObs =
      some ⟨16, 20, some 0xF8408385, some ⟨true, true, true, false, true, false, false, false, .add, false⟩, some 8, some 8,
        true, false, some 5, some 1, ⟨false, false, false, false⟩, false, .none⟩ := by decide
/-- CBZ X5, +3. -/
theorem test_obs_cbz :
    (after (at' 4 0xB4000065)).lastObs =
      some ⟨4, 16, some 0xB4000065, some ⟨false, false, false, false, false, true, false, false, .pass, false⟩, some 0, none,
        false, false, none, none, ⟨false, false, false, false⟩, false, .none⟩ := by decide
/-- B -2. -/
theorem test_obs_b :
    (after (at' 8 0x17FFFFFE)).lastObs =
      some ⟨8, 0, some 0x17FFFFFE, some ⟨false, false, false, false, false, false, true, false, .none, false⟩, some 0, none,
        false, false, none, none, ⟨false, false, false, false⟩, false, .none⟩ := by decide
/-- HALT. -/
theorem test_obs_halt :
    (after (at' 20 0xFFE00000)).lastObs =
      some ⟨20, 20, some 0xFFE00000, some ⟨false, false, false, false, false, false, false, false, .none, true⟩, none, none,
        false, false, none, none, ⟨false, false, false, false⟩, true, .none⟩ := by decide
/-- STUR X2, [X1, #0]. -/
theorem test_obs_alignment_fault :
    (after (put (at' 8 0xF8000022) 1 20)).lastObs =
      some ⟨8, 8, some 0xF8000022, some ⟨false, true, false, true, false, false, false, false, .add, false⟩, some 20, some 20,
        false, true, none, none, ⟨false, false, false, false⟩, true, .alignmentFault⟩ := by decide
/-- The fetch of an address with no instruction. -/
theorem test_obs_invalid_pc :
    (after { at' 0 0x91003FE1 with pc := 4 }).lastObs = some ⟨4, 4, none, none, none, none, false, false, none, none,
      ⟨false, false, false, false⟩, true, .invalidPC⟩ := by decide
/-- The word 0. -/
theorem test_obs_unknown_opcode :
    (after (at' 0 0x00000000)).lastObs =
      some ⟨0, 0, some 0x00000000, none, none, none, false, false, none, none, ⟨false, false, false, false⟩, true, .unknownOpcode⟩ := by decide

/-! ## The host and the assembler -/

/-- 70_reset_and_hazards.md R311: a gap between the addresses is refused. -/
theorem test_load_refuses_a_gap :
    hostLoad 64 [(0, 0x91003FE1), (8, 0xFFE00000)] none = (none, .error .malformedProgram) := by decide
/-- 30_encoding.md R89: MOVZ's row and those of LSL and LSR differ in word[24:23]. -/
theorem test_rows_apart :
    slice 0xD2800000 23 2 ≠ slice 0xD3600000 23 2 ∧ slice 0xD2800000 23 2 ≠ slice 0xD3400000 23 2 := by decide
/-- Log entry 4: X99 is a register's spelling as an operand, also of a branch, and an identifier where a label stands. -/
theorem test_assemble_x99 :
    assembleText "X99: B X99\nADD X31, X1, X2" = .error [⟨.malformedOperand, 1⟩, ⟨.malformedOperand, 2⟩] := by rfl
/-- 60_exceptions.md R281: the codes of the table, and no others. -/
theorem test_fault_codes :
    [FaultKind.none, .unknownOpcode, .invalidPC, .alignmentFault, .memoryBoundsFault].map FaultKind.code =
      [0, 1, 2, 3, 4] ∧ FaultKind.ofCode 3 = some .alignmentFault ∧ FaultKind.ofCode 5 = Option.none := by decide
/-- 10_state.md R31, 60_exceptions.md R281, R284: a misaligned LDUR leaves code 3 in the register and the observation. -/
theorem test_fault_code_recorded :
    (after (v7m 0xF8404025)).faultCode = 3 ∧
      (after (v7m 0xF8404025)).lastObs.map StepObservation.faultCode = some 3 := by decide
/-- 70_reset_and_hazards.md R313: the host's step of ADDI X1, XZR, #15 leaves x1 = 15 and answers its observation. -/
theorem test_host_step :
    (hostStep (some (at' 0 0x91003FE1))).1.map (·.reg 1) = some 15 ∧
      (hostStep (some (at' 0 0x91003FE1))).2.toOption.map (·.map (·.regValue)) = some (some (some 15)) := by decide
/-- 70_reset_and_hazards.md R315: the signed reading of a register. -/
theorem test_get_register_signed :
    (hostGetRegister 1 (some (put (at' 0 0) 1 0xFFFFFFFFFFFFFFF9))).2 = .ok (-7) := by rfl
/-- The fetch word put after reset is fetched and runs (the opcode table's ADDI row with Rd = 1, imm12 = 15). -/
theorem test_with_fetch_word : (after (State.reset.withFetchWord 32 0x91003FE1)).reg 1 = 15 := by decide
/-- 95_test_vectors.md P4b: its source and its words. -/
theorem test_assemble_p4b :
    assembleText ("ADDI X5, XZR, #2\nSTART: CBZ X5, END // a comment\n  ADDI X5, X5, #-1\n  B START\n\n" ++
        "END:\n  HALT") =
      .ok [(0, 0x91000BE5), (4, 0xB4000065), (8, 0x913FFCA5), (12, 0x17FFFFFE), (16, 0xFFE00000)] := by rfl
/-- 95_test_vectors.md P2: MOVZ with a shift, a memory operand. -/
theorem test_assemble_p2 :
    assembleText "MOVZ X3, #48879, LSL #16\nSTUR X3, [SP, #8]\nSTURB X3, [SP, #-16]" =
      .ok [(0, 0xD2B7DDE3), (4, 0xF8008383), (8, 0x381F0383)] := by rfl
/-- 95_test_vectors.md E6: two START labels. -/
theorem test_assemble_duplicate_label :
    assembleText "START: HALT\nSTART: HALT" = .error [⟨.duplicateLabel, 2⟩] := by rfl
/-- 30_encoding.md R116, R118, R120: the other five errors, each with its line. -/
theorem test_assemble_errors :
    assembleText "ADDI X1, X2, #2048\nMUL X1, X2, X3\nCMP X1, #2\nADD X1, X2\nB NOWHERE" =
      .error [⟨.immediateOutOfRange, 1⟩, ⟨.unknownMnemonic, 2⟩, ⟨.malformedOperand, 3⟩, ⟨.operandCountMismatch, 4⟩,
        ⟨.undefinedLabel, 5⟩] := by rfl

/-! ## Witnesses: inputs that meet a statement's hypotheses, one theorem per statement, at the ends of the ranges -/

/-- `opcodeMap` backwards is a permutation of it, and a word matches a row. -/
theorem witness_OpcodeRowsAreDisjoint :
    opcodeMap.reverse.Perm opcodeMap ∧ (⟨.add, .R, 0x8B000000, 0xFFE00000⟩ : OpRow) ∈ opcodeMap ∧
      OpRow.matches ⟨.add, .R, 0x8B000000, 0xFFE00000⟩ 0x8B020C41 = true :=
  ⟨List.reverse_perm _, by decide, by decide⟩

/-- The conditions 0, 13, 14 and 31. -/
theorem witness_BcondConditionField :
    (slice 0x54000000 24 8 = 0x54 ∧ slice 0x54000000 0 5 = Cond.eq.code) ∧
      (slice 0x5400000D 24 8 = 0x54 ∧ (slice 0x5400000D 0 5).toNat = 13) ∧
      (slice 0x5400000E 24 8 = 0x54 ∧ (slice 0x5400000E 0 5).toNat = 14) ∧
      (slice 0x5400001F 24 8 = 0x54 ∧ (slice 0x5400001F 0 5).toNat = 31) := by decide

/-- ADD X1, X2, X2 with shamt 3 and with shamt 0. -/
theorem witness_IgnoredBitsDoNotMatter :
    decode 0x8B020C41 = .ok (.add 1 2 2) ∧
      (0x8B020C41 : InstrWord) &&& examinedBits .add = 0x8B020041 &&& examinedBits .add := by decide

/-- The widest operands of a format. -/
theorem witness_DecodeOfEncodeIsIdentity : (Instr.subs 30 31 31).wellFormed = true := by decide

/-- A word with every ignored bit set. -/
theorem witness_EncodeOfDecodeKeepsExaminedBits : decode 0xFFFFFFFF = .ok .halt := by decide

/-- A running core about to execute ADDI. -/
theorem witness_StepRunsTheDecodedInstruction :
    (at' 0 0x91003FE1).halted = false ∧ Executes (at' 0 0x91003FE1) (.addi 1 31 15) :=
  ⟨rfl, 0x91003FE1, by decide, by decide⟩

/-- A core halted by HALT, which meets the invariant. -/
theorem witness_HaltedStepChangesNothing :
    (after (at' 0 0xFFE00000)).halted = true ∧ (after (at' 0 0xFFE00000)).Inv := by
  have e : after (at' 0 0xFFE00000) = (at' 0 0xFFE00000).haltStop (controlRow .halt) := by decide
  rw [e]
  exact ⟨rfl, by decide, rfl, rfl, by decide, rfl, fun h => (by cases h), fun _ => rfl,
    fun o h => (by cases h; exact ⟨rfl, rfl, rfl, rfl, fun r hr => by cases hr⟩)⟩

/-- A core that meets the invariant with bytes in memory, about to store. -/
theorem witness_StepKeepsTheInvariant :
    (v7m 0xF81F0023).Inv ∧ step (v7m 0xF81F0023) = .next (after (v7m 0xF81F0023)) :=
  ⟨⟨by decide, by decide, by decide, by decide, by decide, by decide, by decide, fun o h => by cases h⟩, step_after _⟩

/-- A doubleword access that ends at MEM_SIZE; one misaligned; one past MEM_SIZE. -/
theorem witness_doubleword_access :
    (((v7 0).effAddr 1 40).toNat % 8 = 0 ∧ ((v7 0).effAddr 1 40).toNat + 8 = (v7 0).memSize) ∧
      ((v7 0).effAddr 1 4).toNat % 8 ≠ 0 ∧
      (((v7 0).effAddr 1 48).toNat % 8 = 0 ∧ (v7 0).memSize < ((v7 0).effAddr 1 48).toNat + 8) := by decide

/-- A word access that ends at MEM_SIZE; one misaligned; one past MEM_SIZE. -/
theorem witness_word_access :
    (((v7 0).effAddr 1 44).toNat % 4 = 0 ∧ ((v7 0).effAddr 1 44).toNat + 4 = (v7 0).memSize) ∧
      ((v7 0).effAddr 1 2).toNat % 4 ≠ 0 ∧
      (((v7 0).effAddr 1 48).toNat % 4 = 0 ∧ (v7 0).memSize < ((v7 0).effAddr 1 48).toNat + 4) := by decide

/-- A byte access to the last byte; one past it. -/
theorem witness_byte_access :
    (((v7 0).effAddr 1 47).toNat % 1 = 0 ∧ ((v7 0).effAddr 1 47).toNat + 1 = (v7 0).memSize) ∧
      (((v7 0).effAddr 1 48).toNat % 1 = 0 ∧ (v7 0).memSize < ((v7 0).effAddr 1 48).toNat + 1) := by decide

/-- A core with the largest MEM_SIZE, and every outcome of the check. -/
theorem witness_AccessChecks :
    State.memSize { v7 0 with memSize := 2 ^ 64 } = 2 ^ 64 ∧ (v7 0).accessFault 56 8 = none ∧
      (v7 0).accessFault 60 8 = some .alignmentFault ∧ (v7 0).accessFault 64 8 = some .memoryBoundsFault := by decide

/-- STUR X3, [X1] and LDUR X5, [X1] after it. -/
theorem witness_LoadAfterStoreReturnsTheValue :
    ((v7 0).effAddr 1 0).toNat % 8 = 0 ∧ ((v7 0).effAddr 1 0).toNat + 8 ≤ (v7 0).memSize ∧
      ∃ t u, exec (.stur 3 1 0) (v7 0) = .next t ∧ exec (.ldur 5 1 0) t = .next u ∧ (5 : RegIdx) ≠ 31 :=
  ⟨by decide, by decide, _, _, rfl, rfl, by decide⟩

/-- Two memories in canonical form, made in two orders. -/
theorem witness_EqualBytesAreEqualMemories :
    ((Memory.set [] 1 5).set 0 7).wf = true ∧ ((Memory.set [] 0 7).set 1 5).wf = true ∧
      ∀ a, ((Memory.set [] 1 5).set 0 7).get a = ((Memory.set [] 0 7).set 1 5).get a :=
  ⟨by decide, by decide, fun _ => rfl⟩

/-- Flags for which EQ holds, and flags for which it does not. -/
theorem witness_ConditionalBranches :
    CondTable .eq ⟨false, true, false, false⟩ ∧ ¬CondTable .eq ⟨false, false, false, false⟩ :=
  ⟨rfl, fun h => by cases h⟩

/-- A compare. -/
theorem witness_CompareThenConditionOrdersOperands : ∃ t, exec (.cmp 1 3) (v7 0) = .next t := ⟨_, rfl⟩

/-- A running core with pc at its program's last word; past the end, below the start, and between two words. -/
theorem witness_FetchReadsTheProgramOrFaults :
    ((at' 4 7).halted = false ∧ (at' 4 7).pc.toNat % 4 = 0 ∧
      (at' 4 7).pc.toNat = (at' 4 7).program.base.toNat + 4 * 0 ∧ (at' 4 7).program.words[0]? = some 7) ∧
    ∀ a ∈ ([8, 0, 6] : List Word), State.halted { at' 4 0 with pc := a } = false ∧
      ¬(a.toNat % 4 = 0 ∧ ∃ k, k < (at' 4 0).program.words.length ∧ a.toNat = (at' 4 0).program.base.toNat + 4 * k) := by
  refine ⟨by decide, fun a ha => ⟨rfl, ?_⟩⟩
  rintro ⟨-, k, hk, h⟩
  have hk : k < 1 := hk
  have h : a.toNat = 4 + 4 * k := h
  revert h
  simp only [List.mem_cons, List.not_mem_nil, or_false] at ha
  rcases ha with rfl | rfl | rfl <;> simp <;> omega

/-- A running core that fetches a word that matches no row. -/
theorem witness_UndefinedWordFaults :
    (at' 0 0x5400000E).halted = false ∧ (at' 0 0x5400000E).fetched = some 0x5400000E ∧
      ∀ r ∈ opcodeMap, r.matches 0x5400000E = false :=
  ⟨by decide, by decide, fun r hr => by
    have h : opcodeMap.find? (·.matches 0x5400000E) = none := by decide
    simpa using List.find?_eq_none.mp h r hr⟩

/-- A running core whose step faults. -/
theorem witness_FaultEntryChangesNothingElse :
    (v7m 0xF8404025).halted = false ∧ (v7m 0xF8404025).fault = .none ∧
      step (v7m 0xF8404025) = .next (after (v7m 0xF8404025)) ∧ (after (v7m 0xF8404025)).fault ≠ .none :=
  ⟨by decide, by decide, step_after _, by decide⟩

/-- Each stage's fault, and an instruction that accesses no memory. -/
theorem witness_FaultPriority :
    (State.fetched { at' 4 0 with pc := 0 } = none) ∧ decode 0 = .error .unknownOpcode ∧
      Executes (v7m 0xF8404025) (.ldur 5 1 4) ∧ dataAccess (.ldur 5 1 4) = some (1, 4, 8) ∧
      Executes (at' 0 0xFFE00000) .halt ∧ dataAccess .halt = none :=
  ⟨by decide, by decide, ⟨0xF8404025, by decide, by decide⟩, rfl, ⟨0xFFE00000, by decide, by decide⟩, rfl⟩

/-- A step that changes the flags. -/
theorem witness_OnlyAddsAndSubsChangeFlags :
    step (v7 0xEB02003F) = .next (after (v7 0xEB02003F)) ∧
      (after (v7 0xEB02003F)).flags ≠ (v7 0xEB02003F).flags :=
  ⟨step_after _, by decide⟩

/-- An instruction that is no B.cond. -/
theorem witness_OnlyBcondReadsFlags :
    (Instr.cbz 5 3).kind ≠ .bcond ∧ ∃ t, exec (.cbz 5 3) (v7 0) = .next t := ⟨by decide, _, rfl⟩

/-- A step that changes a register. -/
theorem witness_AtMostOneRegisterChanges :
    step (at' 0 0x91003FE1) = .next (after (at' 0 0x91003FE1)) ∧
      (after (at' 0 0x91003FE1)).reg 1 ≠ (at' 0 0x91003FE1).reg 1 :=
  ⟨step_after _, by decide⟩

/-- A step that changes a byte of memory. -/
theorem witness_OnlyStoresChangeMemory :
    step (v7 0x381FF023) = .next (after (v7 0x381FF023)) ∧
      (after (v7 0x381FF023)).byte 15 ≠ (v7 0x381FF023).byte 15 :=
  ⟨step_after _, by decide⟩

/-- A step that stores to address 0, where the program also has its word. -/
theorem witness_StepKeepsProgramAndMemSize :
    step (v7 0x381F0023) = .next (after (v7 0x381F0023)) ∧ (after (v7 0x381F0023)).byte 0 ≠ (v7 0x381F0023).byte 0 :=
  ⟨step_after _, by decide⟩

/-- A step that halts by HALT, one that halts by a fault, and one on a halted core. -/
theorem witness_OnlyHaltAndFaultsHalt :
    (at' 0 0xFFE00000).halted = false ∧ (after (at' 0 0xFFE00000)).halted = true ∧
      (at' 0 0).halted = false ∧ (after (at' 0 0)).halted = true ∧ (after (at' 0 0)).fault ≠ .none ∧
      (after (after (at' 0 0))).halted = true := by decide

/-- A running core about to load, one about to store, one whose store faults, and one that accesses no memory. -/
theorem witness_ObservationDescribesTheStep :
    ((v7m 0xF8400025).halted = false ∧ (v7m 0xF8400025).fault = .none ∧
      step (v7m 0xF8400025) = .next (after (v7m 0xF8400025)) ∧
      (after (v7m 0xF8400025)).reg 5 ≠ (v7m 0xF8400025).reg 5 ∧
      Executes (v7m 0xF8400025) (.ldur 5 1 0) ∧ dataAccess (.ldur 5 1 0) = some (1, 0, 8)) ∧
    ((after (v7 0x381FF023)).byte 15 ≠ (v7 0x381FF023).byte 15 ∧ Executes (v7 0x381FF023) (.sturb 3 1 0x1FF)) ∧
    (Executes (v7 0xF8004023) (.stur 3 1 4) ∧ (after (v7 0xF8004023)).fault = .alignmentFault) ∧
    ∀ i, Executes (at' 0 0xFFE00000) i → dataAccess i = none := by
  refine ⟨⟨by decide, by decide, step_after _, by decide, ⟨0xF8400025, by decide, by decide⟩, rfl⟩,
    ⟨by decide, ⟨0x381FF023, by decide, by decide⟩⟩, ⟨⟨0xF8004023, by decide, by decide⟩, by decide⟩, ?_⟩
  rintro i ⟨w, hf, hd⟩
  have e : (at' 0 0xFFE00000).fetched = some 0xFFE00000 := by decide
  have d : decode 0xFFE00000 = .ok .halt := by decide
  rw [e] at hf
  cases hf
  rw [d] at hd
  cases hd
  rfl

/-- A program of two words given backwards; the last words of the address space; the empty program; a gap. -/
theorem witness_LoadInstallsOrRefuses :
    IsProgram [(4, 0xFFE00000), (0, 0x91003FE1)] 0 [0x91003FE1, 0xFFE00000] ∧
      IsProgram [(0xFFFFFFFFFFFFFFFC, 0xFFE00000)] (2 ^ 64 - 4) [0xFFE00000] ∧ IsProgram [] 0 [] ∧
      ¬∃ base ws, IsProgram [(0, 0x91003FE1), (8, 0xFFE00000)] base ws := by
  refine ⟨⟨rfl, by decide, List.Perm.swap _ _ _⟩, ⟨rfl, by decide, List.Perm.refl _⟩,
    ⟨rfl, by decide, List.Perm.refl _⟩, ?_⟩
  rintro ⟨base, ws, -, h, hp⟩
  have hl := hp.length_eq
  match ws, hl with
  | [a, b], _ =>
    have h0 := hp.mem_iff.mp (List.mem_cons_self ..)
    have h8 := hp.mem_iff.mp (List.mem_cons_of_mem _ (List.mem_cons_self ..))
    simp only [entriesFrom, List.mem_cons, Prod.mk.injEq, List.not_mem_nil, or_false] at h0 h8
    have e := fun (x : Nat) (y : Word) (h : y = BitVec.ofNat 64 x) => congrArg BitVec.toNat h
    simp only [BitVec.toNat_ofNat, List.length_cons, List.length_nil] at e h
    rcases h0 with h0 | h0 <;> rcases h8 with h8 | h8 <;> have a0 := e _ _ h0.1 <;> have a8 := e _ _ h8.1 <;>
      simp at a0 a8 <;> omega
  | [], h => simp [entriesFrom] at h
  | [_], h => simp [entriesFrom] at h
  | _ :: _ :: _ :: _, h => simp [entriesFrom] at h

/-- The smallest and the largest MEM_SIZE, and a load that is not refused. -/
theorem witness_LoadAndResetMeetTheInvariant :
    Config.memSizeOk 1 ∧ Config.memSizeOk (2 ^ 64) ∧
      (∃ t, hostLoad 1 [(0, 0xFFE00000)] none = (some t, .ok ())) ∧ (at' 0 0).Inv :=
  ⟨by decide, by decide, ⟨_, rfl⟩, by decide, by decide, by decide, by decide, by decide, by decide, by decide,
    fun o h => by cases h⟩

/-- A bounded run that stops before its bound: HALT is the first instruction. -/
theorem witness_BoundedRunStops :
    (runSteps 3 (at' 0 0xFFE00000)).2.length = 1 ∧ (runSteps 3 (at' 0 0xFFE00000)).1.halted = true := by decide

/-- The ends of the ranges of `get_register` and `get_memory`. -/
theorem witness_HostReads :
    ((-1 : Int) < 0 ∧ (31 : Int) < 32) ∧ 63 < (at' 0 0).memSize ∧ ((at' 0 0).memSize : Int) ≤ 64 := by decide

/-- Two register names, both ends of imm12, dt9, shamt, imm16 and CBZ's offset, and one past each. -/
theorem witness_ImmediateRanges :
    (RegName.number (.x 30)).toOption = some 30 ∧ (RegName.number .xzr).toOption = some 31 ∧
      (signedField 11 (-2048)).toOption = some 0x800 ∧ (signedField 11 2048).toOption = none ∧
      (signedField 8 255).toOption = some 0xFF ∧ (signedField 8 (-257)).toOption = none ∧
      (unsignedField 6 63).toOption = some 63 ∧ (unsignedField 6 64).toOption = none ∧
      (unsignedField 16 65535).toOption = some 0xFFFF ∧ (unsignedField 16 (-1)).toOption = none ∧
      (Operand.toHw (.shift 48)).toOption = some 3 ∧ (Operand.toHw (.shift 17)).toOption = none ∧
      (asmStmt [] 0 (.plain .movz) [.reg .sp, .imm 65535, .shift 48]).toOption = some (.movz 28 0xFFFF 3) ∧
      (asmStmt [] 0 (.plain .movz) [.reg .sp, .imm 65536, .shift 48]).toOption = none ∧
      (LabelTable.address [(['A'], 2 ^ 20 - 4), (['B'], 2 ^ 20)] ['A']).toOption = some (2 ^ 20 - 4) ∧
      (asmStmt [(['A'], 2 ^ 20 - 4)] 0 (.plain .cbz) [.reg .sp, .label ['A']]).toOption = some (.cbz 28 0x3FFFF) ∧
      (asmStmt [(['B'], 2 ^ 20)] 0 (.plain .cbz) [.reg .sp, .label ['B']]).toOption = none := by decide

/-- B and CBZ at 12 to a label at 4, backward; B.EQ and CBNZ at 4 to a label at 16, forward. -/
theorem witness_BranchesResolveToTheirLabels :
    (LabelTable.address [(['A'], 4), (['B'], 16)] ['A']).toOption = some 4 ∧
      (asmStmt [(['A'], 4), (['B'], 16)] 12 (.plain .b) [.label ['A']]).toOption = some (.b 0x3FFFFFE) ∧
      (asmStmt [(['A'], 4), (['B'], 16)] 4 (.bcond .eq) [.label ['B']]).toOption = some (.bEq 3) ∧
      (asmStmt [(['A'], 4), (['B'], 16)] 12 (.plain .cbz) [.reg (.x 5), .label ['A']]).toOption = some (.cbz 5 0x7FFFE) ∧
      (asmStmt [(['A'], 4), (['B'], 16)] 4 (.plain .cbnz) [.reg .sp, .label ['B']]).toOption = some (.cbnz 28 3) ∧
      (at' 12 0).pc = BitVec.ofNat 64 12 ∧ (at' 12 0).reg 5 = 0 ∧ (put (at' 4 0) 28 1).reg 28 ≠ 0 ∧
      condHolds .eq (nzcv (at' 4 0) false true false false).flags = true := by decide

/-- A source that assembles: two labels on the first line, one on a line of its own, the last at the end. -/
theorem witness_AssembledProgramsLoadAtZero :
    let src : List SourceLine := [⟨1, [['A'], ['B']], some (.plain .b, [.label ['C']])⟩, ⟨2, [['C']], none⟩,
      ⟨3, [], some (.plain .halt, [])⟩, ⟨4, [['D']], none⟩]
    assemble src = .ok [(0, 0x14000001), (4, 0xFFE00000)] ∧ 4 * 2 ≤ 2 ^ 64 ∧
      ((pass1 0 src []).1.address ['B']).toOption = some 0 ∧ ((pass1 0 src []).1.address ['C']).toOption = some 4 ∧
      ((pass1 0 src []).1.address ['D']).toOption = some 8 ∧ (∀ line ∈ src, ['E'] ∉ line.labels) ∧
      (src.filter (·.stmt.isSome))[1]? = some ⟨3, [], some (.plain .halt, [])⟩ := by
  refine ⟨rfl, by decide, rfl, rfl, rfl, by decide, rfl⟩

/-- A line without `/`, a white space, and a line of white space alone. -/
theorem witness_CommentsAndWhiteSpaceAreStripped :
    '/' ∉ "HALT".toList ∧ isSpace ' ' = true ∧ " \t".toList.all isSpace = true := by decide

/-- A word that decodes. -/
theorem witness_ControlTable :
    decodeFields 0xB5FFFFC5 = .ok (.ofWord .cbnz .CB 0xB5FFFFC5) := by decide

end Sys2Proof.Tests
end

section
/-! Every step keeps the invariant (O13): each shared operation of Machine/Ops.lean keeps it, each
instruction is one of these operations, and a step is nothing, a fault or an instruction. -/

namespace Sys2Proof.Machine

/-! ## Addresses of instructions stay multiples of 4 -/

/-- The sum of two multiples of 4 is one, also where it wraps (10_state.md R27). -/
theorem toNat_add_mod_four {a b : Word} (ha : a.toNat % 4 = 0) (hb : b.toNat % 4 = 0) : (a + b).toNat % 4 = 0 := by
  rw [BitVec.toNat_add]
  omega

/-- What is shifted left by 2 is a multiple of 4. -/
theorem toNat_shiftLeft_two_mod_four (a : Word) : (a <<< 2).toNat % 4 = 0 := by
  rw [BitVec.toNat_shiftLeft, Nat.shiftLeft_eq]
  omega

theorem branchOff_mod_four (br26 : BitVec 26) : (branchOff br26).toNat % 4 = 0 := toNat_shiftLeft_two_mod_four _

theorem condBranchOff_mod_four (cbr19 : BitVec 19) : (condBranchOff cbr19).toNat % 4 = 0 :=
  toNat_shiftLeft_two_mod_four _

namespace State

variable {s : State}

/-! ## The observation describes the state it is stored in -/

/-- A commit on a running core without a fault: its observation describes the new state (40_datapath.md R155). -/
theorem obsMatches_complete (hr : s.halted = false) (hf : s.fault = .none) (c : Completion) :
    ObsMatches (s.complete c) (s.completeObs c) := by
  obtain ⟨-, hpc, -, -, -, -, -, -, hreg, hflags, hh, hk⟩ := s.complete_observed c
  refine ⟨hpc, hflags, hh.trans hr.symm, hk.trans hf.symm, fun r hw => ?_⟩
  generalize c.dest.map (·.1) = dest at hreg
  cases dest with
  | none => cases hreg.1.symm.trans hw
  | some rd =>
    by_cases hd : rd = Config.xzr <;> simp only [hd, if_true, if_false] at hreg
    · cases hreg.1.symm.trans hw
    · obtain ⟨hrd, hv⟩ := hreg
      cases hrd.symm.trans hw
      exact ⟨hd, hv⟩

/-- HALT's observation describes the stopped state. -/
theorem obsMatches_haltStop (hf : s.fault = .none) (sig : ControlSignals) :
    ObsMatches (s.haltStop sig) (s.haltObs sig) :=
  ⟨rfl, rfl, rfl, hf.symm, fun _ hw => by cases hw⟩

/-- A fault's observation describes the stopped state. -/
theorem obsMatches_takeFault (k : FaultKind) (attempt : Option (ControlSignals × Word)) :
    ObsMatches (s.takeFault k attempt) (s.faultObs k attempt) :=
  ⟨rfl, rfl, rfl, rfl, fun _ hw => by cases hw⟩

namespace Inv

/-! ## Each shared operation keeps the invariant -/

/-- Taking a fault keeps the invariant. -/
theorem takeFault (hs : s.Inv) (k : FaultKind) (attempt : Option (ControlSignals × Word)) :
    (s.takeFault k attempt).Inv where
  memSize_ok := hs.memSize_ok
  dmem_wf := hs.dmem_wf
  dmem_below := hs.dmem_below
  program_wf := hs.program_wf
  pc_aligned := hs.pc_aligned
  running_no_fault h := by cases h
  halted_has_obs _ := rfl
  obs_matches _ ho := Option.some.inj ho ▸ obsMatches_takeFault k attempt

/-- HALT on a running core keeps the invariant. -/
theorem haltStop (hs : s.Inv) (hr : s.halted = false) (sig : ControlSignals) : (s.haltStop sig).Inv where
  memSize_ok := hs.memSize_ok
  dmem_wf := hs.dmem_wf
  dmem_below := hs.dmem_below
  program_wf := hs.program_wf
  pc_aligned := hs.pc_aligned
  running_no_fault h := by cases h
  halted_has_obs _ := rfl
  obs_matches _ ho := Option.some.inj ho ▸ obsMatches_haltStop (hs.running_no_fault hr) sig

/-- A commit on a running core keeps the invariant if its pc is a multiple of 4 and its memory is canonical and inside
0..MEM_SIZE-1. -/
theorem complete (hs : s.Inv) (hr : s.halted = false) {c : Completion} (hpc : c.nextPc.toNat % 4 = 0)
    (hwf : (c.dmem.getD s.dmem).wf = true) (hbelow : (c.dmem.getD s.dmem).below s.memSize = true) :
    (s.complete c).Inv where
  memSize_ok := hs.memSize_ok
  dmem_wf := hwf
  dmem_below := hbelow
  program_wf := hs.program_wf
  pc_aligned := hpc
  running_no_fault := hs.running_no_fault
  halted_has_obs _ := rfl
  obs_matches _ ho := Option.some.inj ho ▸ obsMatches_complete hr (hs.running_no_fault hr) c

/-- A commit that stores nothing keeps the invariant if its pc is a multiple of 4. -/
theorem complete_of_no_store (hs : s.Inv) (hr : s.halted = false) {c : Completion} (hm : c.dmem = none)
    (hpc : c.nextPc.toNat % 4 = 0) : (s.complete c).Inv :=
  hs.complete hr hpc (by simpa [hm] using hs.dmem_wf) (by simpa [hm] using hs.dmem_below)

/-- The next instruction's address is a multiple of 4. -/
theorem next_pc_aligned (hs : s.Inv) : (s.pc + 4).toNat % 4 = 0 := toNat_add_mod_four hs.pc_aligned rfl

theorem writeResult (hs : s.Inv) (hr : s.halted = false) (k : Kind) (rd : RegIdx) (v : Word) :
    (s.writeResult k rd v).Inv :=
  hs.complete_of_no_store hr rfl hs.next_pc_aligned

theorem writeResultFlags (hs : s.Inv) (hr : s.halted = false) (k : Kind) (rd : RegIdx) (v : Word) (fl : Flags) :
    (s.writeResultFlags k rd v fl).Inv :=
  hs.complete_of_no_store hr rfl hs.next_pc_aligned

/-- A load keeps the invariant, whether it completes or faults. -/
theorem load (hs : s.Inv) (hr : s.halted = false) (sig : ControlSignals) (n : Nat) (ext : Word → Word) (addr : Word)
    (rt : RegIdx) : (s.load sig n ext addr rt).Inv := by
  rcases s.load_cases sig n ext addr rt with ⟨k, -, e⟩ | ⟨-, e⟩ <;> rw [e]
  · exact hs.takeFault k _
  · exact hs.complete_of_no_store hr rfl hs.next_pc_aligned

/-- A store keeps the invariant: where it completes, its access check keeps the bytes below MEM_SIZE (20_memory.md
R57). -/
theorem store (hs : s.Inv) (hr : s.halted = false) (sig : ControlSignals) (n : Nat) (addr v : Word) :
    (s.store sig n addr v).Inv := by
  rcases s.store_cases sig n addr v with ⟨k, -, e⟩ | ⟨hok, e⟩ <;> rw [e]
  · exact hs.takeFault k _
  · have hin : addr.toNat + n ≤ s.memSize := by
      rcases s.accessFault_cases addr n with ⟨-, -, h⟩ | ⟨h, -⟩ | ⟨h, -⟩
      · exact h
      · cases hok.symm.trans h
      · cases hok.symm.trans h
    exact hs.complete hr hs.next_pc_aligned (wf_memWrite hs.dmem_wf _ _ _)
      (below_memWrite hs.dmem_below _ _ _ hin)

/-- A branch by a multiple of 4 keeps the invariant, taken or not. -/
theorem branch (hs : s.Inv) (hr : s.halted = false) (sig : ControlSignals) (res : Word) (taken : Bool) {off : Word}
    (hoff : off.toNat % 4 = 0) : (s.branch sig res taken off).Inv := by
  refine hs.complete_of_no_store hr rfl ?_
  cases taken
  · exact hs.next_pc_aligned
  · exact toNat_add_mod_four hs.pc_aligned hoff

theorem branchIf (hs : s.Inv) (hr : s.halted = false) (c : Cond) (cbr19 : BitVec 19) : (s.branchIf c cbr19).Inv :=
  hs.branch hr _ _ _ (condBranchOff_mod_four cbr19)

end Inv

end State

/-! ## Each instruction, and each step -/

/-- An instruction executed by a running core keeps the invariant. -/
theorem exec_keeps_inv {i : Instr} {s t : State} (hs : s.Inv) (hr : s.halted = false) (h : exec i s = .next t) :
    t.Inv := by
  cases i <;> obtain rfl := Host.Outcome.next.inj h
  case ldur | ldursw | ldurb => exact hs.load hr _ _ _ _ _
  case stur | sturw | sturb => exact hs.store hr _ _ _ _
  case adds | subs | cmp => exact hs.writeResultFlags hr _ _ _ _
  case b => exact hs.branch hr _ _ _ (branchOff_mod_four _)
  case cbz | cbnz => exact hs.branch hr _ _ _ (condBranchOff_mod_four _)
  case bEq | bNe | bHs | bLo | bMi | bPl | bVs | bVc | bHi | bLs | bGe | bLt | bGt | bLe => exact hs.branchIf hr _ _
  case halt => exact hs.haltStop hr _
  case add | sub | and | orr | eor | lsl | lsr | addi | subi | movz => exact hs.writeResult hr _ _ _

/-- Settles O13: a step is nothing on a halted core, a fetch or decode fault, or an executed instruction, and each
keeps the invariant. -/
theorem stepKeepsTheInvariant : Obligations.StepKeepsTheInvariant := by
  intro s t hs h
  rcases step_cases h with ⟨-, rfl⟩ | ⟨-, -, rfl⟩ | ⟨_, _, -, -, -, rfl⟩ | ⟨_, _, hr, -, -, he⟩
  · exact hs
  · exact hs.takeFault .invalidPC none
  · exact hs.takeFault .unknownOpcode none
  · exact exec_keeps_inv hs hr he

end Sys2Proof.Machine
end

section
/-! Who changes the state of 10_state.md and who reads it: the flags (O44, O45), the registers (O46) and halted (O49).
Said once for all of them: an instruction stops the core or commits, and a commit writes at most the instruction's
destination and, for ADDS, SUBS and CMP, the flags. -/

namespace Sys2Proof

/-! ## The destination register -/

/-- The destination an instruction names (10_state.md R23); CMP's is register 31, as for the SUBS it is (30_encoding.md
R116). -/
def Instr.dest : Instr → Option RegIdx
  | .add rd _ _ | .adds rd _ _ | .sub rd _ _ | .subs rd _ _ | .and rd _ _ | .orr rd _ _ | .eor rd _ _ => some rd
  | .lsl rd _ _ | .lsr rd _ _ | .addi rd _ _ | .subi rd _ _ | .movz rd _ _ => some rd
  | .ldur rt _ _ | .ldursw rt _ _ | .ldurb rt _ _ => some rt
  | .cmp _ _ => some Config.xzr
  | _ => none

/-- A B.cond names no destination: its word[4:0] is the condition (43_branch.md R252). -/
theorem Instr.dest_bCond (c : Cond) (cbr19 : BitVec 19) : (Instr.bCond c cbr19).dest = none := by cases c <;> rfl

/-- The destination of the instruction that a word's slices name is word[4:0], be it the field `rd` or `rt`
(30_encoding.md R92). -/
theorem Instr.dest_of_ofFields {k : Kind} {f : Format} {w : InstrWord} {i : Instr} {r : RegIdx}
    (hi : Instr.ofFields (.ofWord k f w) = .ok i) (hr : i.dest = some r) : r = slice w 0 5 := by
  cases k
  case subs =>
    obtain rfl := Except.ok.inj hi
    split at hr
    next hrd => exact (Option.some.inj hr).symm.trans hrd.symm
    next => exact (Option.some.inj hr).symm
  case bcond =>
    unfold Instr.ofFields at hi
    simp only [DecodedFields.ofWord] at hi
    split at hi <;> cases hi
    cases (Instr.dest_bCond _ _).symm.trans hr
  all_goals cases hi; cases hr
  all_goals rfl

/-- A decoded instruction's destination is word[4:0]. -/
theorem Instr.dest_of_decode {w : InstrWord} {i : Instr} {r : RegIdx} (hi : decode w = .ok i)
    (hr : i.dest = some r) : r = slice w 0 5 := by
  obtain ⟨_, -, -, hf⟩ := row_of_decode hi
  exact Instr.dest_of_ofFields hf hr

namespace Machine

variable {s t : State} {i : Instr}

/-! ## What an instruction commits -/

/-- The commit writes no register but the instruction's destination, and no flags but for ADDS, SUBS and CMP. -/
structure Completion.IsOf (c : Completion) (i : Instr) : Prop where
  dest_eq : c.dest.map (·.1) = i.dest
  flags_only : c.flags ≠ none → i.kind = .adds ∨ i.kind = .subs

/-- An instruction commits, takes a fault, or halts the core. -/
theorem exec_commits_or_stops (h : exec i s = .next t) :
    (∃ c : Completion, t = s.complete c ∧ c.IsOf i) ∨ (∃ k attempt, t = s.takeFault k attempt) ∨
      t = s.haltStop (controlRow .halt) := by
  cases i <;> obtain rfl := Host.Outcome.next.inj h
  case ldur | ldursw | ldurb =>
    exact (s.load_cases ..).symm.imp (fun ⟨_, e⟩ => ⟨_, e, rfl, fun hf => absurd rfl hf⟩)
      fun ⟨k, _, e⟩ => .inl ⟨k, _, e⟩
  case stur | sturw | sturb =>
    exact (s.store_cases ..).symm.imp (fun ⟨_, e⟩ => ⟨_, e, rfl, fun hf => absurd rfl hf⟩)
      fun ⟨k, _, e⟩ => .inl ⟨k, _, e⟩
  case halt => exact .inr (.inr rfl)
  case adds => exact .inl ⟨_, rfl, rfl, fun _ => .inl rfl⟩
  case subs | cmp => exact .inl ⟨_, rfl, rfl, fun _ => .inr rfl⟩
  all_goals exact .inl ⟨_, rfl, rfl, fun hf => absurd rfl hf⟩

/-- A step keeps the registers and the flags, or is the commit of the instruction it executed. -/
theorem step_keeps_or_commits (h : step s = .next t) :
    (t.x = s.x ∧ t.flags = s.flags) ∨
      ∃ w i c, s.fetched = some w ∧ decode w = .ok i ∧ c.IsOf i ∧ t = s.complete c := by
  rcases step_cases h with ⟨-, rfl⟩ | ⟨-, -, rfl⟩ | ⟨_, _, -, -, -, rfl⟩ | ⟨w, i, -, hf, hd, he⟩
  · exact .inl ⟨rfl, rfl⟩
  · exact .inl ⟨rfl, rfl⟩
  · exact .inl ⟨rfl, rfl⟩
  · rcases exec_commits_or_stops he with ⟨c, rfl, hc⟩ | ⟨_, _, rfl⟩ | rfl
    · exact .inr ⟨w, i, c, hf, hd, hc, rfl⟩
    · exact .inl ⟨rfl, rfl⟩
    · exact .inl ⟨rfl, rfl⟩

/-- A register that a commit changes is its destination, and not register 31 (10_state.md R23). -/
theorem State.dest_of_complete_reg_ne {c : Completion} {r : RegIdx} (h : (s.complete c).reg r ≠ s.reg r) :
    r ≠ 31 ∧ c.dest.map (·.1) = some r := by
  rcases hd : c.dest with - | ⟨rd, v⟩
  · exact absurd (State.complete_reg_none s hd r) h
  · rw [State.complete_reg_some s hd] at h
    by_cases hr : r = rd ∧ rd ≠ 31
    · exact ⟨hr.1 ▸ hr.2, congrArg some hr.1.symm⟩
    · exact absurd (if_neg hr) h

/-! ## What does not read the flags -/

/-- The access check does not read the flags (20_memory.md R57). -/
theorem State.accessFault_flags (s : State) (f : Flags) (addr : Word) (n : Nat) :
    State.accessFault { s with flags := f } addr n = s.accessFault addr n := rfl

/-- The states agree on pc, registers, memory, halted and fault (10_state.md R29). -/
def SameOffFlags (t u : State) : Prop :=
  u.pc = t.pc ∧ u.x = t.x ∧ u.dmem = t.dmem ∧ u.halted = t.halted ∧ u.fault = t.fault

namespace SameOffFlags

variable (s) (f : Flags)

theorem takeFault (k : FaultKind) (attempt : Option (ControlSignals × Word)) :
    SameOffFlags (s.takeFault k attempt) ({ s with flags := f }.takeFault k attempt) :=
  ⟨rfl, rfl, rfl, rfl, rfl⟩

theorem complete (c : Completion) : SameOffFlags (s.complete c) ({ s with flags := f }.complete c) :=
  ⟨rfl, rfl, rfl, rfl, rfl⟩

theorem load (sig : ControlSignals) (n : Nat) (ext : Word → Word) (addr : Word) (rt : RegIdx) :
    SameOffFlags (s.load sig n ext addr rt) ({ s with flags := f }.load sig n ext addr rt) := by
  unfold State.load
  rw [State.accessFault_flags s f]
  cases s.accessFault addr n with
  | some k => exact takeFault s f k _
  | none => exact complete s f _

theorem store (sig : ControlSignals) (n : Nat) (addr v : Word) :
    SameOffFlags (s.store sig n addr v) ({ s with flags := f }.store sig n addr v) := by
  unfold State.store
  rw [State.accessFault_flags s f]
  cases s.accessFault addr n with
  | some k => exact takeFault s f k _
  | none => exact complete s f _

end SameOffFlags

/-- An instruction that is no B.cond does the same whatever the flags are. -/
theorem exec_sameOffFlags (f : Flags) (hk : i.kind ≠ .bcond) (h : exec i s = .next t) :
    ∃ u, exec i { s with flags := f } = .next u ∧ SameOffFlags t u := by
  cases i <;> obtain rfl := Host.Outcome.next.inj h
  case bEq | bNe | bHs | bLo | bMi | bPl | bVs | bVc | bHi | bLs | bGe | bLt | bGt | bLe => exact absurd rfl hk
  case ldur | ldursw | ldurb => exact ⟨_, rfl, .load s f _ _ _ _ _⟩
  case stur | sturw | sturb => exact ⟨_, rfl, .store s f _ _ _ _⟩
  case halt => exact ⟨_, rfl, rfl, rfl, rfl, rfl, rfl⟩
  all_goals exact ⟨_, rfl, .complete s f _⟩

/-! ## The statements -/

/-- Settles O44: flags that a step changes are written by a commit, and only ADDS, SUBS and CMP commit flags. -/
theorem onlyAddsAndSubsChangeFlags : Obligations.OnlyAddsAndSubsChangeFlags := by
  intro s t h hne
  rcases step_keeps_or_commits h with ⟨-, hfl⟩ | ⟨w, i, c, hf, hd, hc, rfl⟩
  · exact absurd hfl hne
  · exact ⟨i, ⟨w, hf, hd⟩, hc.flags_only fun hnone => hne (by simp [hnone])⟩

/-- Settles O45: every operation an instruction but B.cond is made of does the same whatever the flags are. -/
theorem onlyBcondReadsFlags : Obligations.OnlyBcondReadsFlags :=
  fun _ _ f _ hk h => exec_sameOffFlags f hk h

/-- Settles O46: a register that a step changes is the destination of a commit, which is word[4:0]. -/
theorem atMostOneRegisterChanges : Obligations.AtMostOneRegisterChanges := by
  intro s t r h hne
  rcases step_keeps_or_commits h with ⟨hx, -⟩ | ⟨w, i, c, hf, hd, hc, rfl⟩
  · exact absurd (State.reg_congr hx r) hne
  · obtain ⟨hr, hdest⟩ := State.dest_of_complete_reg_ne hne
    exact ⟨hr, w, hf, Instr.dest_of_decode hd (hc.dest_eq.symm.trans hdest)⟩

/-- Settles O49: a commit keeps halted; what is left sets it, by a fault that is not None or by HALT. -/
theorem onlyHaltAndFaultsHalt : Obligations.OnlyHaltAndFaultsHalt := by
  intro s t h
  rcases step_cases h with ⟨hh, rfl⟩ | ⟨-, -, rfl⟩ | ⟨_, _, -, -, -, rfl⟩ | ⟨w, i, -, hf, hd, he⟩
  · exact ⟨id, fun hr ht => by cases hr.symm.trans ht⟩
  · exact ⟨fun _ => rfl, fun _ _ => .inr nofun⟩
  · exact ⟨fun _ => rfl, fun _ _ => .inr nofun⟩
  · rcases exec_cases he with ⟨c, rfl⟩ | ⟨k, _, hk, rfl⟩ | ⟨rfl, rfl⟩
    · exact ⟨id, fun hr ht => by cases hr.symm.trans ht⟩
    · exact ⟨fun _ => rfl, fun _ _ => .inr hk⟩
    · exact ⟨fun _ => rfl, fun _ _ => .inl ⟨⟨w, hf, hd⟩, rfl⟩⟩

end Machine
end Sys2Proof
end

section
/-! The statements of 20_memory.md: the access check (O31), the bytes an access sees (O32, O33), the fetch (O40), and
what a step keeps of data memory, the program and MEM_SIZE (O47, O48). -/

namespace Sys2Proof.Machine

variable {s t : State} {i : Instr}

/-! ## The access check -/

/-- The low `k` bits of an address are zero exactly where it is a multiple of `2 ^ k` (20_memory.md R56). -/
theorem extractLsb'_zero_eq_zero_iff (a : Word) (k : Nat) : a.extractLsb' 0 k = 0 ↔ a.toNat % 2 ^ k = 0 := by
  rw [← BitVec.toNat_inj, BitVec.extractLsb'_toNat, Nat.shiftRight_zero]
  rfl

namespace State

variable {addr : Word} {n : Nat}

theorem accessFault_eq_alignmentFault_iff : s.accessFault addr n = some .alignmentFault ↔ addr.toNat % n ≠ 0 := by
  rcases s.accessFault_cases addr n with ⟨h, ha, -⟩ | ⟨h, ha⟩ | ⟨h, ha, -⟩ <;> simp [h, ha]

theorem accessFault_eq_memoryBoundsFault_iff :
    s.accessFault addr n = some .memoryBoundsFault ↔ addr.toNat % n = 0 ∧ s.memSize < addr.toNat + n := by
  rcases s.accessFault_cases addr n with ⟨h, -, hin⟩ | ⟨h, ha⟩ | ⟨h, ha, hout⟩
  · simp [h, hin]
  · simp [h, ha]
  · simp [h, ha, hout]

theorem accessFault_eq_none_iff :
    s.accessFault addr n = none ↔ addr.toNat % n = 0 ∧ addr.toNat + n ≤ s.memSize := by
  rcases s.accessFault_cases addr n with ⟨h, ha, hin⟩ | ⟨h, ha⟩ | ⟨h, -, hout⟩
  · simp [h, ha, hin]
  · simp [h, ha]
  · simp [h, hout]

/-- Where MEM_SIZE is the whole data space, an aligned access whose width divides it ends inside it (20_memory.md
R58). -/
theorem accessFault_ne_memoryBoundsFault (hsize : s.memSize = 2 ^ 64) (hn : n ∣ 2 ^ 64) :
    s.accessFault addr n ≠ some .memoryBoundsFault := by
  rw [ne_eq, accessFault_eq_memoryBoundsFault_iff, hsize]
  rintro ⟨ha, hout⟩
  have hlt := addr.isLt
  have hle : n ≤ 2 ^ 64 - addr.toNat :=
    Nat.le_of_dvd (Nat.sub_pos_of_lt hlt) (Nat.dvd_sub hn (Nat.dvd_of_mod_eq_zero ha))
  omega

end State

/-- Settles O31: the three answers of the check, and alignment read from the low bits of the address. -/
theorem accessChecks : Obligations.AccessChecks := by
  intro s addr
  refine ⟨?_, ?_, ?_, fun n hn => ⟨State.accessFault_eq_alignmentFault_iff,
    State.accessFault_eq_memoryBoundsFault_iff, State.accessFault_eq_none_iff,
    fun hsize => State.accessFault_ne_memoryBoundsFault hsize ?_⟩⟩
  · simp [State.accessFault_eq_alignmentFault_iff, Nat.mod_one]
  · exact State.accessFault_eq_alignmentFault_iff.trans (extractLsb'_zero_eq_zero_iff addr 2).not.symm
  · exact State.accessFault_eq_alignmentFault_iff.trans (extractLsb'_zero_eq_zero_iff addr 3).not.symm
  · rcases hn with rfl | rfl | rfl <;> decide

/-! ## The bytes of a stored value -/

/-- Bytes of a stored value read back: `n` of them, `k` above the store's address, are that slice of the value
(20_memory.md R55). -/
theorem memRead_memWrite (m : Memory) (a : Nat) (v : Word) {j k n : Nat} (h : k + n ≤ j) (hn : n ≤ 8) :
    memRead (memWrite m a j v) (a + k) n = (v.extractLsb' (8 * k) (8 * n)).setWidth 64 := by
  apply BitVec.eq_of_getLsbD_eq
  intro b hb
  rw [getLsbD_memRead _ _ _ hn, BitVec.getLsbD_setWidth, BitVec.getLsbD_extractLsb', get_memWrite]
  by_cases hin : b < 8 * n
  · have hbyte : a ≤ a + k + b / 8 ∧ a + k + b / 8 < a + j := by omega
    have hbit : 8 * (a + k + b / 8 - a) + b % 8 = 8 * k + b := by omega
    rw [if_pos hbyte, BitVec.getLsbD_extractLsb', hbit]
    simp [hin, hb, Nat.mod_lt]
  · simp [hin]

/-- A doubleword stored and read again is the value stored (20_memory.md R64). -/
theorem memRead_memWrite_doubleword (m : Memory) (a : Nat) (v : Word) : memRead (memWrite m a 8 v) a 8 = v := by
  simpa using memRead_memWrite m a v (j := 8) (k := 0) (n := 8) (by decide) (by decide)

/-- A slice of a value, zero-extended, as a shift and a mask. -/
theorem setWidth_extractLsb' (v : Word) (lo : Nat) {n : Nat} (hn : n ≤ 64) :
    (v.extractLsb' lo n).setWidth 64 = (v >>> lo) &&& BitVec.ofNat 64 (2 ^ n - 1) := by
  apply BitVec.eq_of_toNat_eq
  have hmask : 2 ^ n - 1 < 2 ^ 64 := Nat.sub_one_lt_of_le (Nat.two_pow_pos n) (Nat.pow_le_pow_right (by decide) hn)
  have hlow : (v.toNat >>> lo) % 2 ^ n < 2 ^ 64 :=
    (Nat.mod_le _ _).trans_lt ((Nat.shiftRight_le _ _).trans_lt v.isLt)
  rw [BitVec.toNat_setWidth, BitVec.extractLsb'_toNat, Nat.mod_eq_of_lt hlow, BitVec.toNat_and,
    BitVec.toNat_ushiftRight, BitVec.toNat_ofNat, Nat.mod_eq_of_lt hmask, Nat.and_two_pow_sub_one_eq_mod]

/-- A slice that reaches the top bit of a value needs no mask. -/
theorem setWidth_extractLsb'_of_le (v : Word) {lo n : Nat} (h : 64 ≤ lo + n) :
    (v.extractLsb' lo n).setWidth 64 = v >>> lo := by
  apply BitVec.eq_of_getLsbD_eq
  intro i hi
  rw [BitVec.getLsbD_setWidth, BitVec.getLsbD_extractLsb', BitVec.getLsbD_ushiftRight]
  by_cases hin : i < n
  · simp [hi, hin]
  · simp [hin, BitVec.getLsbD_of_ge v (lo + i) (by omega)]

/-- The bits of a value whose byte `k` is replaced by `b`. -/
theorem getLsbD_replaceByte (v : Word) (b : Byte) (k : Nat) {i : Nat} (hi : i < 64) :
    ((v &&& ~~~((0xFF : Word) <<< (8 * k))) ||| (b.setWidth 64 <<< (8 * k))).getLsbD i =
      if i / 8 = k then b.getLsbD (i % 8) else v.getLsbD i := by
  have hmask : (0xFF : Word) = (BitVec.allOnes 8).setWidth 64 := by decide
  rw [hmask, BitVec.getLsbD_or, BitVec.getLsbD_and, BitVec.getLsbD_not, BitVec.getLsbD_shiftLeft,
    BitVec.getLsbD_shiftLeft, BitVec.getLsbD_setWidth, BitVec.getLsbD_setWidth, BitVec.getLsbD_allOnes]
  by_cases hk : i / 8 = k
  · have hge : ¬i < 8 * k := by omega
    have hbit : i - 8 * k = i % 8 := by omega
    have h64 : i % 8 < 64 := by omega
    have h8 : i % 8 < 8 := by omega
    simp [hk, hi, hge, hbit, h64, h8]
  · rw [if_neg hk]
    by_cases hlt : i < 8 * k
    · simp [hlt, hi]
    · have hout : 8 ≤ i - 8 * k := by omega
      simp [hlt, hi, Nat.not_lt.mpr hout, BitVec.getLsbD_of_ge b _ hout]

/-- A byte stored replaces that byte in the doubleword read around it (20_memory.md R55). -/
theorem memRead_memWrite_byte (m : Memory) (a k : Nat) (b : Byte) :
    memRead (memWrite m (a + k) 1 (b.setWidth 64)) a 8 =
      (memRead m a 8 &&& ~~~((0xFF : Word) <<< (8 * k))) ||| (b.setWidth 64 <<< (8 * k)) := by
  apply BitVec.eq_of_getLsbD_eq
  intro i hi
  have hset : memWrite m (a + k) 1 (b.setWidth 64) = m.set (a + k) b := by simp [memWrite]
  rw [hset, getLsbD_replaceByte _ _ _ hi, getLsbD_memRead _ _ _ le_rfl, getLsbD_memRead _ _ _ le_rfl, Memory.get_set]
  by_cases hik : i / 8 = k
  · simp [hik, hi]
  · simp [hik, hi]

/-! ## A store, then a load -/

theorem State.load_of_accessFault_none {addr : Word} {n : Nat} (h : s.accessFault addr n = none)
    (sig : ControlSignals) (ext : Word → Word) (rt : RegIdx) :
    s.load sig n ext addr rt = s.complete (s.loadCompletion sig n ext addr rt) := by
  rcases s.load_cases sig n ext addr rt with ⟨k, hk, -⟩ | ⟨-, e⟩
  · cases h.symm.trans hk
  · exact e

theorem State.store_of_accessFault_none {addr : Word} {n : Nat} (h : s.accessFault addr n = none)
    (sig : ControlSignals) (v : Word) :
    s.store sig n addr v = s.complete (s.storeCompletion sig n addr v) := by
  rcases s.store_cases sig n addr v with ⟨k, hk, -⟩ | ⟨-, e⟩
  · cases h.symm.trans hk
  · exact e

/-- A commit without a destination keeps every effective address (42_load_store.md R219). -/
theorem State.complete_effAddr (s : State) {c : Completion} (h : c.dest = none) (rn : RegIdx) (dt9 : BitVec 9) :
    (s.complete c).effAddr rn dt9 = s.effAddr rn dt9 :=
  congrArg (· + dtAddr dt9) (s.complete_reg_none h rn)

/-- A commit keeps MEM_SIZE, and so the access check. -/
@[simp] theorem State.complete_accessFault (s : State) (c : Completion) (addr : Word) (n : Nat) :
    (s.complete c).accessFault addr n = s.accessFault addr n := rfl

/-- Settles O32: the store keeps the base register and MEM_SIZE, so the load checks and reads the same address. -/
theorem loadAfterStoreReturnsTheValue : Obligations.LoadAfterStoreReturnsTheValue := by
  intro rt rt' rn dt9 s t u halign hin hst hld hrt
  have hok : s.accessFault (s.effAddr rn dt9) 8 = none := State.accessFault_eq_none_iff.mpr ⟨halign, hin⟩
  obtain rfl := (Host.Outcome.next.inj hst).symm.trans (State.store_of_accessFault_none hok _ _)
  have hload := (Host.Outcome.next.inj hld).symm
  rw [s.complete_effAddr rfl rn dt9,
    State.load_of_accessFault_none ((State.complete_accessFault ..).trans hok)] at hload
  rw [hload, State.complete_reg_some _ rfl, if_pos ⟨rfl, hrt⟩]
  exact memRead_memWrite_doubleword _ _ _

/-- Settles O33: a read below a store is a slice of the value, and a byte stored replaces one byte. -/
theorem mixedWidthsSeeBytes : Obligations.MixedWidthsSeeBytes := by
  intro m a v
  refine ⟨memRead_memWrite_doubleword m a v, fun k hk => ?_, ?_, ?_, fun k _ b => ?_⟩
  · rw [memRead_memWrite m a v (by omega) (by decide), setWidth_extractLsb' v _ (by decide)]
    rfl
  · have h := memRead_memWrite m a v (j := 8) (k := 0) (n := 4) (by decide) (by decide)
    rw [setWidth_extractLsb' v _ (by decide)] at h
    simpa using h
  · rw [memRead_memWrite m a v (by decide) (by decide)]
    exact setWidth_extractLsb'_of_le v (by decide)
  · rw [memRead_memWrite_byte, memRead_memWrite_doubleword]

/-! ## Fetch -/

/-- A step of a halted core changes nothing (40_datapath.md R153). -/
theorem step_of_halted (h : s.halted = true) : step s = .next s := by simp [step, h]

/-- A running core whose fetch finds no word takes InvalidPC (20_memory.md R62). -/
theorem step_of_fetched_none (hr : s.halted = false) (hf : s.fetched = none) :
    step s = .next (s.takeFault .invalidPC none) := by simp [step, hr, hf]

/-- The fetch finds no word where pc is no address of the program (20_memory.md R62). -/
theorem State.fetched_eq_none
    (h : ¬(s.pc.toNat % 4 = 0 ∧ ∃ k, k < s.program.words.length ∧ s.pc.toNat = s.program.base.toNat + 4 * k)) :
    s.fetched = none := by
  rw [Option.eq_none_iff_forall_not_mem]
  intro w hw
  obtain ⟨halign, k, hpc, hk⟩ := Program.fetch_eq_some.mp hw
  exact h ⟨halign, k, (List.getElem?_eq_some_iff.mp hk).1, hpc⟩

/-- Settles O40: `Program.fetch` finds exactly the words of the program, and without one the step takes InvalidPC. -/
theorem fetchReadsTheProgramOrFaults : Obligations.FetchReadsTheProgramOrFaults := by
  intro s hr
  refine ⟨fun k w halign hpc hw => Program.fetch_eq_some.mpr ⟨halign, k, hpc, hw⟩, fun hout => ?_⟩
  have hf := State.fetched_eq_none hout
  exact ⟨hf, _, step_of_fetched_none hr hf, s.takeFault_form _ _, step_of_halted rfl⟩

/-! ## What a step keeps -/

/-- A load keeps data memory, whether it completes or faults. -/
@[simp] theorem State.load_dmem (s : State) (sig : ControlSignals) (n : Nat) (ext : Word → Word) (addr : Word)
    (rt : RegIdx) : (s.load sig n ext addr rt).dmem = s.dmem := by
  rcases s.load_cases sig n ext addr rt with ⟨_, -, e⟩ | ⟨-, e⟩
  · rw [e]; rfl
  · rw [e]; rfl

/-- A store keeps data memory where it faults, and writes its bytes where it completes. -/
theorem State.store_dmem_cases (s : State) (sig : ControlSignals) (n : Nat) (addr v : Word) :
    (s.store sig n addr v).dmem = s.dmem ∨ (s.store sig n addr v).dmem = memWrite s.dmem addr.toNat n v := by
  rcases s.store_cases sig n addr v with ⟨_, -, e⟩ | ⟨-, e⟩
  · exact .inl (by rw [e]; rfl)
  · exact .inr (by rw [e]; rfl)

/-- An instruction keeps data memory, or is a store and writes the bytes of its access (20_memory.md R60). -/
theorem exec_keeps_or_stores (h : exec i s = .next t) :
    t.dmem = s.dmem ∨ ∃ rn dt9 n v, (i.kind = .stur ∨ i.kind = .sturw ∨ i.kind = .sturb) ∧
      dataAccess i = some (rn, dt9, n) ∧ t.dmem = memWrite s.dmem (s.effAddr rn dt9).toNat n v := by
  cases i <;> obtain rfl := Host.Outcome.next.inj h
  case ldur | ldursw | ldurb => exact .inl (State.load_dmem ..)
  case stur | sturw | sturb =>
    exact (s.store_dmem_cases ..).imp_right fun e => ⟨_, _, _, _, by simp [Instr.kind], rfl, e⟩
  all_goals exact .inl rfl

/-- Settles O47: a step that changes a byte executed an instruction, and that instruction is a store to it. -/
theorem onlyStoresChangeMemory : Obligations.OnlyStoresChangeMemory := by
  intro s t a h hne
  rcases step_cases h with ⟨-, rfl⟩ | ⟨-, -, rfl⟩ | ⟨_, _, -, -, -, rfl⟩ | ⟨w, i, -, hf, hd, he⟩
  · exact absurd rfl hne
  · exact absurd rfl hne
  · exact absurd rfl hne
  · rcases exec_keeps_or_stores he with hm | ⟨rn, dt9, n, v, hk, hacc, hm⟩
    · exact absurd (congrArg (Memory.get · a) hm) hne
    · have hin : (s.effAddr rn dt9).toNat ≤ a ∧ a < (s.effAddr rn dt9).toNat + n := by
        by_contra hout
        exact hne ((writesMem_of_dmem hm).2 a hout)
      exact ⟨i, rn, dt9, n, ⟨w, hf, hd⟩, hk, hacc, hin⟩

/-- Settles O48: neither nothing, nor a fault, nor a commit, nor HALT's stop writes the program or MEM_SIZE. -/
theorem stepKeepsProgramAndMemSize : Obligations.StepKeepsProgramAndMemSize := by
  intro s t h
  rcases step_cases h with ⟨-, rfl⟩ | ⟨-, -, rfl⟩ | ⟨_, _, -, -, -, rfl⟩ | ⟨_, _, -, -, -, he⟩
  · exact ⟨rfl, rfl⟩
  · exact ⟨rfl, rfl⟩
  · exact ⟨rfl, rfl⟩
  · rcases exec_cases he with ⟨_, rfl⟩ | ⟨_, _, -, rfl⟩ | ⟨-, rfl⟩ <;> exact ⟨rfl, rfl⟩

end Sys2Proof.Machine
end

section
/-! The statements of 30_encoding.md on the opcode map, the decoder and the encoder (O2 to O7). Said once for all of
them: a row's words decode, to instructions of the row's kind, and what a word decodes to encodes to its examined
bits. -/

namespace Sys2Proof

variable {w v : InstrWord} {i : Instr} {r : OpRow}

/-! ## The rows of the opcode map -/

theorem OpRow.matches_iff : r.matches w = true ↔ w &&& r.mask = r.pattern := beq_iff_eq

theorem OpRow.apart_comm (r r' : OpRow) : r.apart r' = r'.apart r := by
  rw [OpRow.apart, OpRow.apart, BitVec.and_comm r.mask, BitVec.xor_comm r.pattern]

/-- In any order the rows are pairwise apart (30_encoding.md R89). -/
theorem apart_of_perm {l : List OpRow} (h : l.Perm opcodeMap) : l.Pairwise fun r r' => r.apart r' = true :=
  (h.pairwise_iff fun {r r'} hr => (OpRow.apart_comm r' r).trans hr).mpr opcodeMap_apart

/-- Settles O2: rows pairwise apart, in whatever order, give a word that matches one of them that row and no other. -/
theorem opcodeRowsAreDisjoint : Obligations.OpcodeRowsAreDisjoint := by
  refine ⟨opcodeMap_apart.imp OpRow.apart_iff.mp, fun w r₁ r₂ h₁ h₂ hw₁ hw₂ => ?_, fun l hl w => ?_⟩
  · exact Option.some.inj ((find_of_matches opcodeMap_apart h₁ hw₁).symm.trans (find_of_matches opcodeMap_apart h₂ hw₂))
  · cases hf : opcodeMap.find? (·.matches w) with
    | some r =>
      exact find_of_matches (apart_of_perm hl) (hl.mem_iff.mpr (List.mem_of_find?_eq_some hf))
        (List.find?_some (p := fun r : OpRow => r.matches w) hf)
    | none =>
      rw [List.find?_eq_none] at hf ⊢
      exact fun r hr => hf r (hl.mem_iff.mp hr)

/-! ## A row's words decode -/

/-- The `cond` bits of the B.cond rows are examined, and select a condition (30_encoding.md R96). -/
theorem cond_of_bcond_row : ∀ r ∈ opcodeMap, r.kind = .bcond →
    slice r.mask 0 5 = BitVec.allOnes 5 ∧ (Cond.ofCode (slice r.pattern 0 5)).isSome = true := by decide

/-- The mask of a row covers no ignored bit (30_encoding.md R93). -/
theorem mask_and_examinedBits : ∀ r ∈ opcodeMap, examinedBits r.kind &&& r.mask = r.mask := by decide

@[simp] theorem Instr.kind_bCond (c : Cond) (cbr19 : BitVec 19) : (Instr.bCond c cbr19).kind = .bcond := by
  cases c <;> rfl

/-- A record whose `cond` field, for B.cond, selects a condition names an instruction of its kind. -/
theorem Instr.ofFields_ok {d : DecodedFields} (h : d.kind = .bcond → (Cond.ofCode d.cond).isSome = true) :
    ∃ i, Instr.ofFields d = .ok i ∧ i.kind = d.kind := by
  unfold Instr.ofFields
  cases hk : d.kind
  case bcond =>
    obtain ⟨c, hc⟩ := Option.isSome_iff_exists.mp (h hk)
    exact ⟨.bCond c d.cbr19, by simp only [hc], Instr.kind_bCond ..⟩
  case subs => exact ⟨_, rfl, by split <;> rfl⟩
  all_goals exact ⟨_, rfl, rfl⟩

/-- A word of a row decodes to an instruction of the row's kind. -/
theorem decode_ok_of_row (hr : r ∈ opcodeMap) (hw : w &&& r.mask = r.pattern) :
    ∃ i, decode w = .ok i ∧ i.kind = r.kind := by
  rw [decode_of_row hr hw]
  refine Instr.ofFields_ok fun hk => ?_
  obtain ⟨hmask, hcond⟩ := cond_of_bcond_row r hr hk
  rwa [← slice_of_mask hw 0 5 hmask] at hcond

/-- A decoded word is of some row, which decodes it and has its instruction's kind. -/
theorem row_and_kind_of_decode (h : decode w = .ok i) : ∃ r ∈ opcodeMap, w &&& r.mask = r.pattern ∧
    r.kind = i.kind ∧ Instr.ofFields (.ofWord r.kind r.format w) = .ok i := by
  obtain ⟨r, hr, hw, hi⟩ := row_of_decode h
  obtain ⟨j, hj, hk⟩ := decode_ok_of_row hr hw
  exact ⟨r, hr, hw, Except.ok.inj (hj.symm.trans h) ▸ hk.symm, hi⟩

/-- A word that matches no row is UnknownOpcode (30_encoding.md R95). -/
theorem decode_of_no_row (h : ∀ r ∈ opcodeMap, r.matches w = false) : decode w = .error .unknownOpcode := by
  have hf : opcodeMap.find? (·.matches w) = none := List.find?_eq_none.mpr fun r hr => by simp [h r hr]
  simp [decode, decodeFields, hf]

/-- Settles O3: a word of a row decodes to an instruction, and the search for a row fails on any other. -/
theorem unknownOpcodeIffNoRowMatches : Obligations.UnknownOpcodeIffNoRowMatches := by
  refine fun w => ⟨fun h r hr => ?_, decode_of_no_row⟩
  rw [Bool.eq_false_iff]
  intro hm
  obtain ⟨i, hi, -⟩ := decode_ok_of_row hr (OpRow.matches_iff.mp hm)
  cases h.symm.trans hi

/-! ## The cond field -/

/-- The row of the opcode map for a condition. -/
def Cond.row (c : Cond) : OpRow := ⟨.bcond, .CB, place (0x54 : BitVec 8) 24 ||| place c.code 0, 0xFF00001F⟩

theorem Cond.row_mem (c : Cond) : c.row ∈ opcodeMap := by cases c <;> decide

/-- All words with op8 = 0x54, whatever their `cond` bits: no row of the opcode map. -/
def bcondWords : OpRow := ⟨.bcond, .CB, place (0x54 : BitVec 8) 24, 0xFF000000⟩

/-- A row of the opcode map shares words with `bcondWords` only by selecting a condition below 14. -/
theorem apart_bcondWords_or_cond : ∀ r ∈ opcodeMap, r.apart bcondWords = true ∨
    slice r.mask 0 5 = BitVec.allOnes 5 ∧ (slice r.pattern 0 5).toNat < 14 := by decide

/-- The numbers below 14 select a condition (30_encoding.md R96). -/
theorem Cond.ofCode_isSome : ∀ b : BitVec 5, b.toNat < 14 → (Cond.ofCode b).isSome = true := by decide

/-- Settles O4: a condition's number makes the word one of the condition's row; from 14 on, a row that matched it would
fix its `cond` bits below 14. -/
theorem bcondConditionField : Obligations.BcondConditionField := by
  intro w hop
  have hop' : w &&& 0xFF000000 = place (0x54 : BitVec 8) 24 := hop ▸ (place_slice w 24 8).symm
  refine ⟨fun c hc => ?_, fun hlt => ?_, fun hge => ?_⟩
  · have hw : w &&& c.row.mask = c.row.pattern := by
      change w &&& (0xFF000000 ||| fieldMask 0 5) = _
      rw [BitVec.and_or_distrib_left, hop', ← place_slice, hc]
      rfl
    simp [decode_of_row c.row_mem hw, Cond.row, Instr.ofFields, DecodedFields.ofWord, hc]
  · obtain ⟨c, hc⟩ := Option.isSome_iff_exists.mp (Cond.ofCode_isSome _ hlt)
    exact ⟨c, Cond.code_of_ofCode hc⟩
  · have hno : ∀ r ∈ opcodeMap, r.matches w = false := fun r hr => by
      rw [Bool.eq_false_iff]
      intro hm
      rcases apart_bcondWords_or_cond r hr with hapart | ⟨hmask, hcond⟩
      · exact OpRow.not_both hapart hm (OpRow.matches_iff.mpr hop')
      · rw [← slice_of_mask (OpRow.matches_iff.mp hm) 0 5 hmask] at hcond
        omega
    exact ⟨hno, decode_of_no_row hno⟩

/-! ## Decode after encode -/

/-- The word of every well-formed instruction decodes to it: the law of its encoding. -/
theorem decode_encode : ∀ i, Laws.Encoding.Statement i
  | .add rd rn rm => Laws.Encoding.add rd rn rm
  | .adds rd rn rm => Laws.Encoding.adds rd rn rm
  | .sub rd rn rm => Laws.Encoding.sub rd rn rm
  | .subs rd rn rm => Laws.Encoding.subs rd rn rm
  | .and rd rn rm => Laws.Encoding.and rd rn rm
  | .orr rd rn rm => Laws.Encoding.orr rd rn rm
  | .eor rd rn rm => Laws.Encoding.eor rd rn rm
  | .lsl rd rn shamt => Laws.Encoding.lsl rd rn shamt
  | .lsr rd rn shamt => Laws.Encoding.lsr rd rn shamt
  | .addi rd rn imm12 => Laws.Encoding.addi rd rn imm12
  | .subi rd rn imm12 => Laws.Encoding.subi rd rn imm12
  | .movz rd imm16 hw => Laws.Encoding.movz rd imm16 hw
  | .ldur rt rn dt9 => Laws.Encoding.ldur rt rn dt9
  | .stur rt rn dt9 => Laws.Encoding.stur rt rn dt9
  | .ldursw rt rn dt9 => Laws.Encoding.ldursw rt rn dt9
  | .sturw rt rn dt9 => Laws.Encoding.sturw rt rn dt9
  | .ldurb rt rn dt9 => Laws.Encoding.ldurb rt rn dt9
  | .sturb rt rn dt9 => Laws.Encoding.sturb rt rn dt9
  | .b br26 => Laws.Encoding.b br26
  | .bEq cbr19 => Laws.Encoding.bEq cbr19
  | .bNe cbr19 => Laws.Encoding.bNe cbr19
  | .bHs cbr19 => Laws.Encoding.bHs cbr19
  | .bLo cbr19 => Laws.Encoding.bLo cbr19
  | .bMi cbr19 => Laws.Encoding.bMi cbr19
  | .bPl cbr19 => Laws.Encoding.bPl cbr19
  | .bVs cbr19 => Laws.Encoding.bVs cbr19
  | .bVc cbr19 => Laws.Encoding.bVc cbr19
  | .bHi cbr19 => Laws.Encoding.bHi cbr19
  | .bLs cbr19 => Laws.Encoding.bLs cbr19
  | .bGe cbr19 => Laws.Encoding.bGe cbr19
  | .bLt cbr19 => Laws.Encoding.bLt cbr19
  | .bGt cbr19 => Laws.Encoding.bGt cbr19
  | .bLe cbr19 => Laws.Encoding.bLe cbr19
  | .cbz rt cbr19 => Laws.Encoding.cbz rt cbr19
  | .cbnz rt cbr19 => Laws.Encoding.cbnz rt cbr19
  | .halt => Laws.Encoding.halt
  | .cmp rn rm => Laws.Encoding.cmp rn rm

/-- Settles O6: every constructor has its law. -/
theorem decodeOfEncodeIsIdentity : Obligations.DecodeOfEncodeIsIdentity := decode_encode

/-! ## Encode after decode -/

theorem place_zero (n lo : Nat) : place (0 : BitVec n) lo = 0#32 := by simp [place]

/-! A word's own slices, put back by the encoder of its format, make the word with its ignored bits 0. -/

theorem encodeR_slices_rm {op : BitVec 11} (h : slice w 21 11 = op) :
    encodeR op (slice w 16 5) 0 (slice w 5 5) (slice w 0 5) = w &&& 0xFFFF03FF := by
  subst h
  simp only [encodeR, place_slice, place_zero, BitVec.or_zero, ← BitVec.and_or_distrib_left]
  rfl

theorem encodeR_slices_shamt {op : BitVec 11} (h : slice w 21 11 = op) :
    encodeR op 0 (slice w 10 6) (slice w 5 5) (slice w 0 5) = w &&& 0xFFE0FFFF := by
  subst h
  simp only [encodeR, place_slice, place_zero, BitVec.or_zero, ← BitVec.and_or_distrib_left]
  rfl

theorem encodeR_slices_opcode {op : BitVec 11} (h : slice w 21 11 = op) :
    encodeR op 0 0 0 0 = w &&& 0xFFE00000 := by
  subst h
  simp only [encodeR, place_slice, place_zero, BitVec.or_zero]
  rfl

theorem encodeI_slices {op : BitVec 10} (h : slice w 22 10 = op) :
    encodeI op (slice w 10 12) (slice w 5 5) (slice w 0 5) = w &&& 0xFFFFFFFF := by
  subst h
  simp only [encodeI, place_slice, ← BitVec.and_or_distrib_left]
  rfl

theorem encodeD_slices {op : BitVec 11} (h : slice w 21 11 = op) :
    encodeD op (slice w 12 9) (slice w 5 5) (slice w 0 5) = w &&& 0xFFFFF3FF := by
  subst h
  simp only [encodeD, place_slice, ← BitVec.and_or_distrib_left]
  rfl

theorem encodeB_slices {op : BitVec 6} (h : slice w 26 6 = op) : encodeB op (slice w 0 26) = w &&& 0xFFFFFFFF := by
  subst h
  simp only [encodeB, place_slice, ← BitVec.and_or_distrib_left]
  rfl

theorem encodeCB_slices {op : BitVec 8} (h : slice w 24 8 = op) :
    encodeCB op (slice w 5 19) (slice w 0 5) = w &&& 0xFFFFFFFF := by
  subst h
  simp only [encodeCB, place_slice, ← BitVec.and_or_distrib_left]
  rfl

theorem encodeIM_slices {op : BitVec 9} (h : slice w 23 9 = op) :
    encodeIM op (slice w 21 2) (slice w 5 16) (slice w 0 5) = w &&& 0xFFFFFFFF := by
  subst h
  simp only [encodeIM, place_slice, ← BitVec.and_or_distrib_left]
  rfl

theorem encode_bCond (c : Cond) (cbr19 : BitVec 19) : encode (.bCond c cbr19) = encodeBcond c cbr19 := by
  cases c <;> rfl

/-- The bits of a word of a row that all rows of its kind fix to one value. -/
theorem slice_of_row {k : Kind} (hr : r ∈ opcodeMap) (hw : w &&& r.mask = r.pattern) (hk : r.kind = k) {lo n : Nat}
    {op : BitVec n}
    (hop : ∀ r ∈ opcodeMap, r.kind = k → slice r.mask lo n = BitVec.allOnes n ∧ slice r.pattern lo n = op) :
    slice w lo n = op := by
  obtain ⟨hmask, hpat⟩ := hop r hr hk
  exact (slice_of_mask hw lo n hmask).trans hpat

/-- The instruction that the slices of a row's word name encodes to the word's examined bits. -/
theorem encode_of_ofFields (hr : r ∈ opcodeMap) (hw : w &&& r.mask = r.pattern)
    (hi : Instr.ofFields (.ofWord r.kind r.format w) = .ok i) : encode i = w &&& examinedBits r.kind := by
  generalize hk : r.kind = k at hi ⊢
  cases k
  case bcond =>
    simp only [Instr.ofFields, DecodedFields.ofWord] at hi
    split at hi <;> cases hi
    next c hc =>
      rw [encode_bCond, encodeBcond, ← Cond.code_of_ofCode hc]
      exact encodeCB_slices (slice_of_row hr hw hk (by decide))
  all_goals obtain rfl := Except.ok.inj hi
  case add | adds | sub | and | orr | eor => exact encodeR_slices_rm (slice_of_row hr hw hk (by decide))
  case subs =>
    have hword := encodeR_slices_rm (slice_of_row (lo := 21) (n := 11) (op := 0x758) hr hw hk (by decide))
    split
    next hrd =>
      rw [show slice w 0 5 = Config.xzr from hrd] at hword
      exact hword
    next => exact hword
  case lsl | lsr => exact encodeR_slices_shamt (slice_of_row hr hw hk (by decide))
  case addi | subi => exact encodeI_slices (slice_of_row hr hw hk (by decide))
  case movz => exact encodeIM_slices (slice_of_row hr hw hk (by decide))
  case ldur | stur | ldursw | sturw | ldurb | sturb => exact encodeD_slices (slice_of_row hr hw hk (by decide))
  case b => exact encodeB_slices (slice_of_row hr hw hk (by decide))
  case cbz | cbnz => exact encodeCB_slices (slice_of_row hr hw hk (by decide))
  case halt => exact encodeR_slices_opcode (slice_of_row hr hw hk (by decide))

theorem Instr.wellFormed_bCond (c : Cond) (cbr19 : BitVec 19) : (Instr.bCond c cbr19).wellFormed = true := by
  cases c <;> rfl

/-- What a record names is well formed: SUBS with Rd = 31 is named CMP (log entry 3). -/
theorem Instr.wellFormed_of_ofFields {d : DecodedFields} (hi : Instr.ofFields d = .ok i) : i.wellFormed = true := by
  unfold Instr.ofFields at hi
  generalize d.kind = k at hi
  cases k
  case bcond =>
    simp only at hi
    split at hi <;> cases hi
    exact Instr.wellFormed_bCond ..
  all_goals obtain rfl := Except.ok.inj hi
  case subs =>
    split
    next => rfl
    next hrd => exact bne_iff_ne.mpr hrd
  all_goals rfl

/-- Settles O7: a decoded word is of a row, of the kind of its instruction, and the row's encoding law holds. -/
theorem encodeOfDecodeKeepsExaminedBits : Obligations.EncodeOfDecodeKeepsExaminedBits := by
  intro w i h
  obtain ⟨r, hr, hw, hk, hi⟩ := row_and_kind_of_decode h
  exact ⟨Instr.wellFormed_of_ofFields hi, hk ▸ encode_of_ofFields hr hw hi⟩

/-! ## Ignored bits -/

/-- The terms that are no word's name are SUBS with Rd = 31 (log entry 3); their word is CMP's. -/
theorem eq_subs_xzr_of_not_wellFormed (h : i.wellFormed = false) : ∃ rn rm, i = .subs Config.xzr rn rm := by
  cases i
  case subs rd rn rm => exact ⟨rn, rm, by rw [show rd = Config.xzr from bne_eq_false_iff_eq.mp h]⟩
  all_goals cases h

/-- The encoder writes 0 in the ignored bits of a well-formed instruction (30_encoding.md R119). -/
theorem encode_and_not_examinedBits (h : i.wellFormed = true) : encode i &&& ~~~examinedBits i.kind = 0 := by
  rw [(encodeOfDecodeKeepsExaminedBits _ _ (decode_encode i h)).2, BitVec.and_assoc, BitVec.and_not_self]
  exact BitVec.and_zero

/-- Settles O5: a word with the same examined bits is of the same row, so it decodes, to an instruction with the same
encoding, which is the same instruction. -/
theorem ignoredBitsDoNotMatter : Obligations.IgnoredBitsDoNotMatter := by
  refine ⟨fun w v i h heq => ?_, fun i => ?_⟩
  · obtain ⟨r, hr, hw, hk, -⟩ := row_and_kind_of_decode h
    have hmask : examinedBits i.kind &&& r.mask = r.mask := hk ▸ mask_and_examinedBits r hr
    have hv : v &&& r.mask = r.pattern := by
      rw [← hmask, ← BitVec.and_assoc, ← heq, BitVec.and_assoc, hmask, hw]
    obtain ⟨j, hj, hjk⟩ := decode_ok_of_row hr hv
    obtain ⟨hwf, henc⟩ := encodeOfDecodeKeepsExaminedBits w i h
    obtain ⟨hwf', henc'⟩ := encodeOfDecodeKeepsExaminedBits v j hj
    have hsame : encode j = encode i := by rw [henc', henc, hjk, hk, heq]
    rw [hj, ← decode_encode j hwf', hsame, decode_encode i hwf]
  · cases hwf : i.wellFormed with
    | true => exact encode_and_not_examinedBits hwf
    | false =>
      obtain ⟨rn, rm, rfl⟩ := eq_subs_xzr_of_not_wellFormed hwf
      exact encode_and_not_examinedBits (i := .cmp rn rm) rfl

end Sys2Proof
end

section
/-! The statements of 30_encoding.md on the assembler: the text of a line (O57), the range checks (O58), the branches
(O59) and the program a source makes (O60). -/

namespace Sys2Proof.Machine

/-! ## Comments and white space -/

theorem stripComment_cons {c : Char} (h : c ≠ '/') (cs : List Char) :
    stripComment (c :: cs) = c :: stripComment cs := by
  rw [stripComment]
  rintro _ rfl
  exact absurd rfl h

/-- A text without a slash holds no comment, and one put after it is stripped (30_encoding.md R110). -/
theorem stripComment_append {l : List Char} (h : '/' ∉ l) (cs : List Char) :
    stripComment (l ++ cs) = l ++ stripComment cs := by
  induction l with
  | nil => rfl
  | cons c l ih =>
    obtain ⟨hc, hl⟩ := List.ne_and_not_mem_of_not_mem_cons h
    rw [List.cons_append, stripComment_cons (Ne.symm hc), ih hl, List.cons_append]

theorem stripComment_of_no_slash {l : List Char} (h : '/' ∉ l) : stripComment l = l := by
  simpa [stripComment] using stripComment_append h []

theorem ne_slash_of_isSpace {c : Char} (h : isSpace c = true) : c ≠ '/' := by
  rintro rfl
  cases h

theorem trim_cons_of_isSpace {c : Char} (h : isSpace c = true) (l : List Char) : trim (c :: l) = trim l := by
  rw [trim, List.dropWhile_cons_of_pos h, trim]

theorem trim_append_of_isSpace {c : Char} (h : isSpace c = true) (l : List Char) : trim (l ++ [c]) = trim l := by
  unfold trim
  rw [List.dropWhile_append]
  split
  next hl => simp [List.isEmpty_iff.mp hl, h]
  next => rw [List.reverse_append, List.reverse_singleton, List.singleton_append, List.dropWhile_cons_of_pos h]

theorem trim_of_all_isSpace {l : List Char} (h : l.all isSpace = true) : trim l = [] := by
  rw [trim, List.dropWhile_eq_nil_iff.mpr (List.all_eq_true.mp h)]
  rfl

/-- Lines whose texts are the same without comment and outer white space are parsed the same. -/
theorem parseLine_congr {l l' : List Char} (n : Nat) (h : trim (stripComment l) = trim (stripComment l')) :
    parseLine n l = parseLine n l' := by
  rw [parseLine, h, parseLine]

/-- Settles O57: stripping a line leaves a text without a slash as it is, and trimming drops the white space. -/
theorem commentsAndWhiteSpaceAreStripped : Obligations.CommentsAndWhiteSpaceAreStripped := by
  refine fun n l => ⟨fun c hl => parseLine_congr n ?_, fun c hl hc => ⟨parseLine_congr n ?_, parseLine_congr n ?_⟩,
    fun hl => ?_⟩
  · rw [stripComment_append hl, stripComment_of_no_slash hl, stripComment, List.append_nil]
  · rw [stripComment_cons (ne_slash_of_isSpace hc), stripComment_of_no_slash hl, trim_cons_of_isSpace hc]
  · rw [stripComment_append hl, stripComment_cons (ne_slash_of_isSpace hc), stripComment_of_no_slash hl]
    exact trim_append_of_isSpace hc l
  · have hslash : '/' ∉ l := fun hm => ne_slash_of_isSpace (List.all_eq_true.mp hl _ hm) rfl
    rw [parseLine, stripComment_of_no_slash hslash, trim_of_all_isSpace hl]
    rfl

/-! ## Fields -/

section Fields

variable {n : Nat} {i : Int}

theorem signedField_of_range (h : -(2 ^ n : Int) ≤ i ∧ i < 2 ^ n) :
    ∃ v, signedField n i = .ok v ∧ v.toInt = i :=
  ⟨_, if_pos h, BitVec.toInt_ofInt_eq_self (Nat.succ_pos n) h.1 h.2⟩

theorem unsignedField_of_range (h : 0 ≤ i ∧ i < 2 ^ n) : ∃ v, unsignedField n i = .ok v ∧ (v.toNat : Int) = i := by
  refine ⟨_, if_pos h, ?_⟩
  rw [BitVec.toNat_ofInt, Int.emod_eq_of_lt h.1 (by exact_mod_cast h.2)]
  exact Int.toNat_of_nonneg h.1

/-- The value of an accepted signed field is the immediate. -/
theorem toInt_of_signedField {v : BitVec (n + 1)} (h : signedField n i = .ok v) : v.toInt = i := by
  unfold signedField at h
  split at h
  next hr =>
    cases h
    exact BitVec.toInt_ofInt_eq_self (Nat.succ_pos n) hr.1 hr.2
  next => cases h

/-- The only error of an unsigned field is ImmediateOutOfRange (30_encoding.md R118). -/
theorem unsignedField_error {e : AsmErrorKind} (h : unsignedField n i = .error e) : e = .immediateOutOfRange := by
  unfold unsignedField at h
  split at h <;> cases h
  rfl

/-- An instruction made from a signed field checks the field's range (30_encoding.md R118). -/
theorem checksOffset_of_signedField {asm : Except AsmErrorKind Instr} {mk : BitVec (n + 1) → Instr}
    (h : asm = (signedField n i).map mk) : ChecksOffset asm mk i (-(2 ^ n)) (2 ^ n - 1) := by
  subst h
  refine ⟨fun hr => ?_, fun hr => ?_⟩
  · obtain ⟨v, hv, hi⟩ := signedField_of_range (n := n) (i := i) ⟨hr.1, by omega⟩
    exact ⟨v, by rw [hv]; rfl, hi⟩
  · rw [signedField, if_neg (by omega)]
    rfl

end Fields

theorem checksRange_of_signedField {n : Nat} {asm : Int → Except AsmErrorKind Instr} {mk : BitVec (n + 1) → Instr}
    (h : ∀ i, asm i = (signedField n i).map mk) : ChecksRange asm mk (fun v => v.toInt) (-(2 ^ n)) (2 ^ n - 1) :=
  fun i => checksOffset_of_signedField (h i)

theorem checksRange_of_unsignedField {n : Nat} {asm : Int → Except AsmErrorKind Instr} {mk : BitVec n → Instr}
    (h : ∀ i, asm i = (unsignedField n i).map mk) : ChecksRange asm mk (fun v => v.toNat) 0 (2 ^ n - 1) := by
  intro i
  simp only [h]
  refine ⟨fun hr => ?_, fun hr => ?_⟩
  · obtain ⟨v, hv, hi⟩ := unsignedField_of_range (n := n) (i := i) ⟨hr.1, by omega⟩
    exact ⟨v, by rw [hv]; rfl, hi⟩
  · rw [unsignedField, if_neg (by omega)]
    rfl

/-! ## One instruction

Each operand form, once its registers and its label are read: the check of its field, and the instruction made of it. -/

section Forms

variable {a b : RegName} {ra rb : RegIdx} (ha : a.number = .ok ra) (hb : b.number = .ok rb)
variable {t : LabelTable} {l : LabelName} {target : Nat} (hl : t.address l = .ok target) (addr : Nat)

include ha in
theorem asmMovz_eq (i : Int) : asmMovz [.reg a, .imm i] = (unsignedField 16 i).map fun v => .movz ra v 0 := by
  simp only [asmMovz, Operand.toReg, Operand.toImm, ha, bind_pure_comp]
  rfl

include ha in
/-- MOVZ checks its immediate, then its shift. -/
theorem asmMovz_shift_eq (i s : Int) : asmMovz [.reg a, .imm i, .shift s] =
    (unsignedField 16 i).bind fun v => (Operand.shift s).toHw.map fun hw => .movz ra v hw := by
  simp only [asmMovz, Operand.toReg, Operand.toImm, ha, bind_pure_comp]
  rfl

include ha hb in
theorem asmImm_eq (f : RegIdx → RegIdx → BitVec 12 → Instr) (i : Int) :
    asmImm f [.reg a, .reg b, .imm i] = (signedField 11 i).map (f ra rb) := by
  simp only [asmImm, Operand.toReg, Operand.toImm, ha, hb, bind_pure_comp]
  rfl

include ha hb in
theorem asmShift_eq (f : RegIdx → RegIdx → BitVec 6 → Instr) (i : Int) :
    asmShift f [.reg a, .reg b, .imm i] = (unsignedField 6 i).map (f ra rb) := by
  simp only [asmShift, Operand.toReg, Operand.toImm, ha, hb, bind_pure_comp]
  rfl

include ha hb in
theorem asmMem_eq (f : RegIdx → RegIdx → BitVec 9 → Instr) (i : Int) :
    asmMem f [.reg a, .mem b i] = (signedField 8 i).map (f ra rb) := by
  simp only [asmMem, Operand.toReg, ha, hb, bind_pure_comp]
  rfl

include hl in
theorem toOffset_label (n : Nat) :
    (Operand.label l).toOffset t addr n = signedField n (((target : Int) - addr) / 4) := by
  simp only [Operand.toOffset, hl]

include hl in
theorem asmBranch_eq : asmBranch t addr [.label l] = (signedField 25 (((target : Int) - addr) / 4)).map .b := by
  simp only [asmBranch, toOffset_label hl, bind_pure_comp]
  rfl

include hl in
theorem asmCondBranch_eq (c : Cond) :
    asmCondBranch t addr c [.label l] = (signedField 18 (((target : Int) - addr) / 4)).map (.bCond c) := by
  simp only [asmCondBranch, toOffset_label hl, bind_pure_comp]
  rfl

include ha hl in
theorem asmCompareBranch_eq (f : RegIdx → BitVec 19 → Instr) :
    asmCompareBranch t addr f [.reg a, .label l] = (signedField 18 (((target : Int) - addr) / 4)).map (f ra) := by
  simp only [asmCompareBranch, Operand.toReg, ha, toOffset_label hl, bind_pure_comp]
  rfl

end Forms

/-! ## The range checks -/

theorem toHw_of_mem : ∀ p ∈ [((0 : Int), (0 : BitVec 2)), (16, 1), (32, 2), (48, 3)],
    (Operand.shift p.1).toHw = .ok p.2 := by decide

theorem toHw_of_other {s : Int} (h : s ≠ 0 ∧ s ≠ 16 ∧ s ≠ 32 ∧ s ≠ 48) :
    (Operand.shift s).toHw = .error .immediateOutOfRange := by
  simp [Operand.toHw, h]

/-- Settles O58: each form is made from the check of its field, and each check accepts its range. -/
theorem immediateRanges : Obligations.ImmediateRanges := by
  intro t addr a b ra rb ha hb
  refine ⟨?_, ?_, ?_, ?_, fun p hp => ?_, fun s i hs => ?_, fun l target hl => ⟨?_, fun c => ?_, ?_, ?_⟩⟩
  · simp only [List.forall_mem_cons]
    exact ⟨checksRange_of_signedField (asmImm_eq ha hb .addi), checksRange_of_signedField (asmImm_eq ha hb .subi),
      nofun⟩
  · simp only [List.forall_mem_cons]
    exact ⟨checksRange_of_signedField (asmMem_eq ha hb .ldur), checksRange_of_signedField (asmMem_eq ha hb .stur),
      checksRange_of_signedField (asmMem_eq ha hb .ldursw), checksRange_of_signedField (asmMem_eq ha hb .sturw),
      checksRange_of_signedField (asmMem_eq ha hb .ldurb), checksRange_of_signedField (asmMem_eq ha hb .sturb), nofun⟩
  · simp only [List.forall_mem_cons]
    exact ⟨checksRange_of_unsignedField (asmShift_eq ha hb .lsl), checksRange_of_unsignedField (asmShift_eq ha hb .lsr),
      nofun⟩
  · exact checksRange_of_unsignedField (asmMovz_eq ha)
  · refine checksRange_of_unsignedField fun i => (asmMovz_shift_eq ha i p.1).trans ?_
    rw [toHw_of_mem p hp]
    cases unsignedField 16 i <;> rfl
  · refine (asmMovz_shift_eq ha i s).trans ?_
    rw [toHw_of_other hs]
    cases h : unsignedField 16 i with
    | ok v => rfl
    | error e => rw [unsignedField_error h]; rfl
  · exact checksOffset_of_signedField (asmBranch_eq hl addr)
  · exact checksOffset_of_signedField (asmCondBranch_eq hl addr c)
  · exact checksOffset_of_signedField (asmCompareBranch_eq ha hl addr .cbz)
  · exact checksOffset_of_signedField (asmCompareBranch_eq ha hl addr .cbnz)

/-! ## Branch targets -/

/-- The byte offset of a word offset is 4 times it, modulo 2^64 (30_encoding.md R91). -/
theorem signExtend_shiftLeft_two {n : Nat} (v : BitVec n) :
    v.signExtend 64 <<< 2 = BitVec.ofInt 64 (4 * v.toInt) := by
  rw [BitVec.shiftLeft_eq_mul_twoPow, Int.mul_comm, BitVec.ofInt_mul]
  rfl

/-- A word offset added to the branch's own address gives the label's address (30_encoding.md R113). -/
theorem add_wordOffset {n addr target : Nat} {v : BitVec n} (haddr : addr % 4 = 0) (htarget : target % 4 = 0)
    (hv : v.toInt = ((target : Int) - addr) / 4) :
    BitVec.ofNat 64 addr + v.signExtend 64 <<< 2 = BitVec.ofNat 64 target := by
  have hoff : (addr : Int) + 4 * v.toInt = target := by omega
  rw [signExtend_shiftLeft_two, ← BitVec.ofInt_natCast, ← BitVec.ofInt_natCast, ← BitVec.ofInt_add, hoff]

/-- What is made from a signed field is made of a value of the field. -/
theorem eq_mk_of_signedField {n : Nat} {i : Int} {mk : BitVec (n + 1) → Instr} {instr : Instr}
    (h : (signedField n i).map mk = .ok instr) : ∃ v, instr = mk v ∧ v.toInt = i := by
  cases hf : signedField n i with
  | error e => rw [hf] at h; cases h
  | ok v =>
    rw [hf] at h
    exact ⟨v, (Except.ok.inj h).symm, toInt_of_signedField hf⟩

/-- A CBZ or CBNZ that assembles names a register. -/
theorem number_of_asmCompareBranch {t : LabelTable} {addr : Nat} {f : RegIdx → BitVec 19 → Instr} {r : RegName}
    {o : Operand} {i : Instr} (h : asmCompareBranch t addr f [.reg r, o] = .ok i) : ∃ k, r.number = .ok k := by
  cases hr : r.number with
  | ok k => exact ⟨k, rfl⟩
  | error e => simp only [asmCompareBranch, Operand.toReg, hr] at h; cases h

section Taken

variable {s t : State}

theorem State.branch_pc_of_taken (s : State) (sig : ControlSignals) (res off : Word) {taken : Bool}
    (h : taken = true) : (s.branch sig res taken off).pc = s.pc + off := by
  subst h
  rfl

theorem exec_b_pc {br26 : BitVec 26} (h : exec (.b br26) s = .next t) : t.pc = s.pc + branchOff br26 := by
  obtain rfl := Host.Outcome.next.inj h
  rfl

theorem exec_bCond_pc {c : Cond} {cbr19 : BitVec 19} (hc : condHolds c s.flags = true)
    (h : exec (.bCond c cbr19) s = .next t) : t.pc = s.pc + condBranchOff cbr19 := by
  have hexec : exec (.bCond c cbr19) s = .next (s.branchIf c cbr19) := by cases c <;> rfl
  obtain rfl := Host.Outcome.next.inj (hexec.symm.trans h)
  exact State.branch_pc_of_taken _ _ _ _ hc

theorem exec_cbz_pc {rt : RegIdx} {cbr19 : BitVec 19} (hr : s.reg rt = 0) (h : exec (.cbz rt cbr19) s = .next t) :
    t.pc = s.pc + condBranchOff cbr19 := by
  obtain rfl := Host.Outcome.next.inj h
  exact State.branch_pc_of_taken _ _ _ _ (beq_iff_eq.mpr hr)

theorem exec_cbnz_pc {rt : RegIdx} {cbr19 : BitVec 19} (hr : s.reg rt ≠ 0) (h : exec (.cbnz rt cbr19) s = .next t) :
    t.pc = s.pc + condBranchOff cbr19 := by
  obtain rfl := Host.Outcome.next.inj h
  exact State.branch_pc_of_taken _ _ _ _ (bne_iff_ne.mpr hr)

/-- A branch made from the word offset to `target`, where it adds its offset to its own address, goes to `target`. -/
theorem pc_of_wordOffset {n addr target : Nat} {mk : BitVec (n + 1) → Instr} {i : Instr} (haddr : addr % 4 = 0)
    (htarget : target % 4 = 0) (hpc : s.pc = BitVec.ofNat 64 addr) (hexec : exec i s = .next t)
    (hasm : (signedField n (((target : Int) - addr) / 4)).map mk = .ok i)
    (htaken : ∀ v, exec (mk v) s = .next t → t.pc = s.pc + v.signExtend 64 <<< 2) :
    t.pc = BitVec.ofNat 64 target := by
  obtain ⟨v, rfl, hv⟩ := eq_mk_of_signedField hasm
  rw [htaken v hexec, hpc]
  exact add_wordOffset haddr htarget hv

end Taken

/-- Settles O59: a branch that assembles holds the word offset to its label, and a taken branch adds it to its own
address. -/
theorem branchesResolveToTheirLabels : Obligations.BranchesResolveToTheirLabels := by
  intro labels addr target l i s t hl haddr htarget hpc hexec
  refine ⟨fun h => ?_, fun c h hc => ?_, fun r h hr => ?_, fun r h hr => ?_⟩
  · exact pc_of_wordOffset haddr htarget hpc hexec ((asmBranch_eq hl addr).symm.trans h) fun _ => exec_b_pc
  · exact pc_of_wordOffset haddr htarget hpc hexec ((asmCondBranch_eq hl addr c).symm.trans h)
      fun _ => exec_bCond_pc hc
  · obtain ⟨k, hk⟩ := number_of_asmCompareBranch h
    exact pc_of_wordOffset haddr htarget hpc hexec ((asmCompareBranch_eq hk hl addr .cbz).symm.trans h)
      fun _ => exec_cbz_pc (hr k hk)
  · obtain ⟨k, hk⟩ := number_of_asmCompareBranch h
    exact pc_of_wordOffset haddr htarget hpc hexec ((asmCompareBranch_eq hk hl addr .cbnz).symm.trans h)
      fun _ => exec_cbnz_pc (hr k hk)

/-! ## The program of a source -/

/-- A source that assembles has no error in either pass, and its program is pass 2's (30_encoding.md R120). -/
theorem assemble_eq_ok {src : List SourceLine} {es : List (Word × InstrWord)} (h : assemble src = .ok es) :
    (pass1 0 src []).2 = [] ∧ (pass2 (pass1 0 src []).1 0 src).2 = [] ∧ es = (pass2 (pass1 0 src []).1 0 src).1 := by
  simp only [assemble, List.append_eq_nil_iff] at h
  split at h
  next hnil => exact ⟨hnil.1, hnil.2, (Except.ok.inj h).symm⟩
  next => cases h

/-- Pass 2 without an error makes the entries of its words at contiguous addresses (30_encoding.md R114). -/
theorem pass2_eq_entriesFrom {t : LabelTable} {addr : Nat} {src : List SourceLine} (h : (pass2 t addr src).2 = []) :
    ∃ ws, (pass2 t addr src).1 = entriesFrom addr ws := by
  induction src generalizing addr with
  | nil => exact ⟨[], rfl⟩
  | cons line src ih =>
    cases hs : line.stmt with
    | none =>
      simp only [pass2, hs, SourceLine.next, Option.isSome_none, Bool.false_eq_true, if_false] at h ⊢
      exact ih h
    | some p =>
      simp only [pass2, hs, SourceLine.next, Option.isSome_some, if_true] at h ⊢
      cases ha : asmStmt t addr p.1 p.2 with
      | error e => simp [ha] at h
      | ok i =>
        simp only [ha] at h ⊢
        obtain ⟨ws, hws⟩ := ih h
        exact ⟨encode i :: ws, by rw [hws, entriesFrom]⟩

theorem length_entriesFrom (a : Nat) (ws : List InstrWord) : (entriesFrom a ws).length = ws.length := by
  induction ws generalizing a with
  | nil => rfl
  | cons w ws ih => rw [entriesFrom, List.length_cons, ih, List.length_cons]

theorem map_snd_entriesFrom (a : Nat) (ws : List InstrWord) : (entriesFrom a ws).map (·.2) = ws := by
  induction ws generalizing a with
  | nil => rfl
  | cons w ws ih => rw [entriesFrom, List.map_cons, ih]

theorem toNat_ofNat_of_lt {a : Nat} (h : a < 2 ^ 64) : (BitVec.ofNat 64 a).toNat = a := by
  rw [BitVec.toNat_ofNat, Nat.mod_eq_of_lt h]

/-- Entries at contiguous addresses that do not wrap are in order. -/
theorem sortEntries_entriesFrom {a : Nat} {ws : List InstrWord} (h : a + 4 * ws.length ≤ 2 ^ 64) :
    sortEntries (entriesFrom a ws) = entriesFrom a ws := by
  induction ws generalizing a with
  | nil => rfl
  | cons w ws ih =>
    rw [List.length_cons] at h
    rw [entriesFrom, sortEntries, ih (by omega)]
    cases ws with
    | nil => rfl
    | cons w' ws =>
      rw [List.length_cons] at h
      rw [entriesFrom, insertEntry, if_pos]
      rw [toNat_ofNat_of_lt (by omega), toNat_ofNat_of_lt (by omega)]
      omega

/-- Entries at contiguous addresses that do not wrap are contiguous. -/
theorem contiguousFrom_entriesFrom {a : Nat} {ws : List InstrWord} (h : a + 4 * ws.length ≤ 2 ^ 64) :
    contiguousFrom a (entriesFrom a ws) = true := by
  induction ws generalizing a with
  | nil => rfl
  | cons w ws ih =>
    rw [List.length_cons] at h
    rw [entriesFrom, contiguousFrom, ih (by omega), toNat_ofNat_of_lt (by omega)]
    simp

/-- The program of entries at contiguous multiples of 4 (70_reset_and_hazards.md R311). -/
theorem ofEntries_entriesFrom {a : Nat} {ws : List InstrWord} (ha : a % 4 = 0) (h : a + 4 * ws.length ≤ 2 ^ 64) :
    Program.ofEntries (entriesFrom a ws) = some ⟨if ws = [] then 0 else BitVec.ofNat 64 a, ws⟩ := by
  have hc := contiguousFrom_entriesFrom h
  have hm := map_snd_entriesFrom a ws
  rw [Program.ofEntries, sortEntries_entriesFrom h]
  cases ws with
  | nil => rfl
  | cons w ws =>
    rw [List.length_cons] at h
    rw [entriesFrom] at hc hm ⊢
    simp only [toNat_ofNat_of_lt (show a < 2 ^ 64 by omega), ha, hc, hm]
    rfl

/-- Loading entries at contiguous addresses from 0 sets pc to 0 and installs their words (70_reset_and_hazards.md
R311). -/
theorem hostLoad_entriesFrom_zero {ws : List InstrWord} (h : 4 * ws.length ≤ 2 ^ 64) (size : Nat)
    (core : Option State) : ∃ t, hostLoad size (entriesFrom 0 ws) core = (some t, .ok ()) ∧ t.pc = 0 ∧
      t.program.base = 0 ∧ t.program.words = ws := by
  rw [hostLoad, ofEntries_entriesFrom rfl (by omega)]
  refine ⟨_, rfl, ?_, ?_, rfl⟩
  · simp [State.loaded, Program.loadAddr]
  · simp [State.loaded]

/-- The word of the `k`-th entry is fetched from `4 * k` in the program of entries from 0. -/
theorem fetch_of_entriesFrom_zero {p : Program} {ws : List InstrWord} (hbase : p.base = 0) (hwords : p.words = ws)
    (h : 4 * ws.length ≤ 2 ^ 64) {k : Nat} {e : Word × InstrWord} (he : (entriesFrom 0 ws)[k]? = some e) :
    p.fetch (BitVec.ofNat 64 (4 * k)) = some e.2 := by
  have hw : ws[k]? = some e.2 := by rw [← map_snd_entriesFrom 0 ws, List.getElem?_map, he]; rfl
  have hk : k < ws.length := (List.getElem?_eq_some_iff.mp hw).1
  rw [Program.fetch_eq_some, toNat_ofNat_of_lt (by omega), hbase]
  exact ⟨Nat.mul_mod_right 4 k, k, (Nat.zero_add _).symm, hwords ▸ hw⟩

/-- Settles O60: the two passes give each label its slot and each slot its word, and the words are at contiguous
addresses from 0. -/
theorem assembledProgramsLoadAtZero : Obligations.AssembledProgramsLoadAtZero := by
  intro src es size core hasm hlen
  obtain ⟨h1, h2, rfl⟩ := assemble_eq_ok hasm
  obtain ⟨ws, hws⟩ := pass2_eq_entriesFrom h2
  obtain ⟨hcount, hget⟩ := pass2_get h2
  rw [hws] at hlen hcount hget ⊢
  rw [length_entriesFrom] at hlen
  refine ⟨fun before line after l hsrc hl => ?_, fun l hl => pass1_keeps h1 l (.inr hl), hcount, ?_⟩
  · subst hsrc
    simpa using pass1_address h1 hl
  · obtain ⟨t, ht, hpc, hbase, hwords⟩ := hostLoad_entriesFrom_zero hlen size core
    refine ⟨t, ht, hpc, fun k line m ops hk hs => ?_⟩
    obtain ⟨i, hi, hentry⟩ := hget k line m ops hk hs
    rw [Nat.zero_add] at hi hentry
    exact ⟨i, hi, hentry, fetch_of_entriesFrom_zero hbase hwords hlen hentry⟩

end Sys2Proof.Machine
end

section
/-! The statements of 40_datapath.md: the step's decoded and halted cases (O8, O10), the ALU (O23), the control table
(O14), the datapath (O9) and the observation (O50). The control unit and ALU control have the entry of a decoded word's
row, and the ALU fed by operand routing computes the result of the per-instruction rule. -/

namespace Sys2Proof.Machine

variable {s : State} {w : InstrWord} {r : OpRow} {i : Instr}

/-! ## Steps of a running and of a halted core -/

theorem step_of_decode (hr : s.halted = false) (hf : s.fetched = some w) (hd : decode w = .ok i) :
    step s = exec i s := by simp [step, hr, hf, hd]

/-- A running core that fetches a word of no row takes UnknownOpcode (60_exceptions.md R282). -/
theorem step_of_no_row (hr : s.halted = false) (hf : s.fetched = some w) (hw : ∀ r ∈ opcodeMap, r.matches w = false) :
    step s = .next (s.takeFault .unknownOpcode none) := by simp [step, hr, hf, decode_of_no_row hw]

theorem hostStep_of_step {t : State} (h : step s = .next t) : hostStep (some s) = (some t, .ok t.lastObs) := by
  simp [hostStep, h]

/-- Settles O8: the step fetches and decodes the instruction, and executes it. -/
theorem stepRunsTheDecodedInstruction : Obligations.StepRunsTheDecodedInstruction :=
  fun _ _ hr ⟨_, hf, hd⟩ => step_of_decode hr hf hd

/-- Settles O10: the host's step answers the stored observation of a core that does not move. -/
theorem haltedStepChangesNothing : Obligations.HaltedStepChangesNothing :=
  fun _ hh => ⟨step_of_halted hh, hostStep_of_step (step_of_halted hh), fun hs => hs.halted_has_obs hh⟩

/-! ## The ALU -/

theorem alu_sub (a b : Word) : alu .sub a b = ⟨a - b, subFlags a b⟩ :=
  congrArg (AluOut.mk · _) (sub_eq_add_not_one a b)

/-- The flags of a logical operation (40_datapath.md R140). -/
theorem logicFlags_eq (v : Word) : logicFlags v = ⟨v.msb, decide (v = 0), false, false⟩ := rfl

/-- LSL multiplies by a power of two modulo 2^64 (40_datapath.md R141). -/
theorem alu_lsl (a b : Word) : alu .lsl a b = ⟨BitVec.ofNat 64 (a.toNat * 2 ^ (b.toNat % 64)), noFlags⟩ := by
  refine congrArg (AluOut.mk · noFlags) (BitVec.eq_of_toNat_eq ?_)
  simp [BitVec.toNat_setWidth, Nat.shiftLeft_eq]

/-- LSR divides the unsigned value by a power of two (40_datapath.md R141). -/
theorem alu_lsr (a b : Word) : alu .lsr a b = ⟨BitVec.ofNat 64 (a.toNat / 2 ^ (b.toNat % 64)), noFlags⟩ := by
  refine congrArg (AluOut.mk · noFlags) (BitVec.eq_of_toNat_eq ?_)
  have hlt : a.toNat / 2 ^ (b.toNat % 64) < 2 ^ 64 := (Nat.div_le_self ..).trans_lt a.isLt
  simpa [BitVec.toNat_setWidth, Nat.shiftRight_eq_div_pow] using (Nat.mod_eq_of_lt hlt).symm

/-- Settles O23: the flag computations of ADD and SUB read as comparisons, and the bits and values of the others. -/
theorem aluOperations : Obligations.AluOperations := by
  intro a b
  refine ⟨⟨rfl, addFlags_eq a b⟩, ⟨sub_eq_add_not_one a b, subFlags_eq a b⟩, ?_, ?_, ?_, alu_lsl a b, alu_lsr a b, rfl⟩
  · simp only [alu, logicFlags_eq, BitVec.msb_and]
  · simp only [alu, logicFlags_eq, BitVec.msb_or, BitVec.ofNat_eq_ofNat, BitVec.or_eq_zero_iff]
  · simp only [alu, logicFlags_eq, BitVec.msb_xor, BitVec.ofNat_eq_ofNat, BitVec.xor_eq_zero_iff]

/-! ## The control unit and ALU control -/

section Columns

variable {k : Kind}

theorem controlRow_memRead : (controlRow k).memRead = true ↔ k ∈ [.ldur, .ldursw, .ldurb] := by cases k <;> decide

theorem controlRow_memWrite : (controlRow k).memWrite = true ↔ k ∈ [.stur, .sturw, .sturb] := by cases k <;> decide

theorem controlRow_halt : (controlRow k).halt = true ↔ k = .halt := by cases k <;> decide

end Columns

/-- Two patterns that one word agrees with agree where both masks cover. -/
theorem and_and_xor_eq_zero {n : Nat} {x m m' p p' : BitVec n} (h : x &&& m = p) (h' : x &&& m' = p') :
    m &&& m' &&& (p ^^^ p') = 0 := by
  subst h h'
  ext k hk
  simp only [BitVec.getElem_and, BitVec.getElem_xor, BitVec.ofNat_eq_ofNat, BitVec.getElem_zero]
  cases x[k] <;> cases m[k] <;> simp

/-- Rows of one format that some opcode field agrees with have one kind: only the rows of B.cond share a field. -/
theorem kind_eq_of_opcode : ∀ r ∈ opcodeMap, ∀ r' ∈ opcodeMap, r.format = r'.format →
    slice r.mask 21 11 &&& slice r'.mask 21 11 &&& (slice r.pattern 21 11 ^^^ slice r'.pattern 21 11) = 0 →
    r.kind = r'.kind := by decide

theorem opcodeCovers_iff {op : BitVec 11} :
    opcodeCovers r op = true ↔ op &&& slice r.mask 21 11 = slice r.pattern 21 11 := beq_iff_eq

/-- The opcode field of a row's word is one the row covers. -/
theorem opcodeCovers_of_row (hw : w &&& r.mask = r.pattern) : opcodeCovers r (slice w 21 11) = true := by
  rw [opcodeCovers_iff, ← hw]
  exact BitVec.extractLsb'_and.symm

/-- The control unit answers the row of the kind of any row of the format that covers the opcode (40_datapath.md R132). -/
theorem controlUnit_of_opcodeCovers {op : BitVec 11} (hr : r ∈ opcodeMap) (hop : opcodeCovers r op = true) :
    controlUnit r.format op = some (controlRow r.kind) := by
  unfold controlUnit
  cases hf : opcodeMap.find? fun r' => r'.format == r.format && opcodeCovers r' op with
  | none => simpa [hop] using List.find?_eq_none.mp hf r hr
  | some r' =>
    have hr' := List.find?_some hf
    simp only [Bool.and_eq_true, beq_iff_eq] at hr'
    obtain ⟨hformat, hop'⟩ := hr'
    have hk := kind_eq_of_opcode r' (List.mem_of_find?_eq_some hf) r hr hformat
      (and_and_xor_eq_zero (opcodeCovers_iff.mp hop') (opcodeCovers_iff.mp hop))
    exact congrArg (some ∘ controlRow) hk

/-- The ALU operation of a kind (40_datapath.md R136). -/
def aluOpOf : Kind → AluOp
  | .sub | .subs | .subi => .sub
  | .and => .and
  | .orr => .orr
  | .eor => .eor
  | .lsl => .lsl
  | .lsr => .lsr
  | .movz | .cbz | .cbnz | .bcond | .b | .halt => .pass
  | .add | .adds | .addi | .ldur | .ldursw | .ldurb | .stur | .sturw | .sturb => .add

/-- ALU control reads the opcode for the class R alone (40_datapath.md R136). -/
theorem aluControl_congr {cls : AluClass} (h : cls ≠ .rType) (op op' : BitVec 11) :
    aluControl cls op = aluControl cls op' := by
  cases cls
  case rType => exact absurd rfl h
  all_goals rfl

/-- The pattern of a row selects its kind's operation, and the mask of a row of class R covers the opcode field. -/
theorem aluControl_pattern : ∀ r ∈ opcodeMap,
    aluControl (controlRow r.kind).aluOp (slice r.pattern 21 11) = some (aluOpOf r.kind) ∧
      ((controlRow r.kind).aluOp = .rType → slice r.mask 21 11 = BitVec.allOnes 11) := by decide

/-- ALU control answers the operation of the kind of a row's word (40_datapath.md R136). -/
theorem aluControl_of_row (hr : r ∈ opcodeMap) (hw : w &&& r.mask = r.pattern) :
    aluControl (controlRow r.kind).aluOp (slice w 21 11) = some (aluOpOf r.kind) := by
  obtain ⟨hpat, hmask⟩ := aluControl_pattern r hr
  by_cases hcls : (controlRow r.kind).aluOp = .rType
  · rw [slice_of_mask hw 21 11 (hmask hcls), hpat]
  · rw [aluControl_congr hcls _ (slice r.pattern 21 11), hpat]

/-- A decoded record is the slices of a word by a row it matches (30_encoding.md R90, R92). -/
theorem row_of_decodeFields {d : DecodedFields} (h : decodeFields w = .ok d) :
    ∃ r ∈ opcodeMap, w &&& r.mask = r.pattern ∧ d = .ofWord r.kind r.format w := by
  unfold decodeFields at h
  cases hf : opcodeMap.find? (·.matches w) with
  | none => simp [hf] at h
  | some r =>
    simp only [hf, Except.ok.injEq] at h
    have hw := List.find?_some (p := fun r : OpRow => r.matches w) hf
    exact ⟨r, List.mem_of_find?_eq_some hf, OpRow.matches_iff.mp hw, h.symm⟩

/-- Settles O14: a decoded word's row has its entries in the control unit and ALU control; the columns are read off the
table kind by kind. -/
theorem controlTable : Obligations.ControlTable := by
  refine ⟨fun w d hd => ?_, ?_, ?_, fun _ => controlRow_memRead, fun _ => controlRow_memWrite, ?_, ?_, ?_, ?_,
    fun _ => controlRow_halt, ?_, ?_, ?_, ?_⟩
  · obtain ⟨r, hr, hw, rfl⟩ := row_of_decodeFields hd
    exact ⟨controlUnit_of_opcodeCovers hr (opcodeCovers_of_row hw), _, aluControl_of_row hr hw⟩
  all_goals
    intro k
    cases k <;> decide

/-! ## The datapath step -/

theorem decodeFields_of_row (hr : r ∈ opcodeMap) (hw : w &&& r.mask = r.pattern) :
    decodeFields w = .ok (.ofWord r.kind r.format w) := by
  simp [decodeFields, find_of_matches opcodeMap_apart hr (OpRow.matches_iff.mpr hw)]

theorem decodeFields_of_no_row (h : ∀ r ∈ opcodeMap, r.matches w = false) :
    decodeFields w = .error .unknownOpcode := by
  have hf : opcodeMap.find? (·.matches w) = none := List.find?_eq_none.mpr fun r hr => by simp [h r hr]
  simp [decodeFields, hf]

/-- The datapath stops on HALT's row, and executes a word of any other row with that row's signals and operation. -/
theorem datapathStep_of_row (hs : s.halted = false) (hf : s.fetched = some w) (hr : r ∈ opcodeMap)
    (hw : w &&& r.mask = r.pattern) :
    datapathStep s =
      if (controlRow r.kind).halt then s.haltStop (controlRow r.kind)
      else s.datapathExecute (.ofWord r.kind r.format w) (controlRow r.kind) (aluOpOf r.kind) := by
  have hcontrol : controlUnit r.format (slice w 21 11) = some (controlRow r.kind) :=
    controlUnit_of_opcodeCovers hr (opcodeCovers_of_row hw)
  have hop := aluControl_of_row hr hw
  simp only [datapathStep, hs, hf, decodeFields_of_row hr hw, DecodedFields.ofWord, hcontrol, hop]
  rfl

/-- What a meaning answers is the datapath's execution, if it is the memory stage on the ALU's output (40_datapath.md
R143 to R146). -/
theorem State.next_eq_datapathExecute {t : State} {d : DecodedFields} {sig : ControlSignals} {op : AluOp} {out : AluOut}
    (halu : alu op (s.reg (readAddr1 d)) (if sig.aluSrc then immediate d else s.reg (readAddr2 d)) = out)
    (ht : t = s.datapathMemory d sig out (s.reg (readAddr2 d))) :
    (.next t : StepOutcome) = .next (s.datapathExecute d sig op) := by subst ht halu; rfl

/-- The memory stage with a load's signals is the load (40_datapath.md R148, R149). -/
theorem State.datapathMemory_of_load {sig : ControlSignals} (hsig : sig = controlRow .ldur) (d : DecodedFields)
    (out : AluOut) (rd2 : Word) : s.datapathMemory d sig out rd2 =
      s.load sig (memWidth d.kind) (loadExtend d.kind) out.result d.rd := by
  rw [hsig, State.datapathMemory, State.load]
  cases s.accessFault out.result (memWidth d.kind) <;> rfl

/-- The memory stage with a store's signals is the store of RD2 (40_datapath.md R148). -/
theorem State.datapathMemory_of_store {sig : ControlSignals} (hsig : sig = controlRow .stur) (d : DecodedFields)
    (out : AluOut) (rd2 : Word) : s.datapathMemory d sig out rd2 =
      s.store sig (memWidth d.kind) out.result rd2 := by
  rw [hsig, State.datapathMemory, State.store]
  cases s.accessFault out.result (memWidth d.kind) <;> rfl

/-- `b[5:0]` of `zext_64(shamt)` is the whole field (40_datapath.md R141). -/
theorem setWidth_shAmt (sh : BitVec 6) : (shAmt sh).setWidth 6 = sh := BitVec.setWidth_setWidth_of_le sh (by decide)

theorem alu_lsl_shAmt (a : Word) (sh : BitVec 6) : alu .lsl a (shAmt sh) = ⟨a <<< sh.toNat, noFlags⟩ := by
  rw [alu, setWidth_shAmt]

theorem alu_lsr_shAmt (a : Word) (sh : BitVec 6) : alu .lsr a (shAmt sh) = ⟨a >>> sh.toNat, noFlags⟩ := by
  rw [alu, setWidth_shAmt]

theorem exec_bCond (c : Cond) (cbr19 : BitVec 19) (s : State) :
    exec (.bCond c cbr19) s = .next (s.branchIf c cbr19) := by cases c <;> rfl

theorem condFieldHolds_of_ofCode {b : BitVec 5} {c : Cond} (h : Cond.ofCode b = some c) (f : Flags) :
    condFieldHolds b f = condHolds c f := by simp [condFieldHolds, h]

/-- The instruction of a word's slices, HALT apart, does what the datapath does with them (40_datapath.md R152). -/
theorem exec_eq_datapathExecute {k : Kind} {f : Format} (hi : Instr.ofFields (.ofWord k f w) = .ok i) (hk : k ≠ .halt)
    (s : State) : exec i s = .next (s.datapathExecute (.ofWord k f w) (controlRow k) (aluOpOf k)) := by
  cases k
  case bcond =>
    simp only [Instr.ofFields, DecodedFields.ofWord] at hi
    split at hi <;> cases hi
    next c hc =>
      rw [exec_bCond, State.branchIf, ← condFieldHolds_of_ofCode hc]
      rfl
  case subs =>
    obtain rfl := Except.ok.inj hi
    split
    next hrd =>
      exact State.next_eq_datapathExecute (alu_sub _ _) (congrArg (s.writeResultFlags .subs · _ _) hrd.symm)
    next => exact State.next_eq_datapathExecute (alu_sub _ _) rfl
  all_goals obtain rfl := Except.ok.inj hi
  case halt => exact absurd rfl hk
  case add | adds | and | orr | eor | addi | movz | b | cbz | cbnz => rfl
  case sub | subi => exact State.next_eq_datapathExecute (alu_sub _ _) rfl
  case lsl => exact State.next_eq_datapathExecute (alu_lsl_shAmt _ _) rfl
  case lsr => exact State.next_eq_datapathExecute (alu_lsr_shAmt _ _) rfl
  case ldur | ldursw | ldurb => rw [State.datapathExecute, State.datapathMemory_of_load] <;> rfl
  case stur | sturw | sturb => rw [State.datapathExecute, State.datapathMemory_of_store] <;> rfl

/-- A running core executes a row's word as the datapath does. -/
theorem step_eq_datapathStep_of_row (hs : s.halted = false) (hf : s.fetched = some w) (hr : r ∈ opcodeMap)
    (hw : w &&& r.mask = r.pattern) : step s = .next (datapathStep s) := by
  obtain ⟨i, hd, -⟩ := decode_ok_of_row hr hw
  have hi := (decode_of_row hr hw).symm.trans hd
  rw [step_of_decode hs hf hd, datapathStep_of_row hs hf hr hw]
  by_cases hk : r.kind = .halt
  · rw [hk] at hi ⊢
    obtain rfl := Except.ok.inj hi
    rfl
  · rw [exec_eq_datapathExecute hi hk, if_neg (mt controlRow_halt.mp hk)]

/-- Settles O9: on a halted core, without a word, and on a word of no row both do the same at once; a word of a row has
its control entries, and the ALU computes the result of its instruction's rule. -/
theorem stepIsTheDatapath : Obligations.StepIsTheDatapath := by
  intro s
  cases hs : s.halted with
  | true => simp [step_of_halted hs, datapathStep, hs]
  | false =>
    cases hf : s.fetched with
    | none => simp [step_of_fetched_none hs hf, datapathStep, hs, hf]
    | some w =>
      by_cases hrow : ∃ r ∈ opcodeMap, w &&& r.mask = r.pattern
      · obtain ⟨r, hr, hw⟩ := hrow
        exact step_eq_datapathStep_of_row hs hf hr hw
      · have hno : ∀ r ∈ opcodeMap, r.matches w = false := fun r hr =>
          Bool.eq_false_iff.mpr fun hm => hrow ⟨r, hr, OpRow.matches_iff.mp hm⟩
        simp [step_of_no_row hs hf hno, datapathStep, hs, hf, decodeFields_of_no_row hno]

/-! ## The observation -/

/-- What the observation `o` of a step from `s` to `t` says, but for its data access (40_datapath.md R155). -/
structure ObservesStep (s t : State) (o : StepObservation) : Prop where
  lastObs_eq : t.lastObs = some o
  pcBefore_eq : o.pcBefore = s.pc
  raw_eq : o.raw = s.fetched
  /-- It describes the state it is stored in. -/
  obs_matches : ObsMatches t o
  /-- A register that changed is the one it reports. -/
  reg_reported : ∀ r, t.reg r ≠ s.reg r → o.regWritten = some r

namespace ObservesStep

theorem complete (hr : s.halted = false) (hf : s.fault = .none) (c : Completion) :
    ObservesStep s (s.complete c) (s.completeObs c) := by
  refine ⟨rfl, rfl, rfl, State.obsMatches_complete hr hf c, fun r hne => ?_⟩
  obtain ⟨h31, hdest⟩ := State.dest_of_complete_reg_ne hne
  obtain ⟨⟨_, v⟩, hd, rfl⟩ := Option.map_eq_some_iff.mp hdest
  simp only [State.completeObs, Completion.regWritten, hd]
  exact if_neg h31

theorem takeFault (k : FaultKind) (attempt : Option (ControlSignals × Word)) :
    ObservesStep s (s.takeFault k attempt) (s.faultObs k attempt) :=
  ⟨rfl, rfl, rfl, State.obsMatches_takeFault k attempt, fun _ hne => absurd rfl hne⟩

theorem haltStop (hf : s.fault = .none) (sig : ControlSignals) : ObservesStep s (s.haltStop sig) (s.haltObs sig) :=
  ⟨rfl, rfl, rfl, State.obsMatches_haltStop hf sig, fun _ hne => absurd rfl hne⟩

/-- Every step on a running core without a fault is observed. -/
theorem of_step {t : State} (hr : s.halted = false) (hf : s.fault = .none) (h : step s = .next t) :
    ∃ o, ObservesStep s t o := by
  rcases step_cases h with ⟨hh, -⟩ | ⟨-, -, rfl⟩ | ⟨_, _, -, -, -, rfl⟩ | ⟨_, _, -, -, -, he⟩
  · cases hr.symm.trans hh
  · exact ⟨_, takeFault _ _⟩
  · exact ⟨_, takeFault _ _⟩
  · rcases exec_cases he with ⟨c, rfl⟩ | ⟨_, _, -, rfl⟩ | ⟨-, rfl⟩
    · exact ⟨_, complete hr hf c⟩
    · exact ⟨_, takeFault _ _⟩
    · exact ⟨_, haltStop hf _⟩

end ObservesStep

/-- The effective address of an instruction's data access, if it makes one (42_load_store.md R219). -/
def State.accessAddr (s : State) (i : Instr) : Option Word := (dataAccess i).map fun a => s.effAddr a.1 a.2.1

theorem State.accessAddr_eq_some {rn : RegIdx} {dt9 : BitVec 9} {n : Nat} (h : dataAccess i = some (rn, dt9, n)) :
    s.accessAddr i = some (s.effAddr rn dt9) := by rw [accessAddr, h]; rfl

theorem State.accessAddr_eq_none (h : dataAccess i = none) : s.accessAddr i = none := by rw [accessAddr, h]; rfl

/-- The last observation reports the data access at `addr`, if any, as the signals direct (40_datapath.md R155). -/
def ReportsAccess (t : State) (sig : ControlSignals) (addr : Option Word) : Prop :=
  ∃ o, t.lastObs = some o ∧ o.memAddr = addr ∧ o.memRead = sig.memRead ∧ o.memWrite = sig.memWrite

theorem State.load_reportsAccess (s : State) (sig : ControlSignals) (n : Nat) (ext : Word → Word) (addr : Word)
    (rt : RegIdx) : ReportsAccess (s.load sig n ext addr rt) sig (some addr) := by
  rcases s.load_cases sig n ext addr rt with ⟨_, -, e⟩ | ⟨-, e⟩
  · rw [e]; exact ⟨_, rfl, rfl, rfl, rfl⟩
  · rw [e]; exact ⟨_, rfl, rfl, rfl, rfl⟩

theorem State.store_reportsAccess (s : State) (sig : ControlSignals) (n : Nat) (addr v : Word) :
    ReportsAccess (s.store sig n addr v) sig (some addr) := by
  rcases s.store_cases sig n addr v with ⟨_, -, e⟩ | ⟨-, e⟩
  · rw [e]; exact ⟨_, rfl, rfl, rfl, rfl⟩
  · rw [e]; exact ⟨_, rfl, rfl, rfl, rfl⟩

/-- An instruction reports its data access at its effective address, completed or faulting, and no other. -/
theorem exec_reportsAccess {t : State} (h : exec i s = .next t) :
    ReportsAccess t (controlRow i.kind) (s.accessAddr i) := by
  cases i <;> obtain rfl := Host.Outcome.next.inj h
  case ldur | ldursw | ldurb => exact State.load_reportsAccess ..
  case stur | sturw | sturb => exact State.store_reportsAccess ..
  all_goals exact ⟨_, rfl, rfl, rfl, rfl⟩

/-- An instruction without a data access has neither memory signal (40_datapath.md R132). -/
theorem controlRow_of_dataAccess_eq_none (h : dataAccess i = none) :
    (controlRow i.kind).memRead = false ∧ (controlRow i.kind).memWrite = false := by
  cases i
  case ldur | ldursw | ldurb | stur | sturw | sturb => cases h
  all_goals exact ⟨rfl, rfl⟩

/-- What an executed instruction's step reports of its data access. -/
theorem Executes.reportsAccess {t : State} (hi : Executes s i) (hr : s.halted = false) (h : step s = .next t) :
    ReportsAccess t (controlRow i.kind) (s.accessAddr i) :=
  exec_reportsAccess ((stepRunsTheDecodedInstruction s i hr hi).symm.trans h)

/-- A step that executes no instruction with a data access reports none. -/
theorem reportsNoAccess {t : State} (hr : s.halted = false) (h : step s = .next t)
    (hno : ∀ i, Executes s i → dataAccess i = none) : ReportsAccess t (controlRow .halt) none := by
  rcases step_cases h with ⟨hh, -⟩ | ⟨-, -, rfl⟩ | ⟨_, _, -, -, -, rfl⟩ | ⟨w, i, -, hf, hd, he⟩
  · cases hr.symm.trans hh
  · exact ⟨_, rfl, rfl, rfl, rfl⟩
  · exact ⟨_, rfl, rfl, rfl, rfl⟩
  · have hacc := hno i ⟨w, hf, hd⟩
    obtain ⟨hread, hwrite⟩ := controlRow_of_dataAccess_eq_none hacc
    obtain ⟨o, ho, ha, hmr, hmw⟩ := exec_reportsAccess he
    exact ⟨o, ho, ha.trans (State.accessAddr_eq_none hacc), hmr.trans hread, hmw.trans hwrite⟩

/-- Settles O50: each outcome of a step stores an observation of that step, and each executed instruction reports its
data access by its row of the control table; memory that changed was stored to by a store, which reports its address. -/
theorem observationDescribesTheStep : Obligations.ObservationDescribesTheStep := by
  refine ⟨fun s t => hostStep_of_step, fun k => by cases k <;> decide, fun s t hr hf h => ?_⟩
  obtain ⟨o, ho, hpc, hraw, ⟨hnext, hflags, hhalted, hfault, hval⟩, hreg⟩ := ObservesStep.of_step hr hf h
  have haccess : ∀ i rn dt9 n, Executes s i → dataAccess i = some (rn, dt9, n) →
      o.memAddr = some (s.effAddr rn dt9) ∧ (o.memRead = true ↔ i.kind ∈ [.ldur, .ldursw, .ldurb]) ∧
        (o.memWrite = true ↔ i.kind ∈ [.stur, .sturw, .sturb]) := by
    intro i rn dt9 n hi hacc
    obtain ⟨o', ho', ha, hmr, hmw⟩ := hi.reportsAccess hr h
    obtain rfl := Option.some.inj (ho'.symm.trans ho)
    rw [hmr, hmw, ha]
    exact ⟨State.accessAddr_eq_some hacc, controlRow_memRead, controlRow_memWrite⟩
  refine ⟨o, ho, hpc, hnext, hraw, hflags, hhalted, hfault, rfl, congrArg FaultKind.code hfault,
    fun r hne => ⟨hreg r hne, (hval r (hreg r hne)).2⟩, haccess, fun hno => ?_, fun ⟨a, hne⟩ => ?_⟩
  · obtain ⟨o', ho', hnoAccess⟩ := reportsNoAccess hr h hno
    exact Option.some.inj (ho'.symm.trans ho) ▸ hnoAccess
  · obtain ⟨i, rn, dt9, n, hi, hstore, hacc, -⟩ := onlyStoresChangeMemory s t a h hne
    obtain ⟨haddr, -, hwrite⟩ := haccess i rn dt9 n hi hacc
    exact ⟨hwrite.mpr (by simpa using hstore), i, rn, dt9, n, hi, hacc, haddr⟩

end Sys2Proof.Machine
end

section
/-! The statements of 41_arith_logic.md: ADD and SUB (O15), ADDS (O16), SUBS (O17), CMP (O18), the logical instructions
(O19), the shifts (O20), ADDI and SUBI (O21) and MOVZ (O22). Said once for all of them: a row's words decode to what its
slices name, and the commit of a register result is the whole next state of `RegisterForm`. What is left of each is that
its rule computes the stated value and flags. -/

namespace Sys2Proof.Machine

variable {s t : State} {i : Instr}

/-! ## The words -/

/-- The words of a row decode to the instruction their slices name (30_encoding.md R90, R92). -/
theorem decodesAs_of_row {r : OpRow} {f : InstrWord → Instr} (hr : r ∈ opcodeMap)
    (hf : ∀ w, Instr.ofFields (.ofWord r.kind r.format w) = .ok (f w)) : DecodesAs r.pattern r.mask f :=
  fun w hw => (decode_of_row hr hw).trans (hf w)

theorem decodesAs_subs_or_cmp : DecodesAs 0xEB000000 0xFFE00000 fun w =>
    if slice w 0 5 = 31 then .cmp (slice w 5 5) (slice w 16 5) else .subs (slice w 0 5) (slice w 5 5) (slice w 16 5) :=
  decodesAs_of_row (r := ⟨.subs, .R, 0xEB000000, 0xFFE00000⟩) (by decide) fun _ => rfl

/-- A word of CMP is a word of SUBS with Rd = 31 (30_encoding.md R116). -/
theorem subs_word_of_cmp_word {w : InstrWord} (h : w &&& 0xFFE0001F = 0xEB00001F) :
    w &&& 0xFFE00000 = 0xEB000000 ∧ slice w 0 5 = 31 := by
  refine ⟨?_, slice_of_mask h 0 5 (by decide)⟩
  calc w &&& 0xFFE00000
    _ = w &&& 0xFFE0001F &&& 0xFFE00000 := by rw [BitVec.and_assoc]; rfl
    _ = 0xEB000000 := by rw [h]; rfl

/-! ## The commit of a register result -/

/-- A commit of a register result, with or without flags, leaves everything else (40_datapath.md R147, R149). -/
theorem State.complete_registerForm (i : Instr) (s : State) (rd : RegIdx) (v : Word) (fl : Option Flags) :
    RegisterForm i s (s.complete { s.goOn (controlRow i.kind) v with dest := some (rd, v), flags := fl }) rd v
      (fl.getD s.flags) :=
  ⟨s.complete_writesReg rfl, rfl, rfl, s.complete_sameMem rfl, s.complete_sameRunState _, _, rfl,
    s.complete_observed _⟩

theorem State.writeResult_registerForm (i : Instr) (s : State) (rd : RegIdx) (v : Word) :
    RegisterForm i s (s.writeResult i.kind rd v) rd v s.flags :=
  s.complete_registerForm i rd v none

theorem State.writeResultFlags_registerForm (i : Instr) (s : State) (rd : RegIdx) (v : Word) (fl : Flags) :
    RegisterForm i s (s.writeResultFlags i.kind rd v fl) rd v fl :=
  s.complete_registerForm i rd v (some fl)

/-- An instruction that commits the result `r` has the effect of `v`, where `v` is the same value. -/
theorem registerForm_of_writeResult {rd : RegIdx} {r v : Word} (h : exec i s = .next (s.writeResult i.kind rd r))
    (hv : r = v) : ∃ t, exec i s = .next t ∧ RegisterForm i s t rd v s.flags :=
  ⟨_, h, hv ▸ s.writeResult_registerForm i rd r⟩

/-- An instruction that commits the flags `fl` has the effect of `fl'`, where `fl'` are the same flags. -/
theorem registerForm_of_writeResultFlags {rd : RegIdx} {v : Word} {fl fl' : Flags}
    (h : exec i s = .next (s.writeResultFlags i.kind rd v fl)) (hfl : fl = fl') :
    ∃ t, exec i s = .next t ∧ RegisterForm i s t rd v fl' :=
  ⟨_, h, hfl ▸ s.writeResultFlags_registerForm i rd v fl⟩

/-- A write to register 31 changes no register (10_state.md R23). -/
theorem sameRegs_of_writesReg_31 {v : Word} (h : WritesReg s t 31 v) : SameRegs s t := by
  intro r
  by_cases hr : r = 31
  · rw [hr]
    exact t.reg_31.trans s.reg_31.symm
  · exact h.2 r hr

/-! ## The values as exact results, wrapped -/

theorem add_ofInt (a : Word) (z : Int) : a + BitVec.ofInt 64 z = BitVec.ofInt 64 (a.toInt + z) := by
  rw [BitVec.ofInt_add, BitVec.ofInt_toInt]

theorem sub_ofInt (a : Word) (z : Int) : a - BitVec.ofInt 64 z = BitVec.ofInt 64 (a.toInt - z) := by
  rw [BitVec.sub_eq_add_neg, ← BitVec.ofInt_neg, add_ofInt, Int.sub_eq_add_neg]

theorem add_eq_ofInt (a b : Word) : a + b = BitVec.ofInt 64 (a.toInt + b.toInt) := by
  rw [← add_ofInt, BitVec.ofInt_toInt]

theorem sub_eq_ofInt (a b : Word) : a - b = BitVec.ofInt 64 (a.toInt - b.toInt) := by
  rw [← sub_ofInt, BitVec.ofInt_toInt]

/-- `sext_64(imm12)` has the signed value of imm12 (30_encoding.md R91). -/
theorem aluImm_eq_ofInt (imm12 : BitVec 12) : aluImm imm12 = BitVec.ofInt 64 imm12.toInt := rfl

theorem shiftLeft_eq_ofNat (a : Word) (k : Nat) : a <<< k = BitVec.ofNat 64 (a.toNat * 2 ^ k) :=
  congrArg (BitVec.ofNat 64) (Nat.shiftLeft_eq ..)

theorem ushiftRight_eq_ofNat (a : Word) (k : Nat) : a >>> k = BitVec.ofNat 64 (a.toNat / 2 ^ k) := by
  rw [← Nat.shiftRight_eq_div_pow, ← BitVec.toNat_ushiftRight, BitVec.ofNat_toNat, BitVec.setWidth_eq]

theorem movImm_eq_ofNat (imm16 : BitVec 16) (hw : BitVec 2) :
    movImm imm16 hw = BitVec.ofNat 64 (imm16.toNat * 2 ^ (16 * hw.toNat)) := by
  rw [movImm, shiftLeft_eq_ofNat, BitVec.toNat_setWidth_of_le (by decide)]

/-! ## The flags, with N as a comparison -/

theorem addFlags_eq_toInt (a b : Word) : addFlags a b = ⟨decide ((a + b).toInt < 0), decide (a + b = 0),
    decide (2 ^ 64 ≤ a.toNat + b.toNat), signedOverflow (a.toInt + b.toInt)⟩ := by
  rw [addFlags_eq, BitVec.msb_eq_toInt]

theorem subFlags_eq_toInt (a b : Word) : subFlags a b = ⟨decide ((a - b).toInt < 0), decide (a = b),
    decide (b.toNat ≤ a.toNat), signedOverflow (a.toInt - b.toInt)⟩ := by
  rw [subFlags_eq, BitVec.msb_eq_toInt]

/-! ## The statements -/

/-- Settles O15: the wrapped sum and difference are those of the signed values. -/
theorem addAndSub : Obligations.AddAndSub := by
  refine ⟨?_, ?_, fun rd rn rm s => ⟨?_, ?_⟩⟩
  · exact decodesAs_of_row (r := ⟨.add, .R, 0x8B000000, 0xFFE00000⟩) (by decide) fun _ => rfl
  · exact decodesAs_of_row (r := ⟨.sub, .R, 0xCB000000, 0xFFE00000⟩) (by decide) fun _ => rfl
  · exact registerForm_of_writeResult rfl (add_eq_ofInt ..)
  · exact registerForm_of_writeResult rfl (sub_eq_ofInt ..)

/-- Settles O16: the sum is committed with the flags of ALU ADD. -/
theorem addsSetsFlags : Obligations.AddsSetsFlags := by
  refine ⟨?_, fun rd rn rm s => ?_⟩
  · exact decodesAs_of_row (r := ⟨.adds, .R, 0xAB000000, 0xFFE00000⟩) (by decide) fun _ => rfl
  · exact registerForm_of_writeResultFlags rfl (addFlags_eq_toInt ..)

/-- Settles O17: the difference is committed with the flags of ALU SUB. -/
theorem subsSetsFlags : Obligations.SubsSetsFlags :=
  ⟨decodesAs_subs_or_cmp, fun _ _ _ _ => registerForm_of_writeResultFlags rfl (subFlags_eq_toInt ..)⟩

/-- Settles O18: a CMP word is a SUBS word with Rd = 31, and the write to register 31 is discarded. -/
theorem cmpIsSubsToXzr : Obligations.CmpIsSubsToXzr := by
  refine ⟨fun w hw => ?_, fun rn rm s => ⟨rfl, rfl, ?_⟩⟩
  · obtain ⟨hsubs, hrd⟩ := subs_word_of_cmp_word hw
    exact (decodesAs_subs_or_cmp w hsubs).trans (congrArg Except.ok (if_pos hrd))
  · obtain ⟨t, ht, hform⟩ := registerForm_of_writeResultFlags (i := .cmp rn rm) (s := s) rfl (subFlags_eq_toInt ..)
    exact ⟨t, ht, sameRegs_of_writesReg_31 hform.1, hform⟩

/-- Settles O19: the committed value is the bitwise operation, whose bits the library gives. -/
theorem logicalInstructions : Obligations.LogicalInstructions := by
  refine ⟨?_, ?_, ?_, fun rd rn rm s => ⟨?_, ?_, ?_⟩⟩
  · exact decodesAs_of_row (r := ⟨.and, .R, 0x8A000000, 0xFFE00000⟩) (by decide) fun _ => rfl
  · exact decodesAs_of_row (r := ⟨.orr, .R, 0xAA000000, 0xFFE00000⟩) (by decide) fun _ => rfl
  · exact decodesAs_of_row (r := ⟨.eor, .R, 0xCA000000, 0xFFE00000⟩) (by decide) fun _ => rfl
  · exact ⟨_, _, rfl, s.writeResult_registerForm (.and rd rn rm) .., fun _ => BitVec.getLsbD_and⟩
  · exact ⟨_, _, rfl, s.writeResult_registerForm (.orr rd rn rm) .., fun _ => BitVec.getLsbD_or⟩
  · exact ⟨_, _, rfl, s.writeResult_registerForm (.eor rd rn rm) .., fun _ => BitVec.getLsbD_xor⟩

/-- Settles O20: the shifts multiply and divide by a power of two. -/
theorem shiftInstructions : Obligations.ShiftInstructions := by
  refine ⟨?_, ?_, fun rd rn sh s => ⟨?_, ?_⟩⟩
  · exact decodesAs_of_row (r := ⟨.lsl, .R, 0xD3600000, 0xFFE00000⟩) (by decide) fun _ => rfl
  · exact decodesAs_of_row (r := ⟨.lsr, .R, 0xD3400000, 0xFFE00000⟩) (by decide) fun _ => rfl
  · exact registerForm_of_writeResult rfl (shiftLeft_eq_ofNat ..)
  · exact registerForm_of_writeResult rfl (ushiftRight_eq_ofNat ..)

/-- Settles O21: the immediate is the wrapped signed value of imm12. -/
theorem addiAndSubi : Obligations.AddiAndSubi := by
  refine ⟨?_, ?_, fun rd rn imm s => ⟨?_, ?_⟩⟩
  · exact decodesAs_of_row (r := ⟨.addi, .I, 0x91000000, 0xFFC00000⟩) (by decide) fun _ => rfl
  · exact decodesAs_of_row (r := ⟨.subi, .I, 0xD1000000, 0xFFC00000⟩) (by decide) fun _ => rfl
  · exact registerForm_of_writeResult rfl (by rw [aluImm_eq_ofInt, add_ofInt])
  · exact registerForm_of_writeResult rfl (by rw [aluImm_eq_ofInt, sub_ofInt])

/-- Settles O22: the committed value is the shifted immediate. -/
theorem movzPlacesTheImmediate : Obligations.MovzPlacesTheImmediate := by
  refine ⟨?_, fun rd imm hw s => ?_⟩
  · exact decodesAs_of_row (r := ⟨.movz, .IM, 0xD2800000, 0xFF800000⟩) (by decide) fun _ => rfl
  · exact registerForm_of_writeResult rfl (movImm_eq_ofNat ..)

end Sys2Proof.Machine
end

section
/-! The statements of 42_load_store.md: the effective address (O24), LDUR (O25), STUR (O26), LDURSW (O27), STURW (O28),
LDURB (O29) and STURB (O30). Said once for all of them: what an instruction that means a load or a store does for each
answer of the access check. What is left of each is its words, its meaning and, for a load, the value of its bytes. -/

namespace Sys2Proof.Machine

variable {mk : RegIdx → RegIdx → BitVec 9 → Instr} {n : Nat} {ext : Word → Word} {val : Nat → Word}

/-! ## The effective address -/

theorem State.effAddr_eq_ofInt (s : State) (rn : RegIdx) (dt9 : BitVec 9) :
    s.effAddr rn dt9 = BitVec.ofInt 64 ((s.reg rn).toNat + dt9.toInt) := by
  rw [BitVec.ofInt_add, BitVec.ofInt_natCast, BitVec.ofNat_toNat, BitVec.setWidth_eq]
  rfl

/-- Settles O24: the signed sum is wrapped once, and nine signed bits bound the offset. -/
theorem effectiveAddress : Obligations.EffectiveAddress := by
  intro s rn dt9
  have hlo := BitVec.le_toInt dt9
  have hhi := BitVec.toInt_lt (x := dt9)
  refine ⟨?_, by omega, by omega⟩
  rw [s.effAddr_eq_ofInt, BitVec.toNat_ofInt]
  exact Int.toNat_of_nonneg (Int.emod_nonneg _ (by decide))

/-! ## The value of a load -/

theorem memRead_eq_ofNat_bytesAt (s : State) (addr : Nat) (hn : n ≤ 8) :
    memRead s.dmem addr n = BitVec.ofNat 64 (s.bytesAt addr n) := by
  rw [← memRead_eq_bytesAt s addr n hn, BitVec.ofNat_toNat, BitVec.setWidth_eq]

theorem bytesAt_one_lt (s : State) (addr : Nat) : s.bytesAt addr 1 < 2 ^ 8 := (s.byte addr).isLt

theorem extDouble_memRead (s : State) (addr : Nat) :
    extDouble (memRead s.dmem addr 8) = BitVec.ofNat 64 (s.bytesAt addr 8) :=
  memRead_eq_ofNat_bytesAt s addr le_rfl

/-- LDURSW reads the 4 bytes as a signed word (40_datapath.md R134, decision D25). -/
theorem extWordSigned_memRead (s : State) (addr : Nat) :
    extWordSigned (memRead s.dmem addr 4) = BitVec.ofInt 64 (BitVec.ofNat 32 (s.bytesAt addr 4)).toInt := by
  rw [memRead_eq_ofNat_bytesAt s addr (by decide), extWordSigned, BitVec.setWidth_ofNat_of_le (by decide)]
  rfl

/-- LDURB's extension cuts nothing from the one byte read (40_datapath.md R134, decision D25). -/
theorem extByte_memRead (s : State) (addr : Nat) :
    extByte (memRead s.dmem addr 1) = BitVec.ofNat 64 (s.bytesAt addr 1) := by
  rw [memRead_eq_ofNat_bytesAt s addr (by decide), extByte, BitVec.setWidth_ofNat_of_le (by decide),
    BitVec.setWidth_ofNat_of_le_of_lt (by decide) (bytesAt_one_lt s addr)]

/-! ## The whole next state of a load and of a store -/

/-- A load's commit leaves everything but its register and pc (40_datapath.md R148, R149). -/
theorem State.complete_loadForm (i : Instr) (s : State) (n : Nat) (ext : Word → Word) (addr : Word) (rt : RegIdx) :
    LoadForm i s (s.complete (s.loadCompletion (controlRow i.kind) n ext addr rt)) rt addr
      (ext (memRead s.dmem addr.toNat n)) :=
  ⟨s.complete_writesReg rfl, rfl, rfl, s.complete_sameMem rfl, s.complete_sameRunState _, _, rfl,
    s.complete_observed _⟩

/-- A store's commit leaves everything but its bytes and pc (40_datapath.md R148). -/
theorem State.complete_storeForm (i : Instr) (s : State) (n : Nat) (addr v : Word) :
    StoreForm i s (s.complete (s.storeCompletion (controlRow i.kind) n addr v)) addr n v :=
  ⟨writesMem_of_dmem rfl, s.complete_sameRegs rfl, rfl, rfl, s.complete_sameRunState _, _, rfl,
    s.complete_observed _⟩

theorem State.load_of_accessFault_some {s : State} {addr : Word} {k : FaultKind} (h : s.accessFault addr n = some k)
    (sig : ControlSignals) (ext : Word → Word) (rt : RegIdx) :
    s.load sig n ext addr rt = s.takeFault k (some (sig, addr)) := by
  rw [State.load, h]

theorem State.store_of_accessFault_some {s : State} {addr : Word} {k : FaultKind} (h : s.accessFault addr n = some k)
    (sig : ControlSignals) (v : Word) : s.store sig n addr v = s.takeFault k (some (sig, addr)) := by
  rw [State.store, h]

/-! ## What the instructions mean -/

/-- The instructions `mk` load `n` bytes, extended by `ext`, into register `rt`. -/
def MeansLoad (mk : RegIdx → RegIdx → BitVec 9 → Instr) (n : Nat) (ext : Word → Word) : Prop :=
  ∀ rt rn dt9 s, exec (mk rt rn dt9) s =
    .next (s.load (controlRow (mk rt rn dt9).kind) n ext (s.effAddr rn dt9) rt)

/-- The instructions `mk` store the low `n` bytes of register `rt`. -/
def MeansStore (mk : RegIdx → RegIdx → BitVec 9 → Instr) (n : Nat) : Prop :=
  ∀ rt rn dt9 s, exec (mk rt rn dt9) s =
    .next (s.store (controlRow (mk rt rn dt9).kind) n (s.effAddr rn dt9) (s.reg rt))

/-- The instructions `mk` take the fault of the check of their `n`-byte access (60_exceptions.md R287). -/
def TakesAccessFault (mk : RegIdx → RegIdx → BitVec 9 → Instr) (n : Nat) : Prop :=
  ∀ rt rn dt9 s k, s.accessFault (s.effAddr rn dt9) n = some k → exec (mk rt rn dt9) s =
    .next (s.takeFault k (some (controlRow (mk rt rn dt9).kind, s.effAddr rn dt9)))

theorem ldur_meansLoad : MeansLoad .ldur 8 extDouble := fun _ _ _ _ => rfl

theorem ldursw_meansLoad : MeansLoad .ldursw 4 extWordSigned := fun _ _ _ _ => rfl

theorem ldurb_meansLoad : MeansLoad .ldurb 1 extByte := fun _ _ _ _ => rfl

theorem stur_meansStore : MeansStore .stur 8 := fun _ _ _ _ => rfl

theorem sturw_meansStore : MeansStore .sturw 4 := fun _ _ _ _ => rfl

theorem sturb_meansStore : MeansStore .sturb 1 := fun _ _ _ _ => rfl

/-! ## Each answer of the access check -/

theorem MeansLoad.takesAccessFault (h : MeansLoad mk n ext) : TakesAccessFault mk n := by
  intro rt rn dt9 s k hk
  rw [h rt rn dt9 s, State.load_of_accessFault_some hk]

theorem MeansStore.takesAccessFault (h : MeansStore mk n) : TakesAccessFault mk n := by
  intro rt rn dt9 s k hk
  rw [h rt rn dt9 s, State.store_of_accessFault_some hk]

theorem TakesAccessFault.misaligned (h : TakesAccessFault mk n) : MisalignedFaults mk n :=
  fun rt rn dt9 s hmis =>
    ⟨_, h rt rn dt9 s _ (State.accessFault_eq_alignmentFault_iff.mpr hmis), s.takeFault_form ..⟩

theorem TakesAccessFault.pastMemSize (h : TakesAccessFault mk n) : PastMemSizeFaults mk n :=
  fun rt rn dt9 s halign hout =>
    ⟨_, h rt rn dt9 s _ (State.accessFault_eq_memoryBoundsFault_iff.mpr ⟨halign, hout⟩), s.takeFault_form ..⟩

/-- A load completes with the number its bytes make, read by `val` as `ext` extends it. -/
theorem MeansLoad.completes (h : MeansLoad mk n ext)
    (hval : ∀ (s : State) addr, ext (memRead s.dmem addr n) = val (s.bytesAt addr n)) : LoadCompletes mk n val := by
  intro rt rn dt9 s halign hin
  have hok := State.accessFault_eq_none_iff.mpr ⟨halign, hin⟩
  rw [h rt rn dt9 s, State.load_of_accessFault_none hok, ← hval]
  exact ⟨_, rfl, s.complete_loadForm ..⟩

theorem MeansStore.completes (h : MeansStore mk n) : StoreCompletes mk n := by
  intro rt rn dt9 s halign hin
  have hok := State.accessFault_eq_none_iff.mpr ⟨halign, hin⟩
  rw [h rt rn dt9 s, State.store_of_accessFault_none hok]
  exact ⟨_, rfl, s.complete_storeForm ..⟩

/-! ## The statements -/

/-- Settles O25: a load of 8 bytes, whose value is their number. -/
theorem ldurLoadsADoubleword : Obligations.LdurLoadsADoubleword := by
  have hfault := ldur_meansLoad.takesAccessFault
  refine ⟨?_, ldur_meansLoad.completes extDouble_memRead, hfault.misaligned, hfault.pastMemSize⟩
  exact decodesAs_of_row (r := ⟨.ldur, .D, 0xF8400000, 0xFFE00000⟩) (by decide) fun _ => rfl

/-- Settles O26: a store of 8 bytes. -/
theorem sturStoresADoubleword : Obligations.SturStoresADoubleword := by
  have hfault := stur_meansStore.takesAccessFault
  refine ⟨?_, stur_meansStore.completes, hfault.misaligned, hfault.pastMemSize⟩
  exact decodesAs_of_row (r := ⟨.stur, .D, 0xF8000000, 0xFFE00000⟩) (by decide) fun _ => rfl

/-- Settles O27: a load of 4 bytes, whose value is that of the signed word they make. -/
theorem ldurswLoadsASignedWord : Obligations.LdurswLoadsASignedWord := by
  have hfault := ldursw_meansLoad.takesAccessFault
  refine ⟨?_, ldursw_meansLoad.completes extWordSigned_memRead, hfault.misaligned, hfault.pastMemSize⟩
  exact decodesAs_of_row (r := ⟨.ldursw, .D, 0xB8800000, 0xFFE00000⟩) (by decide) fun _ => rfl

/-- Settles O28: a store of 4 bytes. -/
theorem sturwStoresAWord : Obligations.SturwStoresAWord := by
  have hfault := sturw_meansStore.takesAccessFault
  refine ⟨?_, sturw_meansStore.completes, hfault.misaligned, hfault.pastMemSize⟩
  exact decodesAs_of_row (r := ⟨.sturw, .D, 0xB8000000, 0xFFE00000⟩) (by decide) fun _ => rfl

/-- Settles O29: a load of one byte, whose value is its number. -/
theorem ldurbLoadsAByte : Obligations.LdurbLoadsAByte := by
  refine ⟨?_, ldurb_meansLoad.completes extByte_memRead, ldurb_meansLoad.takesAccessFault.pastMemSize⟩
  exact decodesAs_of_row (r := ⟨.ldurb, .D, 0x38400000, 0xFFE00000⟩) (by decide) fun _ => rfl

/-- Settles O30: a store of one byte. -/
theorem sturbStoresAByte : Obligations.SturbStoresAByte := by
  refine ⟨?_, sturb_meansStore.completes, sturb_meansStore.takesAccessFault.pastMemSize⟩
  exact decodesAs_of_row (r := ⟨.sturb, .D, 0x38000000, 0xFFE00000⟩) (by decide) fun _ => rfl

end Sys2Proof.Machine
end

section
/-! The statements of 43_branch.md: B (O35), the fourteen conditional branches (O36), CBZ and CBNZ (O37), and the
conditions after CMP (O38). Said once for all branches: the commit of a branch by a word offset is the whole next state
of `BranchForm`. What is left of each is its words and when it is taken. -/

namespace Sys2Proof.Machine

variable {s t : State} {i : Instr} {n : Nat} {off : BitVec n}

/-! ## Targets as word offsets -/

theorem add_signExtend_shiftLeft_two (pc : Word) (off : BitVec n) :
    pc + off.signExtend 64 <<< 2 = wordsFrom pc off.toInt := by
  rw [signExtend_shiftLeft_two, add_ofInt, wordsFrom]

/-- The next instruction is one word further (10_state.md R27). -/
theorem add_four_eq_wordsFrom (pc : Word) : pc + 4 = wordsFrom pc 1 := add_ofInt pc 4

/-! ## The commit of a branch -/

/-- A branch's commit leaves everything but pc (40_datapath.md R151). -/
theorem State.branch_branchForm (i : Instr) (s : State) (res : Word) (taken : Bool) (off : BitVec n) :
    BranchForm i s (s.branch (controlRow i.kind) res taken (off.signExtend 64 <<< 2)) res
      (wordsFrom s.pc (if taken then off.toInt else 1)) := by
  refine ⟨?_, s.complete_sameRegs rfl, rfl, s.complete_sameMem rfl, s.complete_sameRunState _, _, rfl,
    s.complete_observed _⟩
  cases taken
  case false => exact add_four_eq_wordsFrom s.pc
  case true => exact add_signExtend_shiftLeft_two s.pc off

/-- An instruction that commits a branch goes `d` words from its own address, where `d` is what the test selects. -/
theorem branchForm_of_branch {res : Word} {taken : Bool} {d : Int}
    (h : exec i s = .next (s.branch (controlRow i.kind) res taken (off.signExtend 64 <<< 2)))
    (hd : (if taken then off.toInt else 1) = d) :
    ∃ t, exec i s = .next t ∧ BranchForm i s t res (wordsFrom s.pc d) :=
  ⟨_, h, hd ▸ s.branch_branchForm i res taken off⟩

/-! ## The conditions -/

/-- A condition holds where the table of 43_branch.md R250 says. -/
theorem condHolds_iff (c : Cond) (f : Flags) : condHolds c f = true ↔ CondTable c f := by
  cases c <;> simp [condHolds, CondTable, imp_iff_not_or]

theorem slice_row_opcode (c : Cond) : slice c.row.pattern 24 8 = 0x54 := by cases c <;> rfl

theorem slice_row_cond (c : Cond) : slice c.row.pattern 0 5 = c.code := by cases c <;> rfl

/-- The words of a condition's row are its branches (30_encoding.md R96). -/
theorem decodesAs_bCond (c : Cond) : DecodesAs c.row.pattern 0xFF00001F fun w => .bCond c (slice w 5 19) := by
  intro w hw
  have hop : slice w 24 8 = 0x54 := (slice_of_mask hw 24 8 (by decide)).trans (slice_row_opcode c)
  have hcond : slice w 0 5 = c.code := (slice_of_mask hw 0 5 (by decide)).trans (slice_row_cond c)
  exact (bcondConditionField w hop).1 c hcond

/-- B.cond is taken exactly where the table of 43_branch.md R250 says (R252). -/
theorem exec_bCond_branchForm (c : Cond) (off : BitVec 19) (s : State) : ∃ t, exec (.bCond c off) s = .next t ∧
    (CondTable c s.flags → BranchForm (.bCond c off) s t 0 (wordsFrom s.pc off.toInt)) ∧
    (¬CondTable c s.flags → BranchForm (.bCond c off) s t 0 (wordsFrom s.pc 1)) := by
  have hexec : exec (.bCond c off) s = .next (s.branch (controlRow (Instr.bCond c off).kind) 0
      (condHolds c s.flags) (off.signExtend 64 <<< 2)) := by
    rw [Instr.kind_bCond]
    exact exec_bCond c off s
  obtain ⟨t, ht, hform⟩ := branchForm_of_branch hexec rfl
  refine ⟨t, ht, fun hc => ?_, fun hc => ?_⟩
  · rwa [if_pos ((condHolds_iff ..).mpr hc)] at hform
  · rwa [if_neg (mt (condHolds_iff ..).mp hc)] at hform

/-! ## The flags after CMP -/

theorem exec_cmp_flags {rn rm : RegIdx} (h : exec (.cmp rn rm) s = .next t) :
    t.flags = subFlags (s.reg rn) (s.reg rm) := by
  obtain rfl := Host.Outcome.next.inj h
  rfl

theorem subFlags_z_iff (a b : Word) : (subFlags a b).z = true ↔ a = b := by simp [subFlags_eq]

theorem subFlags_c_iff (a b : Word) : (subFlags a b).c = true ↔ b.toNat ≤ a.toNat := by simp [subFlags_eq]

/-- The sign of the wrapped difference is wrong exactly where the difference overflows (40_datapath.md R139). -/
theorem subFlags_n_eq_v_iff (a b : Word) : (subFlags a b).n = (subFlags a b).v ↔ b.toInt ≤ a.toInt := by
  have ha := a.toInt_lt
  have hb := b.toInt_lt
  have ha' := a.le_toInt
  have hb' := b.le_toInt
  rw [subFlags_eq_toInt, signedOverflow, decide_eq_decide, BitVec.toInt_sub, Int.bmod_def]
  split <;> omega

/-! ## The statements -/

/-- Settles O35: B is always taken. -/
theorem branchGoesToItsTarget : Obligations.BranchGoesToItsTarget := by
  refine ⟨?_, fun off s => ?_⟩
  · exact decodesAs_of_row (r := ⟨.b, .B, 0x14000000, 0xFC000000⟩) (by decide) fun _ => rfl
  · exact branchForm_of_branch (taken := true) rfl rfl

/-- Settles O36: the listed words, instructions and conditions are those of the rows of the fourteen conditions. -/
theorem conditionalBranches : Obligations.ConditionalBranches := by
  intro p hp
  obtain ⟨c, -, rfl⟩ := List.mem_map (f := fun c : Cond => (c.row.pattern, Instr.bCond c, c))
    (l := [.eq, .ne, .hs, .lo, .mi, .pl, .vs, .vc, .hi, .ls, .ge, .lt, .gt, .le]) |>.mp hp
  exact ⟨decodesAs_bCond c, exec_bCond_branchForm c⟩

/-- Settles O37: the test of the register is the test of the statement. -/
theorem compareAndBranch : Obligations.CompareAndBranch := by
  refine ⟨?_, ?_, fun rt off s => ⟨?_, ?_⟩⟩
  · exact decodesAs_of_row (r := ⟨.cbz, .CB, 0xB4000000, 0xFF000000⟩) (by decide) fun _ => rfl
  · exact decodesAs_of_row (r := ⟨.cbnz, .CB, 0xB5000000, 0xFF000000⟩) (by decide) fun _ => rfl
  · exact branchForm_of_branch (taken := s.reg rt == 0) rfl (if_congr beq_iff_eq rfl rfl)
  · exact branchForm_of_branch (taken := s.reg rt != 0) rfl ((if_congr bne_iff_ne rfl rfl).trans (ite_not ..))

/-- Settles O38: Z is equality, C the unsigned order, and N = V the signed order of the operands. -/
theorem compareThenConditionOrdersOperands : Obligations.CompareThenConditionOrdersOperands := by
  intro rn rm s t h
  have hunsigned : s.reg rn = s.reg rm ↔ (s.reg rn).toNat = (s.reg rm).toNat := BitVec.toNat_inj.symm
  have hsigned : s.reg rn = s.reg rm ↔ (s.reg rn).toInt = (s.reg rm).toInt := BitVec.toInt_inj.symm
  simp only [condHolds_iff, CondTable, exec_cmp_flags h, ← Bool.not_eq_true, subFlags_z_iff, subFlags_c_iff,
    subFlags_n_eq_v_iff, ne_eq, Nat.not_le, Int.not_le, true_and]
  refine ⟨?hi, ?ls, ?gt, ?le⟩
  case hi | ls => rw [hunsigned]; omega
  case gt | le => rw [hsigned]; omega

end Sys2Proof.Machine
end

section
/-! The statement of 44_halt.md: HALT (O39). It stops the core for good, since a halted core reaches only itself. -/

namespace Sys2Proof.Machine

theorem stepsTo_iff_eq_of_halted {t : State} (h : t.halted = true) : ∀ n u, StepsTo n t u ↔ u = t
  | 0, _ => .rfl
  | n + 1, u => by simp [StepsTo, step_of_halted h, stepsTo_iff_eq_of_halted h n u]

/-- Settles O39: HALT executes as `haltStop` with its row of the control table, and every step leaves the halted core. -/
theorem haltStopsTheCore : Obligations.HaltStopsTheCore := by
  refine ⟨?_, fun s => ⟨s.haltStop (controlRow .halt), s.haltObs (controlRow .halt), rfl, rfl, rfl, ?_⟩⟩
  · exact decodesAs_of_row (r := ⟨.halt, .R, 0xFFE00000, 0xFFE00000⟩) (by decide) fun _ => rfl
  · exact stepsTo_iff_eq_of_halted (State.haltStop_halted ..)

end Sys2Proof.Machine
end

section
/-! The statements of 60_exceptions.md: UnknownOpcode (O41), fault entry (O42) and which fault a step reports (O43). The
only faults an instruction takes are those of the check of its data access. -/

namespace Sys2Proof.Machine

variable {s t : State} {i : Instr}

/-! ## The fault of an instruction -/

/-- The answer of the access check to an instruction, which passes it if it makes no data access (60_exceptions.md
R289). -/
def State.accessCheck (s : State) (i : Instr) : Option FaultKind :=
  (dataAccess i).bind fun a => s.accessFault (s.effAddr a.1 a.2.1) a.2.2

theorem State.accessCheck_of_access {rn : RegIdx} {dt9 : BitVec 9} {n : Nat} (h : dataAccess i = some (rn, dt9, n)) :
    s.accessCheck i = s.accessFault (s.effAddr rn dt9) n := by rw [accessCheck, h]; rfl

theorem State.accessCheck_of_no_access (h : dataAccess i = none) : s.accessCheck i = none := by
  rw [accessCheck, h]; rfl

theorem State.accessCheck_eq_some {k : FaultKind} (h : s.accessCheck i = some k) :
    ∃ rn dt9 n, dataAccess i = some (rn, dt9, n) ∧ s.accessFault (s.effAddr rn dt9) n = some k := by
  obtain ⟨⟨rn, dt9, n⟩, hacc, hk⟩ := Option.bind_eq_some_iff.mp h
  exact ⟨rn, dt9, n, hacc, hk⟩

theorem State.accessFault_kind {addr : Word} {n : Nat} {k : FaultKind} (h : s.accessFault addr n = some k) :
    k = .alignmentFault ∨ k = .memoryBoundsFault := by
  rcases s.accessFault_cases addr n with ⟨h', -⟩ | ⟨h', -⟩ | ⟨h', -⟩ <;> cases h.symm.trans h'
  · exact .inl rfl
  · exact .inr rfl

theorem State.load_fault (s : State) (sig : ControlSignals) (n : Nat) (ext : Word → Word) (addr : Word)
    (rt : RegIdx) : (s.load sig n ext addr rt).fault = (s.accessFault addr n).getD s.fault := by
  rcases s.load_cases sig n ext addr rt with ⟨_, hk, e⟩ | ⟨hk, e⟩
  · rw [e, hk]; rfl
  · rw [e, hk]; rfl

theorem State.store_fault (s : State) (sig : ControlSignals) (n : Nat) (addr v : Word) :
    (s.store sig n addr v).fault = (s.accessFault addr n).getD s.fault := by
  rcases s.store_cases sig n addr v with ⟨_, hk, e⟩ | ⟨hk, e⟩
  · rw [e, hk]; rfl
  · rw [e, hk]; rfl

/-- An instruction leaves the fault of its access check, and no other. -/
theorem exec_fault (h : exec i s = .next t) : t.fault = (s.accessCheck i).getD s.fault := by
  cases i <;> obtain rfl := Host.Outcome.next.inj h
  case ldur | ldursw | ldurb => exact State.load_fault ..
  case stur | sturw | sturb => exact State.store_fault ..
  all_goals rfl

/-- An instruction whose access check fails takes that fault, with its own signals and address (60_exceptions.md
R287). -/
theorem exec_of_accessFault {rn : RegIdx} {dt9 : BitVec 9} {n : Nat} {k : FaultKind}
    (hacc : dataAccess i = some (rn, dt9, n)) (hk : s.accessFault (s.effAddr rn dt9) n = some k) :
    exec i s = .next (s.takeFault k (some (controlRow i.kind, s.effAddr rn dt9))) := by
  cases i <;> cases hacc
  case ldur => exact ldur_meansLoad.takesAccessFault _ _ _ _ _ hk
  case ldursw => exact ldursw_meansLoad.takesAccessFault _ _ _ _ _ hk
  case ldurb => exact ldurb_meansLoad.takesAccessFault _ _ _ _ _ hk
  case stur => exact stur_meansStore.takesAccessFault _ _ _ _ _ hk
  case sturw => exact sturw_meansStore.takesAccessFault _ _ _ _ _ hk
  case sturb => exact sturb_meansStore.takesAccessFault _ _ _ _ _ hk

/-- What an executed instruction's step on a core without a fault leaves as its fault. -/
theorem Executes.fault_eq (hi : Executes s i) (hr : s.halted = false) (hf : s.fault = .none)
    (h : step s = .next t) : t.fault = (s.accessCheck i).getD .none :=
  hf ▸ exec_fault ((stepRunsTheDecodedInstruction s i hr hi).symm.trans h)

/-! ## The statements -/

/-- Settles O41: the step takes UnknownOpcode, and every step leaves the halted core. -/
theorem undefinedWordFaults : Obligations.UndefinedWordFaults :=
  fun s _ hr hf hw => ⟨_, step_of_no_row hr hf hw, s.takeFault_form _ _, step_of_halted rfl⟩

/-- Settles O42: a step that faults is `takeFault`, from the fetch, from the decoder, or from the access check of the
executed instruction. -/
theorem faultEntryChangesNothingElse : Obligations.FaultEntryChangesNothingElse := by
  intro s t hr hf h hne
  rcases step_cases h with ⟨hh, -⟩ | ⟨-, -, rfl⟩ | ⟨_, _, -, -, -, rfl⟩ | ⟨w, i, -, hw, hd, he⟩
  · cases hr.symm.trans hh
  · exact .inl ⟨.inl rfl, s.takeFault_form _ _⟩
  · exact .inl ⟨.inr rfl, s.takeFault_form _ _⟩
  · rcases hc : s.accessCheck i with - | k
    · exact absurd ((exec_fault he).trans (by rw [hc]; exact hf)) hne
    · obtain ⟨rn, dt9, n, hacc, hk⟩ := State.accessCheck_eq_some hc
      obtain rfl := Host.Outcome.next.inj (he.symm.trans (exec_of_accessFault hacc hk))
      exact .inr ⟨State.accessFault_kind hk, i, rn, dt9, n, ⟨w, hw, hd⟩, hacc, s.takeFault_form _ _⟩

/-- Settles O43: the fetch and the decoder fail with their own fault; past them, the fault is the answer of the access
check of the executed instruction. -/
theorem faultPriority : Obligations.FaultPriority := by
  intro s t hr hf h
  refine ⟨fun hw => ?_, fun w hw hd => ?_, fun i hi => ?_⟩
  · obtain rfl := Host.Outcome.next.inj (h.symm.trans (step_of_fetched_none hr hw))
    rfl
  · obtain rfl := Host.Outcome.next.inj
      (h.symm.trans (step_of_no_row hr hw ((unknownOpcodeIffNoRowMatches w).mp hd)))
    rfl
  · have hfault := hi.fault_eq hr hf h
    refine ⟨fun hacc => ?_, ?_, fun rn dt9 n hacc => ?_⟩
    · rw [hfault, State.accessCheck_of_no_access hacc]; rfl
    · rintro rfl
      obtain rfl := Host.Outcome.next.inj (h.symm.trans (stepRunsTheDecodedInstruction s .halt hr hi))
      exact ⟨rfl, hf⟩
    · rw [State.accessCheck_of_access hacc] at hfault
      refine ⟨fun hmis => ?_, fun halign hout => ?_, fun halign hin => ?_⟩
      · rw [hfault, State.accessFault_eq_alignmentFault_iff.mpr hmis]; rfl
      · rw [hfault, State.accessFault_eq_memoryBoundsFault_iff.mpr ⟨halign, hout⟩]; rfl
      · rw [hfault, State.accessFault_eq_none_iff.mpr ⟨halign, hin⟩]; rfl

end Sys2Proof.Machine
end

section
/-! The statements of 70_reset_and_hazards.md: load (O51), reset (O11, O52, O53), the bounded run (O54), the reads (O55)
and the operations before the first load (O56). Entries are accepted exactly if, sorted by address, they are the entries
of some words at contiguous addresses; and a core has the values of R319 at reset, after `load` and after `reset`. -/

namespace Sys2Proof.Machine

/-! ## The program of given words -/

/-- The words `ws` from `base` on; without a word, the empty program (70_reset_and_hazards.md R311, decision D21). -/
def Program.ofWords (base : Nat) (ws : List InstrWord) : Program := ⟨if ws = [] then 0 else BitVec.ofNat 64 base, ws⟩

theorem mem_entriesFrom {base : Nat} {ws : List InstrWord} {a : Word} {w : InstrWord} :
    (a, w) ∈ entriesFrom base ws ↔ ∃ k, a = BitVec.ofNat 64 (base + 4 * k) ∧ ws[k]? = some w := by
  induction ws generalizing base with
  | nil => simp [entriesFrom]
  | cons v ws ih =>
    have hnext (k : Nat) : base + 4 + 4 * k = base + 4 * (k + 1) := by omega
    rw [entriesFrom, List.mem_cons, ih, Prod.mk.injEq]
    simp only [hnext]
    constructor
    · rintro (⟨ha, hw⟩ | ⟨k, ha, hk⟩)
      · exact ⟨0, ha, congrArg some hw.symm⟩
      · exact ⟨k + 1, ha, hk⟩
    · rintro ⟨- | k, ha, hk⟩
      · exact .inl ⟨ha, (Option.some.inj hk).symm⟩
      · exact .inr ⟨k, ha, hk⟩

namespace Program

@[simp] theorem words_ofWords (base : Nat) (ws : List InstrWord) : (ofWords base ws).words = ws := rfl

theorem loadAddr_ofWords (base : Nat) (ws : List InstrWord) :
    (ofWords base ws).loadAddr = if ws = [] then 0 else BitVec.ofNat 64 base := by
  by_cases hws : ws = [] <;> simp [loadAddr, ofWords, hws]

theorem loadAddr_mod_four {p : Program} (h : p.wf = true) : p.loadAddr.toNat % 4 = 0 := by
  simp only [wf, Bool.and_eq_true, beq_iff_eq] at h
  unfold loadAddr
  split
  · rfl
  · exact h.1

theorem toNat_base_ofWords {base : Nat} {ws : List InstrWord} (hlen : base + 4 * ws.length ≤ 2 ^ 64) (hws : ws ≠ []) :
    (ofWords base ws).base.toNat = base := by
  have := List.length_pos_iff.mpr hws
  rw [ofWords, if_neg hws, toNat_ofNat_of_lt (by omega)]

end Program

namespace IsProgram

variable {es : List (Word × InstrWord)} {base : Nat} {ws : List InstrWord}

theorem wf_ofWords (h : IsProgram es base ws) : (Program.ofWords base ws).wf = true := by
  obtain ⟨hbase, hlen, -⟩ := h
  by_cases hws : ws = []
  · subst hws; rfl
  · simpa [Program.wf, Program.toNat_base_ofWords hlen hws, hbase] using hlen

/-- The program has exactly the entries (10_state.md R34). -/
theorem fetch_ofWords (h : IsProgram es base ws) {a : Word} {w : InstrWord} :
    (Program.ofWords base ws).fetch a = some w ↔ (a, w) ∈ es := by
  obtain ⟨hbase, hlen, hperm⟩ := h
  have hne {k : Nat} (hk : ws[k]? = some w) : ws ≠ [] := by rintro rfl; cases hk
  rw [Program.fetch_eq_some, hperm.mem_iff, mem_entriesFrom]
  constructor
  · rintro ⟨-, k, ha, hk⟩
    rw [Program.toNat_base_ofWords hlen (hne hk)] at ha
    exact ⟨k, by rw [← ha, BitVec.ofNat_toNat, BitVec.setWidth_eq], hk⟩
  · rintro ⟨k, rfl, hk⟩
    obtain ⟨hlt, -⟩ := List.getElem?_eq_some_iff.mp hk
    rw [Program.toNat_base_ofWords hlen (hne hk), toNat_ofNat_of_lt (by omega)]
    exact ⟨by omega, k, rfl, hk⟩

/-- No two entries of a program have the same address. -/
theorem eq_of_fst_eq (h : IsProgram es base ws) {e f : Word × InstrWord} (he : e ∈ es) (hf : f ∈ es)
    (heq : e.1 = f.1) : e = f :=
  Prod.ext heq (Option.some.inj ((h.fetch_ofWords.mpr he).symm.trans (heq ▸ h.fetch_ofWords.mpr hf)))

end IsProgram

/-! ## Sorting the entries -/

theorem insertEntry_eq_orderedInsert (e : Word × InstrWord) (l : List (Word × InstrWord)) :
    insertEntry e l = l.orderedInsert (fun e f => e.1.toNat ≤ f.1.toNat) e := by
  induction l with
  | nil => rfl
  | cons f l ih => rw [insertEntry, List.orderedInsert_cons, ih]

/-- The entries are sorted by the library's insertion sort. -/
theorem sortEntries_eq_insertionSort (es : List (Word × InstrWord)) :
    sortEntries es = es.insertionSort fun e f => e.1.toNat ≤ f.1.toNat := by
  induction es with
  | nil => rfl
  | cons e es ih => rw [sortEntries, insertEntry_eq_orderedInsert, ih, List.insertionSort_cons]

theorem sortEntries_perm (es : List (Word × InstrWord)) : (sortEntries es).Perm es :=
  sortEntries_eq_insertionSort es ▸ List.perm_insertionSort _ es

theorem pairwise_sortEntries (es : List (Word × InstrWord)) :
    (sortEntries es).Pairwise fun e f => e.1.toNat ≤ f.1.toNat := by
  have : Std.Total fun e f : Word × InstrWord => e.1.toNat ≤ f.1.toNat := ⟨fun _ _ => Nat.le_total ..⟩
  have : IsTrans (Word × InstrWord) fun e f => e.1.toNat ≤ f.1.toNat := ⟨fun _ _ _ => Nat.le_trans⟩
  exact sortEntries_eq_insertionSort es ▸ List.pairwise_insertionSort _ es

/-- Sorting the entries of a program, whatever their order, gives its entries by rising address. -/
theorem IsProgram.sortEntries_eq {es : List (Word × InstrWord)} {base : Nat} {ws : List InstrWord}
    (h : IsProgram es base ws) : sortEntries es = entriesFrom base ws := by
  obtain ⟨-, hlen, hperm⟩ := id h
  have hsorted := sortEntries_entriesFrom hlen
  refine List.Perm.eq_of_pairwise (fun e f he hf hef hfe => ?_) (pairwise_sortEntries es)
    (hsorted ▸ pairwise_sortEntries (entriesFrom base ws)) ((sortEntries_perm es).trans hperm)
  exact h.eq_of_fst_eq ((sortEntries_perm es).mem_iff.mp he) (hperm.mem_iff.mpr hf)
    (BitVec.eq_of_toNat_eq (Nat.le_antisymm hef hfe))

/-! ## Which entries `load` accepts -/

theorem isProgram_of_contiguousFrom {base : Nat} {es : List (Word × InstrWord)} (hbase : base % 4 = 0)
    (hle : base ≤ 2 ^ 64) (h : contiguousFrom base es = true) : IsProgram es base (es.map (·.2)) := by
  induction es generalizing base with
  | nil => exact ⟨hbase, hle, .refl _⟩
  | cons e es ih =>
    simp only [contiguousFrom, Bool.and_eq_true, beq_iff_eq] at h
    obtain ⟨rfl, hes⟩ := h
    have := e.1.isLt
    obtain ⟨-, hlen, hperm⟩ := ih (base := e.1.toNat + 4) (by omega) (by omega) hes
    refine ⟨hbase, ?_, ?_⟩
    · rw [List.map_cons, List.length_cons]
      omega
    · rw [List.map_cons, entriesFrom, BitVec.ofNat_toNat, BitVec.setWidth_eq]
      exact hperm.cons e

theorem IsProgram.ofEntries_eq {es : List (Word × InstrWord)} {base : Nat} {ws : List InstrWord}
    (h : IsProgram es base ws) : Program.ofEntries es = some (Program.ofWords base ws) := by
  obtain ⟨hbase, hlen, -⟩ := id h
  have hsort := h.sortEntries_eq.trans (sortEntries_entriesFrom hlen).symm
  rw [Program.ofWords, ← ofEntries_entriesFrom hbase hlen, Program.ofEntries, Program.ofEntries, hsort]

/-- Entries that are accepted are those of a program (70_reset_and_hazards.md R311). -/
theorem isProgram_of_ofEntries {es : List (Word × InstrWord)} {p : Program} (h : Program.ofEntries es = some p) :
    ∃ base ws, IsProgram es base ws ∧ p = Program.ofWords base ws := by
  have hperm := (sortEntries_perm es).symm
  unfold Program.ofEntries at h
  split at h
  next hnil => exact ⟨0, [], ⟨rfl, by decide, hperm.trans (.of_eq hnil)⟩, (Option.some.inj h).symm⟩
  next e l hcons =>
    split at h
    next hc =>
      obtain ⟨hbase, hlen, hp⟩ := isProgram_of_contiguousFrom hc.1 e.1.isLt.le hc.2
      refine ⟨_, _, ⟨hbase, hlen, (hperm.trans (.of_eq hcons)).trans hp⟩, (Option.some.inj h).symm.trans ?_⟩
      simp [Program.ofWords]
    next => cases h

theorem hostLoad_of_isProgram {es : List (Word × InstrWord)} {base : Nat} {ws : List InstrWord}
    (h : IsProgram es base ws) (size : Nat) (core : Option State) :
    hostLoad size es core = (some (.loaded size (.ofWords base ws)), .ok ()) := by
  rw [hostLoad, h.ofEntries_eq]

theorem hostLoad_of_not_isProgram {es : List (Word × InstrWord)} (h : ¬∃ base ws, IsProgram es base ws) (size : Nat)
    (core : Option State) : hostLoad size es core = (core, .error .malformedProgram) := by
  unfold hostLoad
  split
  next p hp =>
    obtain ⟨base, ws, hprog, -⟩ := isProgram_of_ofEntries hp
    exact absurd ⟨base, ws, hprog⟩ h
  next => rfl

/-! ## A core ready to run -/

/-- The values of 70_reset_and_hazards.md R319. -/
structure State.Ready (s : State) : Prop where
  pc_eq : s.pc = s.program.loadAddr
  reg_eq : ∀ r, s.reg r = 0
  flags_eq : s.flags = .clear
  halted_eq : s.halted = false
  fault_eq : s.fault = .none
  lastObs_eq : s.lastObs = none

theorem State.ready_reset : State.reset.Ready := ⟨rfl, State.reg_of_replicate rfl, rfl, rfl, rfl, rfl⟩

theorem State.ready_loaded (size : Nat) (p : Program) : (State.loaded size p).Ready :=
  ⟨rfl, State.reg_of_replicate rfl, rfl, rfl, rfl, rfl⟩

theorem State.ready_afterReset (s : State) : s.afterReset.Ready :=
  ⟨rfl, State.reg_of_replicate rfl, rfl, rfl, rfl, rfl⟩

/-- A ready core meets the invariant if its MEM_SIZE, data memory and program do. -/
theorem State.Ready.inv {s : State} (h : s.Ready) (hsize : Config.memSizeOk s.memSize) (hwf : s.dmem.wf = true)
    (hbelow : s.dmem.below s.memSize = true) (hprog : s.program.wf = true) : s.Inv where
  memSize_ok := hsize
  dmem_wf := hwf
  dmem_below := hbelow
  program_wf := hprog
  pc_aligned := h.pc_eq ▸ Program.loadAddr_mod_four hprog
  running_no_fault _ := h.fault_eq
  halted_has_obs hh := by cases h.halted_eq.symm.trans hh
  obs_matches _ ho := by cases h.lastObs_eq.symm.trans ho

/-! ## The bounded run -/

theorem runSteps_of_halted {s : State} (h : s.halted = true) (n : Nat) : runSteps n s = (s, []) := by
  cases n <;> simp [runSteps, h]

theorem runSteps_succ_of_step {s t : State} (hr : s.halted = false) (h : step s = .next t) (n : Nat) :
    runSteps (n + 1) s = ((runSteps n t).1, t.lastObs :: (runSteps n t).2) := by
  simp [runSteps, hr, h]

/-- The first `k` steps from `s` are each taken on a running core; they lead to `t`, and `obs` are their observations
in order. -/
def TakesSteps (k : Nat) (s t : State) (obs : List (Option StepObservation)) : Prop :=
  StepsTo k s t ∧ obs.length = k ∧
    ∀ j, j < k → ∃ u v, StepsTo j s u ∧ u.halted = false ∧ step u = .next v ∧ obs[j]? = some v.lastObs

theorem takesSteps_zero (s : State) : TakesSteps 0 s s [] := ⟨rfl, rfl, nofun⟩

theorem TakesSteps.succ {s t t' : State} {k : Nat} {obs : List (Option StepObservation)} (hr : s.halted = false)
    (hst : step s = .next t) (h : TakesSteps k t t' obs) : TakesSteps (k + 1) s t' (t.lastObs :: obs) := by
  obtain ⟨hto, hlen, hsteps⟩ := h
  refine ⟨⟨t, hst, hto⟩, congrArg (· + 1) hlen, fun j hj => ?_⟩
  cases j with
  | zero => exact ⟨s, t, rfl, hr, hst, rfl⟩
  | succ j =>
    obtain ⟨u, v, hu, hstep⟩ := hsteps j (by omega)
    exact ⟨u, v, ⟨t, hst, hu⟩, hstep⟩

/-- A bounded run takes as many steps as its bound, or fewer and then halts (70_reset_and_hazards.md R314). -/
theorem runSteps_takesSteps (n : Nat) (s : State) :
    ∃ k, k ≤ n ∧ (k < n → (runSteps n s).1.halted = true) ∧ TakesSteps k s (runSteps n s).1 (runSteps n s).2 := by
  induction n generalizing s with
  | zero => exact ⟨0, le_rfl, nofun, takesSteps_zero s⟩
  | succ n ih =>
    cases hh : s.halted with
    | true => exact runSteps_of_halted hh (n + 1) ▸ ⟨0, Nat.zero_le _, fun _ => hh, takesSteps_zero s⟩
    | false =>
      obtain ⟨t, ht⟩ := step_next s
      obtain ⟨k, hk, hhalt, hsteps⟩ := ih t
      rw [runSteps_succ_of_step hh ht]
      exact ⟨k + 1, by omega, fun hlt => hhalt (by omega), hsteps.succ hh ht⟩

/-! ## The reads -/

theorem Memory.get_of_not_listed {m : Memory} {a : Nat} (h : ∀ c ∈ m, c.1 ≠ a) : m.get a = Memory.unlisted := by
  induction m with
  | nil => rfl
  | cons c m ih =>
    obtain ⟨hc, hm⟩ := List.forall_mem_cons.mp h
    exact (if_neg hc).trans (ih hm)

theorem hostGetRegister_toNat (s : State) (r : RegIdx) :
    hostGetRegister r.toNat (some s) = (some s, .ok (s.reg r).toInt) := by
  have := r.isLt
  simp only [hostGetRegister, BitVec.ofInt_natCast, BitVec.ofNat_toNat, BitVec.setWidth_eq]
  exact if_pos (by omega)

theorem hostGetRegister_of_outside (s : State) {i : Int} (h : i < 0 ∨ 31 < i) :
    hostGetRegister i (some s) = (some s, .error .noSuchRegister) := if_neg (by omega)

theorem hostGetMemory_of_lt (s : State) {a : Nat} (h : a < s.memSize) :
    hostGetMemory a (some s) = (some s, .ok (s.byte a)) := if_pos (by omega)

theorem hostGetMemory_of_outside (s : State) {a : Int} (h : a < 0 ∨ s.memSize ≤ a) :
    hostGetMemory a (some s) = (some s, .error .noSuchAddress) := if_neg (by omega)

/-! ## The statements -/

/-- Settles O51: entries of a program install the program of their words, and entries of none are refused. -/
theorem loadInstallsOrRefuses : Obligations.LoadInstallsOrRefuses := by
  refine fun size es core => ⟨fun base ws h => ?_, fun h => hostLoad_of_not_isProgram h size core⟩
  have hready := State.ready_loaded size (.ofWords base ws)
  exact ⟨_, hostLoad_of_isProgram h size core, hready.pc_eq.trans (Program.loadAddr_ofWords base ws), hready.reg_eq,
    hready.flags_eq, hready.halted_eq, hready.fault_eq, hready.lastObs_eq, Memory.get_nil, rfl,
    fun _ _ => h.fetch_ofWords⟩

/-- Settles O53: both leave a ready core, `load` with empty memory and a program of contiguous addresses, `reset` with
the memory and program of before. -/
theorem loadAndResetMeetTheInvariant : Obligations.LoadAndResetMeetTheInvariant := by
  refine ⟨fun size es core t hsize hload => ?_, fun s hs =>
    s.ready_afterReset.inv hs.memSize_ok hs.dmem_wf hs.dmem_below hs.program_wf⟩
  by_cases hprog : ∃ base ws, IsProgram es base ws
  · obtain ⟨base, ws, h⟩ := hprog
    cases (hostLoad_of_isProgram h size core).symm.trans hload
    exact (State.ready_loaded ..).inv hsize rfl rfl h.wf_ofWords
  · cases (hostLoad_of_not_isProgram hprog size core).symm.trans hload

/-- Settles O54: `run(N)` answers what `runSteps` computes. -/
theorem boundedRunStops : Obligations.BoundedRunStops := by
  intro n s
  obtain ⟨k, hk, hhalt, hto, hlen, hsteps⟩ := runSteps_takesSteps n s
  exact ⟨rfl, k, hk, hto, hlen, hhalt, hsteps⟩

/-- Settles O11: reset is a ready core with empty memory and a program of no entry. -/
theorem resetValues : Obligations.ResetValues := by
  have hempty : IsProgram [] 0 [] := ⟨rfl, by decide, .refl _⟩
  have hready := State.ready_reset
  refine ⟨hready.pc_eq, hready.reg_eq, hready.flags_eq, hready.halted_eq, hready.fault_eq, hready.lastObs_eq,
    Memory.get_nil, fun a => Option.eq_none_iff_forall_ne_some.mpr fun w hw => ?_⟩
  cases hempty.fetch_ofWords.mp hw

/-- Settles O52: `reset` makes the core ready and writes none of the fields it keeps. -/
theorem resetKeepsProgramAndMemory : Obligations.ResetKeepsProgramAndMemory := by
  intro s
  have hready := s.ready_afterReset
  exact ⟨s.afterReset, rfl, hready.pc_eq, hready.reg_eq, hready.flags_eq, hready.halted_eq, hready.fault_eq,
    hready.lastObs_eq, rfl, rfl, rfl⟩

/-- Settles O55: inside its range a read answers the register or the byte, outside it the refusal. -/
theorem hostReads : Obligations.HostReads := fun s =>
  ⟨hostGetRegister_toNat s, hostGetRegister_toNat s 31, fun _ => hostGetRegister_of_outside s,
    fun _ => hostGetMemory_of_lt s, fun _ => Memory.get_of_not_listed, fun _ => hostGetMemory_of_outside s, rfl, rfl⟩

/-- Settles O56: each operation but `load` starts by looking for a loaded core. -/
theorem nothingBeforeLoad : Obligations.NothingBeforeLoad :=
  ⟨rfl, rfl, fun _ => rfl, fun _ => rfl, fun _ => rfl, rfl, rfl⟩

end Sys2Proof.Machine
end

section
/-! Canonical memory is its bytes (O34), the words written out in the spec decode (O1), and reset meets the invariant
(O12). -/

namespace Sys2Proof.Machine

/-! ## Canonical memory -/

namespace Memory

@[simp] theorem get_cons_self (a : Nat) (v : Byte) (m : Memory) : get ((a, v) :: m) a = v := if_pos rfl

/-- Memory in canonical form from `lo` on reads 0 below `lo` (20_memory.md R50). -/
theorem get_of_lt {lo a : Nat} {m : Memory} (hm : wfFrom lo m = true) (ha : a < lo) : m.get a = unlisted := by
  induction m generalizing lo with
  | nil => rfl
  | cons c m ih =>
    obtain ⟨hlo, -, hm⟩ := (wfFrom_cons ..).mp hm
    exact (if_neg (by omega)).trans (ih hm (by omega))

/-- A canonical memory that reads as another at the other's first address starts no later than the other. -/
theorem head_le_of_get_eq {lo lo' a b : Nat} {u v : Byte} {m n : Memory} (hm : wfFrom lo ((a, u) :: m) = true)
    (hn : wfFrom lo' ((b, v) :: n) = true) (h : get ((a, u) :: m) a = get ((b, v) :: n) a) : b ≤ a := by
  obtain ⟨-, hu, -⟩ := (wfFrom_cons ..).mp hm
  obtain ⟨-, hv, hn⟩ := (wfFrom_cons ..).mp hn
  by_contra hlt
  have hb : get ((b, v) :: n) a = unlisted := get_of_lt ((wfFrom_cons b ..).mpr ⟨le_rfl, hv, hn⟩) (by omega)
  exact hu ((get_cons_self a u m).symm.trans (h.trans hb))

/-- Canonical memories that read the same are the same list: their first entries agree, and so do their tails, which
both read 0 at the first entry's address. -/
theorem eq_of_get_eq {lo lo' : Nat} {m n : Memory} (hm : wfFrom lo m = true) (hn : wfFrom lo' n = true)
    (h : ∀ a, m.get a = n.get a) : m = n := by
  induction m generalizing lo lo' n with
  | nil =>
    cases n with
    | nil => rfl
    | cons d n =>
      obtain ⟨b, v⟩ := d
      obtain ⟨-, hv, -⟩ := (wfFrom_cons ..).mp hn
      exact absurd (by simpa using (h b).symm) hv
  | cons c m ih =>
    obtain ⟨a, u⟩ := c
    obtain ⟨-, hu, htail⟩ := (wfFrom_cons ..).mp hm
    cases n with
    | nil => exact absurd (by simpa using h a) hu
    | cons d n =>
      obtain ⟨b, v⟩ := d
      obtain ⟨-, -, htail'⟩ := (wfFrom_cons ..).mp hn
      obtain rfl : a = b := le_antisymm (head_le_of_get_eq hn hm (h b).symm) (head_le_of_get_eq hm hn (h a))
      obtain rfl : u = v := by simpa using h a
      refine congrArg _ (ih htail htail' fun c => ?_)
      by_cases hc : a = c
      · rw [get_of_lt htail (by omega), get_of_lt htail' (by omega)]
      · simpa [get_cons, hc] using h c

end Memory

/-- Settles O34: `wf` is the canonical form from address 0 on. -/
theorem equalBytesAreEqualMemories : Obligations.EqualBytesAreEqualMemories := fun _ _ => Memory.eq_of_get_eq

/-! ## The words written out -/

/-- A word decodes to an instruction exactly if that is well formed and has the word's examined bits (30_encoding.md
R92, R93, R119). -/
theorem decode_eq_ok_iff {w : InstrWord} {i : Instr} :
    decode w = .ok i ↔ i.wellFormed = true ∧ encode i = w &&& examinedBits i.kind := by
  refine ⟨encodeOfDecodeKeepsExaminedBits w i, fun ⟨hwf, henc⟩ => ?_⟩
  refine ignoredBitsDoNotMatter.1 (encode i) w i (decode_encode i hwf) ?_
  rw [henc, BitVec.and_assoc, BitVec.and_self]

/-- Settles O1: eleven words have the examined bits of their instructions, and three match no row. -/
theorem decodesWrittenOutWords : Obligations.DecodesWrittenOutWords := by
  simp only [Obligations.DecodesWrittenOutWords, decode_eq_ok_iff, unknownOpcodeIffNoRowMatches _]
  decide

/-! ## Reset -/

/-- Settles O12: reset is a ready core with the largest MEM_SIZE, no listed byte and the empty program. -/
theorem resetMeetsTheInvariant : Obligations.ResetMeetsTheInvariant :=
  State.ready_reset.inv ⟨by decide, le_rfl⟩ reset_dmem_wf rfl rfl

end Sys2Proof.Machine
end
